-- ==== Sys2Proof/Word.lean ====
section
/-! DEFINITION. The words of the engine: the byte of the permutation state (spec/00_scope.md R2, R7), the nibble that
`absorb_nibble` takes (R2, R8) and the 32-bit host register word (R6: register, access and command word width 32).
Addition and subtraction of `BitVec` values are the spec's `+8` and `-8` (R7): unsigned, modulo 2^width. -/

namespace Sys2Proof

/-- A table entry, a table index or a register of the permutation state: 8 bits (R2). -/
abbrev Byte := BitVec 8

/-- The operand of `absorb_nibble`: 4 bits (R2, R130). -/
abbrev Nibble := BitVec 4

/-- A host register, a command word, a length or a length counter: 32 bits (R6, `LENW = 32`). -/
abbrev Word := BitVec 32

end Sys2Proof
end

