-- ==== Sys2Proof/Syntax.lean ====
section
/-! DEFINITION. The eighteen commands of spec/30_encoding.md R62 (one constructor per row of spec/opcode_table.json),
with the only operands a command word carries (R61): the immediate of the two absorbing commands. Every other operand
is a length register (R68) or a byte of the DIN stream (spec/20_memory.md R44). -/

namespace Sys2Proof

/-- A command (R62). -/
inductive Instr where
  /-- 0x01 INIT (R110). -/
  | init
  /-- 0x02 UPDATE (R111). -/
  | update
  /-- 0x03 OUTPUT (R112). -/
  | output
  /-- 0x04 CRUSH (R113). -/
  | crush
  /-- 0x05 WHIP (R114). -/
  | whip
  /-- 0x06 SHUFFLE (R115). -/
  | shuffle
  /-- 0x10 ABSORB_NIBBLE (R130): the whole `imm8` field, of which bits 7:4 must be 0 (R61, format N; see
  WellFormed.lean) and bits 3:0 are the nibble. -/
  | absorbNibble (imm8 : Byte)
  /-- 0x11 ABSORB_BYTE (R131): the byte to absorb (R61, format B). -/
  | absorbByte (b : Byte)
  /-- 0x12 ABSORB (R132). -/
  | absorb
  /-- 0x13 ABSORB_STOP (R133). -/
  | absorbStop
  /-- 0x18 DRIP (R140). -/
  | drip
  /-- 0x19 SQUEEZE (R141). -/
  | squeeze
  /-- 0x20 HASH (R150). -/
  | hash
  /-- 0x21 STREAM (R151). -/
  | stream
  /-- 0x22 ENCRYPT (R152). -/
  | encrypt
  /-- 0x23 DECRYPT (R153). -/
  | decrypt
  /-- 0x24 AUTH (R154). -/
  | auth
  /-- 0x3F ERASE (R171). -/
  | erase
  deriving DecidableEq, Repr

end Sys2Proof
end

