-- ==== Sys2Proof/WellFormed.lean ====
section
/-! DEFINITION. Which commands have a command word: spec/30_encoding.md R61 asks one thing of an operand, that the
high nibble of ABSORB_NIBBLE's `imm8` be 0. -/

namespace Sys2Proof

/-- R61, format N: `imm8[7:4]` must be 0. Every other command is well formed whatever its operand. -/
def Instr.wf : Instr → Bool
  | .absorbNibble imm8 => imm8.extractLsb' 4 4 == 0#4
  | .init => true
  | .update => true
  | .output => true
  | .crush => true
  | .whip => true
  | .shuffle => true
  | .absorbByte _ => true
  | .absorb => true
  | .absorbStop => true
  | .drip => true
  | .squeeze => true
  | .hash => true
  | .stream => true
  | .encrypt => true
  | .decrypt => true
  | .auth => true
  | .erase => true

end Sys2Proof
end

