-- ==== Sys2Proof/Decode.lean ====
section
/-! DEFINITION. Command words (spec/30_encoding.md): the fields of R60, the decoder (total on every 32-bit word, each
rejection under its own name) and the encoder. A command word crosses the interface as one whole 32-bit value, so
there is no byte order to choose (spec/20_memory.md R43). -/

namespace Sys2Proof

/-- The field `opcode`, bits 7:0 (R60). -/
def opcodeField (w : Word) : Byte := w.extractLsb' 0 8

/-- The field `imm8`, bits 15:8 (R60). -/
def immField (w : Word) : Byte := w.extractLsb' 8 8

/-- The field `zero`, bits 31:16 (R60). -/
def zeroField (w : Word) : BitVec 16 := w.extractLsb' 16 16

/-- The command word whose opcode and immediate fields are given and whose field `zero` is 0 (R60). -/
def commandWord (op imm8 : Byte) : Word := (imm8.zeroExtend 32 <<< 8) ||| op.zeroExtend 32

/-- Why a word selects no command (R64, R65). The shell reports all of them as ILLEGAL (R67). -/
inductive DecodeError where
  /-- Bits 31:16 are not all 0 (R60, R64). -/
  | zeroFieldSet
  /-- The opcode is one of the 238 reserved values (R65). -/
  | reservedOpcode
  /-- A format Z word with `imm8 ≠ 0` (R61, R64). -/
  | immediateNotZero
  /-- An ABSORB_NIBBLE word with `imm8[7:4] ≠ 0` (R61, R64). -/
  | nibbleTooLarge
  deriving DecidableEq, Repr

/-- Format Z: `imm8` must be 0x00 (R61). -/
def decodeZ (imm8 : Byte) (i : Instr) : Except DecodeError Instr :=
  if imm8 = 0#8 then .ok i else .error .immediateNotZero

/-- Format N: `imm8[7:4]` must be 0 (R61). -/
def decodeN (imm8 : Byte) : Except DecodeError Instr :=
  if imm8.extractLsb' 4 4 = 0#4 then .ok (.absorbNibble imm8) else .error .nibbleTooLarge

/-- The opcode map of R62, on the two fields that may be non-zero. -/
def decodeFields (op imm8 : Byte) : Except DecodeError Instr :=
  if op = 0x01#8 then decodeZ imm8 .init
  else if op = 0x02#8 then decodeZ imm8 .update
  else if op = 0x03#8 then decodeZ imm8 .output
  else if op = 0x04#8 then decodeZ imm8 .crush
  else if op = 0x05#8 then decodeZ imm8 .whip
  else if op = 0x06#8 then decodeZ imm8 .shuffle
  else if op = 0x10#8 then decodeN imm8
  else if op = 0x11#8 then .ok (.absorbByte imm8)
  else if op = 0x12#8 then decodeZ imm8 .absorb
  else if op = 0x13#8 then decodeZ imm8 .absorbStop
  else if op = 0x18#8 then decodeZ imm8 .drip
  else if op = 0x19#8 then decodeZ imm8 .squeeze
  else if op = 0x20#8 then decodeZ imm8 .hash
  else if op = 0x21#8 then decodeZ imm8 .stream
  else if op = 0x22#8 then decodeZ imm8 .encrypt
  else if op = 0x23#8 then decodeZ imm8 .decrypt
  else if op = 0x24#8 then decodeZ imm8 .auth
  else if op = 0x3F#8 then decodeZ imm8 .erase
  else .error .reservedOpcode

/-- The decoder: total on every 32-bit word (R63, R64). -/
def decode (w : Word) : Except DecodeError Instr :=
  if zeroField w = 0#16 then decodeFields (opcodeField w) (immField w) else .error .zeroFieldSet

/-- The opcode of a command (R62). -/
def Instr.opcode : Instr → Byte
  | .init => 0x01#8
  | .update => 0x02#8
  | .output => 0x03#8
  | .crush => 0x04#8
  | .whip => 0x05#8
  | .shuffle => 0x06#8
  | .absorbNibble _ => 0x10#8
  | .absorbByte _ => 0x11#8
  | .absorb => 0x12#8
  | .absorbStop => 0x13#8
  | .drip => 0x18#8
  | .squeeze => 0x19#8
  | .hash => 0x20#8
  | .stream => 0x21#8
  | .encrypt => 0x22#8
  | .decrypt => 0x23#8
  | .auth => 0x24#8
  | .erase => 0x3F#8

/-- The immediate of a command: its operand in formats B and N, 0x00 in format Z (R61). -/
def Instr.imm8 : Instr → Byte
  | .absorbNibble imm8 => imm8
  | .absorbByte b => b
  | .init => 0#8
  | .update => 0#8
  | .output => 0#8
  | .crush => 0#8
  | .whip => 0#8
  | .shuffle => 0#8
  | .absorb => 0#8
  | .absorbStop => 0#8
  | .drip => 0#8
  | .squeeze => 0#8
  | .hash => 0#8
  | .stream => 0#8
  | .encrypt => 0#8
  | .decrypt => 0#8
  | .auth => 0#8
  | .erase => 0#8

/-- The encoder: the command word of a command (R60, R62). -/
def encode (i : Instr) : Word := commandWord i.opcode i.imm8

/-- The instruction the decoder reads from the bits `w` of a row of spec/opcode_table.json with `nbits` bits. Bit 0 of
the table is bit 0 of the command word (R8, R60), and every bit above `nbits` is 0. A number that does not fit the one
32-bit word a command has (R60) is no command. -/
def decodeTableWord (nbits w : Nat) : Option Instr :=
  if w % 2 ^ nbits < 2 ^ 32 then (decode (BitVec.ofNat 32 (w % 2 ^ nbits))).toOption else none

end Sys2Proof
end

