-- ==== Sys2Proof/Config.lean ====
section
/-! DEFINITION. The implementation parameters of spec/00_scope.md R6 that the model reads. The construction has one
fixed size (R2), so none of them is left open; `LENW` is fixed at 32 by `Word`, and the base address `BASE` is read by
no rule (spec/92_eei_decisions.md D2). The spec leaves no result of any command without a value, so there is no free
value here (log entry 9). -/

namespace Sys2Proof

/-- `HALF`: the absorb base, the absorb capacity and (as a count) the number of `crush` pairs (R2, R6). -/
def Config.half : Byte := 128#8

/-- The number of pairs `crush` compares: 128 (R113). Irreducible, so that a proof that only carries `crush` about does
not unfold its loop. -/
@[irreducible] def Config.crushPairs : Nat := 128

/-- `WHIP_ROUNDS`: the updates of one `whip` (R6, R114). Irreducible for the same reason. -/
@[irreducible] def Config.whipRounds : Nat := 512

/-- `OUTLEN_MAX`: the largest output length HASH and AUTH accept (R6, R84). -/
def Config.outLenMax : Word := 255#32

end Sys2Proof
end

