-- ==== Sys2Proof/Machine/State.lean ====
section
/-! DEFINITION. The state of the engine: everything spec/10_state.md gives it (R10 to R26), and beside it four fields
of the model's own that stand for the host, the other agent of spec/20_memory.md R50: what the host does next, what its
reads have returned, and which access, if any, the transition now being taken serves. CMD, DIN and STATUS are not
stored (R25, R30, R31). The reset values are those of R32. -/

namespace Sys2Proof.Machine

/-- The table `S[0..255]` of the permutation state (R10): 256 entries of 8 bits, every one of them always there. -/
abbrev Table := Vector Byte 256

/-- The permutation state `PS` (R10 to R13), under the spec's own names. -/
structure PermState where
  /-- `S`: the table (R10). -/
  S : Table
  /-- `I`: index register, written by `update` (R11). -/
  I : Byte
  /-- `J`: index register, written by `update` (R11). -/
  J : Byte
  /-- `K`: index register, written by `update` (R11). -/
  K : Byte
  /-- `Z`: the most recent output byte, written by `output` (R11). -/
  Z : Byte
  /-- `A`: the absorption counter, 0..128 (R12). -/
  A : Byte
  /-- `W`: the stride, odd while the state is live (R13). -/
  W : Byte
  deriving DecidableEq, Repr

/-- The erased permutation state: every byte of it is 0 (R170), as reset leaves it too (R32). -/
def PermState.erased : PermState :=
  { S := Vector.replicate 256 0#8, I := 0#8, J := 0#8, K := 0#8, Z := 0#8, A := 0#8, W := 0#8 }

/-- The sequencer phase `PHASE` (R21). -/
inductive Phase where
  /-- 0: no command in progress. -/
  | idle
  /-- 1: command accepted, its first internal step pending. -/
  | exec
  /-- 2: absorbing the key field from DIN. -/
  | absKey
  /-- 3: absorbing the nonce field from DIN. -/
  | absNonce
  /-- 4: absorbing the message field from DIN. -/
  | absMsg
  /-- 5: ENCRYPT and DECRYPT, about to drip the next keystream byte or to finish. -/
  | cryptDrip
  /-- 6: ENCRYPT and DECRYPT, keystream byte in `Z`, waiting for the input byte. -/
  | cryptXfer
  /-- 7: producing output bytes to DOUT. -/
  | squeeze
  deriving DecidableEq, Repr

/-- The status of the most recent CMD write made while `BUSY = 0`, `ERRCODE` (R24). -/
inductive ErrCode where
  /-- 0 OK: the command was accepted. -/
  | ok
  /-- 1 LEN: HASH or AUTH with `OUTLEN > 255`. -/
  | len
  /-- 2 ILLEGAL: the command word selects no command. -/
  | illegal
  /-- 3 NOSTATE: a raw command that needs a live state was written with `LIVE = 0`. -/
  | noState
  deriving DecidableEq, Repr

/-- One place in the total order of engine steps and host accesses that an execution is (R50). DESIGN CHOICE (log entry
1): the MODEL's own type, since the spec's host is the outside world. An access is given by its byte offset in the
register window (R41), its size in bytes and, for a write, the value. -/
inductive Event where
  /-- The engine takes its internal step if one is enabled; a held engine changes nothing (R97, R98). -/
  | engine
  /-- The host writes `value` to the register at `offset` (R41). -/
  | write (offset size : Nat) (value : Word)
  /-- The host reads the register at `offset` (R41). -/
  | read (offset size : Nat)
  /-- The reset input (R200, R201). -/
  | reset
  deriving DecidableEq, Repr

/-- Which host access the transition being taken serves. DESIGN CHOICE (log entry 3): the MODEL's own type: `cmd` while
a CMD write presents a command (R81), `din` while a DIN write delivers a byte (R45, `DinTake()`), and `none` in an
internal step and in every state between two transitions (R33: an input byte is in no storage across steps). -/
inductive Port where
  /-- No access drives a sequencer port. -/
  | none
  /-- A CMD write presents the command. -/
  | cmd
  /-- A DIN write delivers this byte. -/
  | din (b : Byte)
  deriving DecidableEq, Repr

/-- The whole machine. -/
structure State where
  /-- `PS`: the permutation state (R10 to R16). -/
  ps : PermState
  /-- `LIVE` (R19). -/
  live : Bool
  /-- `BUSY` (R18). -/
  busy : Bool
  /-- `OP`: the opcode of the command in progress (R20). -/
  op : Byte
  /-- `IMM`: its immediate (R20). -/
  imm : Byte
  /-- `PHASE` (R21). -/
  phase : Phase
  /-- `C_KEY`: key bytes still to be taken (R22). -/
  cKey : Word
  /-- `C_NONCE`: nonce bytes still to be taken (R22). -/
  cNonce : Word
  /-- `C_MSG`: message bytes still to be taken (R22). -/
  cMsg : Word
  /-- `C_OUT`: output bytes still to be produced (R22). -/
  cOut : Word
  /-- `KEYLEN` (R23). -/
  keyLen : Word
  /-- `NONCELEN` (R23). -/
  nonceLen : Word
  /-- `MSGLEN` (R23). -/
  msgLen : Word
  /-- `OUTLEN` (R23). -/
  outLen : Word
  /-- `ERRCODE` (R24). -/
  errCode : ErrCode
  /-- `DOUT_BYTE` (R26). -/
  doutByte : Byte
  /-- `DOUT_VALID` (R26). -/
  doutValid : Bool
  /-- MODEL's own (log entry 3): the access the transition being taken serves. -/
  port : Port
  /-- MODEL's own (log entry 1): what is still to come of the total order of R50, first event first. When it is empty
  the engine alone goes on (R98; log entry 4). -/
  agenda : List Event
  /-- MODEL's own (log entry 2): what the host's register reads have returned, the newest first, each with the offset
  read. -/
  reads : List (Nat × Word)
  deriving DecidableEq, Repr

/-- Why the machine stops. Neither reason can arise from a state that the sequencer's invariant holds of (Safety.lean),
so no command stops in a run from reset. -/
inductive Fault where
  /-- Raised by an internal step or a DIN write when `PHASE` is one that the path of the command in progress (R100)
  does not visit, or when `OP` and `IMM` are no command: the spec gives no rule there (log entry 5). Safe: the model
  stops where the spec says nothing. -/
  | offPath
  /-- Raised by a step that would mix, absorb or extract with `LIVE = 0` (spec/93_implementation_defined.md U12: a
  fault, no rule gives the result a meaning; log entry 6). Safe: the model stops where the spec says nothing. -/
  | erasedState
  deriving DecidableEq, Repr

/-- Why the model has no meaning for what it is asked to do. -/
inductive Refusal where
  /-- Raised by `exec` for a command that has no meaning yet; no arm of this model answers it. Safe. -/
  | notModelled (mnemonic : String)
  /-- Raised by a host access that is not a whole 32-bit register at a 4-byte-aligned offset: outside the interface,
  a model refuses it (R42; U6; log entry 7). Safe: the model stops where the spec says nothing. -/
  | accessShape
  deriving DecidableEq, Repr

/-- The machine right after reset (R32, R200). The model's own fields: no access being served, nothing on the agenda,
nothing read. -/
def State.reset : State :=
  { ps := PermState.erased
    live := false
    busy := false
    op := 0#8
    imm := 0#8
    phase := .idle
    cKey := 0#32
    cNonce := 0#32
    cMsg := 0#32
    cOut := 0#32
    keyLen := 0#32
    nonceLen := 0#32
    msgLen := 0#32
    outLen := 0#32
    errCode := .ok
    doutByte := 0#8
    doutValid := false
    port := .none
    agenda := []
    reads := [] }

end Sys2Proof.Machine
end

