-- ==== Sys2Proof/Machine/Flags.lean ====
section
/-! DEFINITION. The status bits. There are no flags in the sense of a processor (spec/10_state.md R34): what the host
sees of the shell is the word STATUS (R30), assembled from the state, and `DIN_REQ` (R25), which is derived too. -/

namespace Sys2Proof.Machine

/-- The number of a phase, 3 bits (R21). -/
def Phase.bits : Phase → BitVec 3
  | .idle => 0#3
  | .exec => 1#3
  | .absKey => 2#3
  | .absNonce => 3#3
  | .absMsg => 4#3
  | .cryptDrip => 5#3
  | .cryptXfer => 6#3
  | .squeeze => 7#3

/-- The number of an error code, 2 bits (R24). -/
def ErrCode.bits : ErrCode → BitVec 2
  | .ok => 0#2
  | .len => 1#2
  | .illegal => 2#2
  | .noState => 3#2

/-- `DIN_REQ` (R25): a DIN write now will be consumed. -/
def dinReq (s : State) : Bool :=
  s.busy &&
    match s.phase with
    | .absKey => s.cKey != 0#32
    | .absNonce => s.cNonce != 0#32
    | .absMsg => s.cMsg != 0#32
    | .cryptXfer => !s.doutValid
    | .idle => false
    | .exec => false
    | .cryptDrip => false
    | .squeeze => false

/-- STATUS (R30): bit 0 BUSY, bit 1 LIVE, bit 2 DIN_REQ, bit 3 DOUT_VALID, bits 5:4 ERRCODE, bits 7:6 zero,
bits 10:8 PHASE, bits 31:11 zero. -/
def statusWord (s : State) : Word :=
  (BitVec.ofBool s.busy).zeroExtend 32 |||
  ((BitVec.ofBool s.live).zeroExtend 32 <<< 1) |||
  ((BitVec.ofBool (dinReq s)).zeroExtend 32 <<< 2) |||
  ((BitVec.ofBool s.doutValid).zeroExtend 32 <<< 3) |||
  (s.errCode.bits.zeroExtend 32 <<< 4) |||
  (s.phase.bits.zeroExtend 32 <<< 8)

end Sys2Proof.Machine
end

