-- ==== Sys2Proof/Machine/Operands.lean ====
section
/-! DEFINITION. Where a command's operands come from: the table entries (spec/20_memory.md R40), the nibbles of a byte
(spec/00_scope.md R8, spec/42_absorb_protocol.md R131), the byte of a 32-bit register access (R45, R46), the length
byte (R43), the host registers by offset (R41), and what each command asks of the state before it is accepted
(spec/30_encoding.md R62, spec/40_sequencer.md R81). -/

namespace Sys2Proof.Machine

/-- `S[n]`: every index 0..255 is valid (R40). -/
def tableRead (t : Table) (n : Byte) : Byte := t[n.toNat]'n.isLt

/-- `swap(S[m], S[n])`: both reads before both writes, no effect when `m = n` (00_scope.md section 5.1). -/
def tableSwap (t : Table) (m n : Byte) : Table := t.swap m.toNat n.toNat m.isLt n.isLt

/-- The low nibble of a byte, `b[3:0]` (R8). -/
def lowNibble (b : Byte) : Nibble := b.extractLsb' 0 4

/-- The high nibble of a byte, `b[7:4]` (R8). -/
def highNibble (b : Byte) : Nibble := b.extractLsb' 4 4

/-- The table index `128 + x` that a nibble selects, 128..143 (R130). -/
def nibbleIndex (x : Nibble) : Byte := Config.half + x.zeroExtend 8

/-- Bits 7:0 of a 32-bit value: the byte of a DIN write (R45) and the length byte `C_OUT[7:0]` (R22). -/
def lowByte (v : Word) : Byte := v.extractLsb' 0 8

/-- `zext_32` of a byte (R8): what a DOUT read returns (R46). -/
def zext32 (b : Byte) : Word := b.zeroExtend 32

/-- The eight host registers (R41). -/
inductive HostReg where
  | cmd
  | status
  | keyLen
  | nonceLen
  | msgLen
  | outLen
  | din
  | dout
  deriving DecidableEq, Repr

/-- The register at a byte offset (R41); none above 0x1C (R42). -/
def hostReg (offset : Nat) : Option HostReg :=
  if offset = 0x00 then some .cmd
  else if offset = 0x04 then some .status
  else if offset = 0x08 then some .keyLen
  else if offset = 0x0C then some .nonceLen
  else if offset = 0x10 then some .msgLen
  else if offset = 0x14 then some .outLen
  else if offset = 0x18 then some .din
  else if offset = 0x1C then some .dout
  else none

/-- The accesses inside the interface: a whole 32-bit register at a 4-byte-aligned offset (R42). -/
def accessOk (offset size : Nat) : Bool := size == 4 && offset % 4 == 0

/-- The commands of `NEEDS_LIVE` (R81; column "needs LIVE" of R62). -/
def needsLive : Instr → Bool
  | .update => true
  | .output => true
  | .crush => true
  | .whip => true
  | .shuffle => true
  | .absorbNibble _ => true
  | .absorbByte _ => true
  | .absorb => true
  | .absorbStop => true
  | .drip => true
  | .squeeze => true
  | .init => false
  | .hash => false
  | .stream => false
  | .encrypt => false
  | .decrypt => false
  | .auth => false
  | .erase => false

/-- The commands whose `OUTLEN` is checked at the CMD write (R68, R81). -/
def checksOutLen : Instr → Bool
  | .hash => true
  | .auth => true
  | .init => false
  | .update => false
  | .output => false
  | .crush => false
  | .whip => false
  | .shuffle => false
  | .absorbNibble _ => false
  | .absorbByte _ => false
  | .absorb => false
  | .absorbStop => false
  | .drip => false
  | .squeeze => false
  | .stream => false
  | .encrypt => false
  | .decrypt => false
  | .erase => false

end Sys2Proof.Machine
end

