-- ==== Sys2Proof/Machine/Mixer.lean ====
section
/-! DEFINITION. The operations of the permutation state, as spec/41_primitive_ops.md, 42_absorb_protocol.md,
43_extract_protocol.md and 45_secure_erase.md write them. Each is a function from a permutation state to the next one;
an operation that "returns Z" (`output`, `drip`) leaves the byte it returns in `Z`, so the byte is `Z` of the result.
`identityTable`, `crush`, `whip` and `shuffle` are irreducible: a proof reasons about them by their equations
(Laws/Table.lean, Laws/Mixer.lean), and does not unfold 256 entries or 1536 updates by accident. -/

namespace Sys2Proof.Machine

/-- `S[v] <- v` for every `v` (R110). -/
@[irreducible] def identityTable : Table := Vector.ofFn fun v => BitVec.ofNat 8 v.val

/-- `initialize` (R110): reads nothing, so it is a value. -/
def PermState.initial : PermState :=
  { S := identityTable
    I := 0#8, J := 0#8, K := 0#8, Z := 0#8, A := 0#8, W := 1#8 }

/-- `update` (R111): each line uses the values the lines before it have written. -/
def PermState.update (p : PermState) : PermState :=
  let i := p.I + p.W
  let y := p.J + tableRead p.S i
  let j := p.K + tableRead p.S y
  let k := i + p.K + tableRead p.S j
  { p with I := i, J := j, K := k, S := tableSwap p.S i j }

/-- `output` (R112): writes `Z` and returns it. -/
def PermState.output (p : PermState) : PermState :=
  let y1 := p.Z + p.K
  let x1 := p.I + tableRead p.S y1
  let y2 := p.J + tableRead p.S x1
  { p with Z := tableRead p.S y2 }

/-- One turn of the loop of `crush` (R113): put the pair `(v, 255 - v)` in order, by an unsigned comparison. -/
def crushPair (v : Nat) (t : Table) : Table :=
  let m := BitVec.ofNat 8 v
  let y := 255#8 - m
  if tableRead t y < tableRead t m then tableSwap t m y else t

/-- The first `n` turns of the loop of `crush`: `v = 0 .. n-1`. -/
def crushPairs : Nat → Table → Table
  | 0, t => t
  | n + 1, t => crushPair n (crushPairs n t)

/-- `crush` (R113): `v = 0 .. 127`. -/
@[irreducible] def PermState.crush (p : PermState) : PermState := { p with S := crushPairs Config.crushPairs p.S }

/-- `update`, `n` times. -/
def updates : Nat → PermState → PermState
  | 0, p => p
  | n + 1, p => (updates n p).update

/-- `whip` (R114): 512 updates with the old `W`, then `W <- W +8 2`. -/
@[irreducible] def PermState.whip (p : PermState) : PermState :=
  let q := updates Config.whipRounds p
  { q with W := q.W + 2#8 }

/-- `shuffle` (R115): whip, crush, whip, crush, whip, then `A <- 0`. -/
@[irreducible] def PermState.shuffle (p : PermState) : PermState :=
  { p.whip.crush.whip.crush.whip with A := 0#8 }

/-- `if A = 128 then shuffle`: the first line of `absorb_nibble` and `absorb_stop` (R130, R133). -/
def PermState.makeRoom (p : PermState) : PermState := if p.A = Config.half then p.shuffle else p

/-- `if A > 0 then shuffle`: the first line of `drip` and of `squeeze` (R140, R141). -/
def PermState.flush (p : PermState) : PermState := if p.A = 0#8 then p else p.shuffle

/-- `absorb_nibble(x)` (R130): the swap uses `A` after the possible shuffle and before the increment. -/
def PermState.absorbNibble (x : Nibble) (p : PermState) : PermState :=
  let q := p.makeRoom
  { q with S := tableSwap q.S q.A (nibbleIndex x), A := q.A + 1#8 }

/-- `absorb_byte(b)` (R131): the low nibble, then the high nibble. -/
def PermState.absorbByte (b : Byte) (p : PermState) : PermState :=
  (p.absorbNibble (lowNibble b)).absorbNibble (highNibble b)

/-- `absorb_stop` (R133). -/
def PermState.absorbStop (p : PermState) : PermState :=
  let q := p.makeRoom
  { q with A := q.A + 1#8 }

/-- `drip` (R140): flush, update, output; the byte returned is `Z` of the result. -/
def PermState.drip (p : PermState) : PermState := p.flush.update.output

end Sys2Proof.Machine
end

