-- ==== Sys2Proof/Machine/Ops.lean ====
section
/-! DEFINITION. The shell's shared operations: the output holding register, the end of a command, rejection (the one
thing that stands for taking an exception here: spec/60_exceptions.md R180, R186; there is no return from it),
acceptance, and the CMD write of a command (spec/40_sequencer.md R81). -/

namespace Sys2Proof.Machine

/-- What a transition answers. -/
abbrev Result := Host.Outcome State Fault Refusal

/-- `DoutPut(v)` (20_memory.md R47); its callers take it only when `DOUT_VALID = 0`. -/
def State.doutPut (v : Byte) (s : State) : State := { s with doutByte := v, doutValid := true }

/-- `erase` (R170) with the `LIVE <- 0` every caller of it makes. -/
def State.eraseState (s : State) : State := { s with ps := PermState.erased, live := false }

/-- The part of `finish` after the possible erase (R96). -/
def State.toIdle (s : State) : State :=
  { s with busy := false, phase := .idle, op := 0#8, imm := 0#8,
           cKey := 0#32, cNonce := 0#32, cMsg := 0#32, cOut := 0#32 }

/-- `finish(e)` (R96). -/
def State.finish (e : Bool) (s : State) : State := (if e then s.eraseState else s).toIdle

/-- `reject(code)` (R180): LEN erases the permutation state too (R84, R181); nothing else changes. -/
def State.reject (code : ErrCode) (s : State) : State :=
  match code with
  | .len => { s.eraseState with errCode := .len }
  | .ok => { s with errCode := .ok }
  | .illegal => { s with errCode := .illegal }
  | .noState => { s with errCode := .noState }

/-- Accept (R85): latch the command and all four lengths. -/
def State.accept (i : Instr) (s : State) : State :=
  { s with errCode := .ok, busy := true, op := i.opcode, imm := i.imm8, phase := .exec,
           cKey := s.keyLen, cNonce := s.nonceLen, cMsg := s.msgLen, cOut := s.outLen }

/-- A CMD write of the command `i` while `BUSY = 0`: the checks of R81 in its order, ILLEGAL before NOSTATE before
LEN (R182), then acceptance. -/
def State.issue (i : Instr) (s : State) : State :=
  if i.wf = false then s.reject .illegal
  else if needsLive i && !s.live then s.reject .noState
  else if checksOutLen i && decide (Config.outLenMax < s.outLen) then s.reject .len
  else s.accept i

/-- The port is served: between two transitions no access drives it. -/
def State.release (s : State) : State := { s with port := .none }

/-- Reset (R200, R201): every piece of the engine's state to its reset value, at any point. The host's agenda and what
it has read are not the engine's. -/
def State.applyReset (s : State) : State := { State.reset with agenda := s.agenda, reads := s.reads }

/-- A step that mixes, absorbs or extracts runs on a live state only (R83; U12). -/
def onLive (s t : State) : Result := if s.live then .next t else .fault .erasedState

/-- One transition of a command, by the access it serves. A CMD write while `BUSY = 1` is ignored (R80), and otherwise
presents the command to the checks of R81. A DIN write is consumed when `DIN_REQ = 1` and ignored otherwise (R45).
With no access it is the internal step. -/
def transition (i : Instr) (consume : Byte → State → Result) (internal : State → Result) (s : State) : Result :=
  match s.port with
  | .none => internal s
  | .cmd => .next (if s.busy then s.release else s.release.issue i)
  | .din b => if dinReq s then consume b s.release else .next s.release

end Sys2Proof.Machine
end

