-- ==== Sys2Proof/Machine/Sequencer.lean ====
section
/-! DEFINITION. The steps of spec/40_sequencer.md that several commands share: the EXEC step of a command that moves no
stream (R86), the start of a high-level command (R87), the absorb phases (R90 to R93), the crypt phases (R94) and the
squeeze phase (R95). A step that is not enabled answers the state it was given: the engine holds (R97). -/

namespace Sys2Proof.Machine

/-- A DIN write during a command that takes no byte: no phase of its path (R100) asks for one. -/
def noByte (_ : Byte) (_ : State) : Result := .fault .offPath

/-- The internal step of a command whose whole work is its EXEC step (R86). -/
def atExec (work : State → Result) (s : State) : Result :=
  match s.phase with
  | .exec => work s
  | .idle => .fault .offPath
  | .absKey => .fault .offPath
  | .absNonce => .fault .offPath
  | .absMsg => .fault .offPath
  | .cryptDrip => .fault .offPath
  | .cryptXfer => .fault .offPath
  | .squeeze => .fault .offPath

/-- An EXEC step that changes the permutation state by `f` and finishes without erasing (R86). -/
def mixAndFinish (f : PermState → PermState) (s : State) : Result :=
  onLive s (State.finish false { s with ps := f s.ps })

/-- An EXEC step that puts the byte `f` returns, and so is held whole while `DOUT_VALID = 1` (R86). -/
def emitAndFinish (f : PermState → PermState) (s : State) : Result :=
  if s.doutValid then .next s
  else onLive s (State.finish false (State.doutPut (f s.ps).Z { s with ps := f s.ps }))

/-- The EXEC step of a high-level command (R87): `initialize`, whatever `LIVE` was. -/
def startHigh (p : Phase) (s : State) : Result :=
  .next { s with ps := PermState.initial, live := true, phase := p }

/-- Change the permutation state by `f` and go to phase `p`. -/
def mixAndGo (f : PermState → PermState) (p : Phase) (s : State) : Result :=
  onLive s { s with ps := f s.ps, phase := p }

/-- The internal step of an absorb phase: none while its counter is not 0 (R90), then the phase's `next` step. -/
def whenTaken (counter : Word) (next : State → Result) (s : State) : Result :=
  if counter = 0#32 then next s else .next s

/-- The DIN write of an absorb phase (R90): `absorb_byte(b)`, and the phase's counter goes down by one. -/
def absorbDin (b : Byte) (s : State) : Result :=
  match s.phase with
  | .absKey => onLive s { s with ps := s.ps.absorbByte b, cKey := s.cKey - 1#32 }
  | .absNonce => onLive s { s with ps := s.ps.absorbByte b, cNonce := s.cNonce - 1#32 }
  | .absMsg => onLive s { s with ps := s.ps.absorbByte b, cMsg := s.cMsg - 1#32 }
  | .idle => .fault .offPath
  | .exec => .fault .offPath
  | .cryptDrip => .fault .offPath
  | .cryptXfer => .fault .offPath
  | .squeeze => .fault .offPath

/-- What HASH and AUTH do to the permutation state when the message has been absorbed (R93): `absorb_stop`, the length
byte, and the flush of `squeeze`. -/
def sealLength (len : Byte) (p : PermState) : PermState := (p.absorbStop.absorbByte len).flush

/-- The internal step of CRYPT_DRIP (R94). -/
def cryptDripStep (s : State) : Result :=
  if s.cMsg = 0#32 then .next (s.finish true)
  else onLive s { s with ps := s.ps.drip, phase := .cryptXfer }

/-- The DIN write of CRYPT_XFER (R94): the input byte is combined with the keystream byte in `Z` and put to DOUT. In
the absorb phases it is the write of R90. -/
def cryptDin (combine : Byte → Byte → Byte) (b : Byte) (s : State) : Result :=
  match s.phase with
  | .cryptXfer =>
    onLive s (State.doutPut (combine b s.ps.Z) { s with cMsg := s.cMsg - 1#32, phase := .cryptDrip })
  | .absKey => absorbDin b s
  | .absNonce => absorbDin b s
  | .absMsg => .fault .offPath
  | .idle => .fault .offPath
  | .exec => .fault .offPath
  | .cryptDrip => .fault .offPath
  | .squeeze => .fault .offPath

/-- The internal step of SQUEEZE (R95); `e` says whether the command ends erased. -/
def squeezeStep (e : Bool) (s : State) : Result :=
  if s.cOut = 0#32 then .next (s.finish e)
  else if s.doutValid then .next s
  else onLive s (State.doutPut s.ps.drip.Z { s with ps := s.ps.drip, cOut := s.cOut - 1#32 })

/-- The internal steps of ENCRYPT and DECRYPT (R87, R91, R92, R94). -/
def cryptInternal (s : State) : Result :=
  match s.phase with
  | .exec => startHigh .absKey s
  | .absKey => whenTaken s.cKey (mixAndGo PermState.absorbStop .absNonce) s
  | .absNonce => whenTaken s.cNonce (fun s => .next { s with phase := .cryptDrip }) s
  | .cryptDrip => cryptDripStep s
  | .cryptXfer => .next s
  | .absMsg => .fault .offPath
  | .idle => .fault .offPath
  | .squeeze => .fault .offPath

end Sys2Proof.Machine
end

