-- ==== Sys2Proof/Machine/Absorb.lean ====
section
/-! DEFINITION. The absorption commands (spec/42_absorb_protocol.md R130 to R133). -/

namespace Sys2Proof.Machine

/-- ABSORB_NIBBLE (R130): the nibble is `imm8[3:0]`. -/
def execAbsorbNibble (imm8 : Byte) (s : State) : Result :=
  transition (.absorbNibble imm8) noByte (atExec (mixAndFinish (PermState.absorbNibble (lowNibble imm8)))) s

/-- ABSORB_BYTE (R131). -/
def execAbsorbByte (b : Byte) (s : State) : Result :=
  transition (.absorbByte b) noByte (atExec (mixAndFinish (PermState.absorbByte b))) s

/-- The internal steps of ABSORB (R87, R93). -/
def absorbInternal (s : State) : Result :=
  match s.phase with
  | .exec => .next { s with phase := .absMsg }
  | .absMsg => whenTaken s.cMsg (fun s => .next (s.finish false)) s
  | .idle => .fault .offPath
  | .absKey => .fault .offPath
  | .absNonce => .fault .offPath
  | .cryptDrip => .fault .offPath
  | .cryptXfer => .fault .offPath
  | .squeeze => .fault .offPath

/-- ABSORB (R132): one `absorb_byte` per DIN write (R90). -/
def execAbsorb (s : State) : Result :=
  transition .absorb absorbDin absorbInternal s

/-- ABSORB_STOP (R133). -/
def execAbsorbStop (s : State) : Result :=
  transition .absorbStop noByte (atExec (mixAndFinish PermState.absorbStop)) s

end Sys2Proof.Machine
end

