-- ==== Sys2Proof/Machine/Extract.lean ====
section
/-! DEFINITION. The extraction commands (spec/43_extract_protocol.md R140, R141). -/

namespace Sys2Proof.Machine

/-- DRIP (R140): the whole step is held while `DOUT_VALID = 1`. -/
def execDrip (s : State) : Result :=
  transition .drip noByte (atExec (emitAndFinish PermState.drip)) s

/-- The internal steps of SQUEEZE (R87, R95): the flush once, then one drip per output byte; no erase at the end. -/
def squeezeInternal (s : State) : Result :=
  match s.phase with
  | .exec => mixAndGo PermState.flush .squeeze s
  | .squeeze => squeezeStep false s
  | .idle => .fault .offPath
  | .absKey => .fault .offPath
  | .absNonce => .fault .offPath
  | .absMsg => .fault .offPath
  | .cryptDrip => .fault .offPath
  | .cryptXfer => .fault .offPath

/-- SQUEEZE (R141): no limit on the length. -/
def execSqueeze (s : State) : Result :=
  transition .squeeze noByte squeezeInternal s

end Sys2Proof.Machine
end

