-- ==== Sys2Proof/Machine/HighLevel.lean ====
section
/-! DEFINITION. The five high-level commands (spec/44_highlevel_ops.md R150 to R154), as the step-by-step scripts of
spec/40_sequencer.md; Scripts.lean holds their big-step functions. -/

namespace Sys2Proof.Machine

/-- The internal steps of HASH: EXEC, ABS_MSG, SQUEEZE (R100). -/
def hashInternal (s : State) : Result :=
  match s.phase with
  | .exec => startHigh .absMsg s
  | .absMsg => whenTaken s.cMsg (mixAndGo (sealLength (lowByte s.cOut)) .squeeze) s
  | .squeeze => squeezeStep true s
  | .idle => .fault .offPath
  | .absKey => .fault .offPath
  | .absNonce => .fault .offPath
  | .cryptDrip => .fault .offPath
  | .cryptXfer => .fault .offPath

/-- HASH (R150): rejected for length when `OUTLEN > 255` (R84). -/
def execHash (s : State) : Result :=
  transition .hash absorbDin hashInternal s

/-- The internal steps of STREAM: EXEC, ABS_KEY, SQUEEZE (R100). -/
def streamInternal (s : State) : Result :=
  match s.phase with
  | .exec => startHigh .absKey s
  | .absKey => whenTaken s.cKey (mixAndGo PermState.flush .squeeze) s
  | .squeeze => squeezeStep true s
  | .idle => .fault .offPath
  | .absNonce => .fault .offPath
  | .absMsg => .fault .offPath
  | .cryptDrip => .fault .offPath
  | .cryptXfer => .fault .offPath

/-- STREAM (R151): no limit on the length. -/
def execStream (s : State) : Result :=
  transition .stream absorbDin streamInternal s

/-- ENCRYPT (R152): each message byte plus the keystream byte, modulo 256. -/
def execEncrypt (s : State) : Result :=
  transition .encrypt (cryptDin fun m z => m + z) cryptInternal s

/-- DECRYPT (R153): each ciphertext byte minus the keystream byte, modulo 256. -/
def execDecrypt (s : State) : Result :=
  transition .decrypt (cryptDin fun m z => m - z) cryptInternal s

/-- The internal steps of AUTH: EXEC, ABS_KEY, ABS_MSG, SQUEEZE (R100). -/
def authInternal (s : State) : Result :=
  match s.phase with
  | .exec => startHigh .absKey s
  | .absKey => whenTaken s.cKey (mixAndGo PermState.absorbStop .absMsg) s
  | .absMsg => whenTaken s.cMsg (mixAndGo (sealLength (lowByte s.cOut)) .squeeze) s
  | .squeeze => squeezeStep true s
  | .idle => .fault .offPath
  | .absNonce => .fault .offPath
  | .cryptDrip => .fault .offPath
  | .cryptXfer => .fault .offPath

/-- AUTH (R154): rejected for length when `OUTLEN > 255` (R84). -/
def execAuth (s : State) : Result :=
  transition .auth absorbDin authInternal s

end Sys2Proof.Machine
end

