-- ==== Sys2Proof/Machine/Primitives.lean ====
section
/-! DEFINITION. The primitive commands (spec/41_primitive_ops.md R110 to R115) and ERASE (spec/45_secure_erase.md
R171). Each meaning is a transition of its command: the CMD write that presents it, or its EXEC step (R86). -/

namespace Sys2Proof.Machine

/-- INIT (R110): `initialize; LIVE <- 1; finish(false)`. -/
def execInit (s : State) : Result :=
  transition .init noByte
    (atExec fun s => .next (State.finish false { s with ps := PermState.initial, live := true })) s

/-- UPDATE (R111). -/
def execUpdate (s : State) : Result :=
  transition .update noByte (atExec (mixAndFinish PermState.update)) s

/-- OUTPUT (R112): the step is held while `DOUT_VALID = 1`. -/
def execOutput (s : State) : Result :=
  transition .output noByte (atExec (emitAndFinish PermState.output)) s

/-- CRUSH (R113). -/
def execCrush (s : State) : Result :=
  transition .crush noByte (atExec (mixAndFinish PermState.crush)) s

/-- WHIP (R114). -/
def execWhip (s : State) : Result :=
  transition .whip noByte (atExec (mixAndFinish PermState.whip)) s

/-- SHUFFLE (R115). -/
def execShuffle (s : State) : Result :=
  transition .shuffle noByte (atExec (mixAndFinish PermState.shuffle)) s

/-- ERASE (R171): `finish(true)`, whatever `LIVE` is. -/
def execErase (s : State) : Result :=
  transition .erase noByte (atExec fun s => .next (s.finish true)) s

end Sys2Proof.Machine
end

