-- ==== Sys2Proof/Machine/Dispatch.lean ====
section
/-! DEFINITION. Which meaning a command has: one arm per constructor of `Instr`. -/

namespace Sys2Proof.Machine

def exec (i : Instr) (s : State) : Host.Outcome State Fault Refusal :=
  match i with
  | .init => Sys2Proof.Machine.execInit s
  | .update => Sys2Proof.Machine.execUpdate s
  | .output => Sys2Proof.Machine.execOutput s
  | .crush => Sys2Proof.Machine.execCrush s
  | .whip => Sys2Proof.Machine.execWhip s
  | .shuffle => Sys2Proof.Machine.execShuffle s
  | .absorbNibble imm8 => Sys2Proof.Machine.execAbsorbNibble imm8 s
  | .absorbByte b => Sys2Proof.Machine.execAbsorbByte b s
  | .absorb => Sys2Proof.Machine.execAbsorb s
  | .absorbStop => Sys2Proof.Machine.execAbsorbStop s
  | .drip => Sys2Proof.Machine.execDrip s
  | .squeeze => Sys2Proof.Machine.execSqueeze s
  | .hash => Sys2Proof.Machine.execHash s
  | .stream => Sys2Proof.Machine.execStream s
  | .encrypt => Sys2Proof.Machine.execEncrypt s
  | .decrypt => Sys2Proof.Machine.execDecrypt s
  | .auth => Sys2Proof.Machine.execAuth s
  | .erase => Sys2Proof.Machine.execErase s

end Sys2Proof.Machine
end

