-- ==== Sys2Proof/Machine/HostPort.lean ====
section
/-! DEFINITION. The register window and the sequencer's turns (spec/20_memory.md R41 to R50, spec/40_sequencer.md R80,
R81, R98): what each event of the agenda does. Step.lean only takes the next event and calls this. -/

namespace Sys2Proof.Machine

/-- The command in progress takes a transition that serves `p`. With `BUSY = 0` there is none: the engine waits (R97,
row IDLE) and `DIN_REQ` is 0, so a DIN write is ignored (R45). -/
def runCurrent (p : Port) (s : State) : Result :=
  if s.busy then
    match decode (commandWord s.op s.imm) with
    | .ok i => exec i { s with port := p }
    | .error _ => .fault .offPath
  else .next s.release

/-- A CMD write of `w` (R80, R81): a legal word presents its command; any other is ignored while `BUSY = 1` and
rejected with ILLEGAL otherwise (R67). -/
def writeCmd (w : Word) (s : State) : Result :=
  match decode w with
  | .ok i => exec i { s with port := .cmd }
  | .error _ => .next (if s.busy then s.release else s.release.reject .illegal)

/-- A host write of `v` to a register (R41): a length register stores it, at any time (R23); STATUS, DOUT and an
offset above 0x1C ignore it (R30, R31, R42). -/
def writeReg (r : Option HostReg) (v : Word) (s : State) : Result :=
  match r with
  | some .cmd => writeCmd v s
  | some .din => runCurrent (.din (lowByte v)) s
  | some .keyLen => .next { s with keyLen := v }
  | some .nonceLen => .next { s with nonceLen := v }
  | some .msgLen => .next { s with msgLen := v }
  | some .outLen => .next { s with outLen := v }
  | some .status => .next s
  | some .dout => .next s
  | none => .next s

/-- What a host read of a register returns (R30, R31, R41, R42, R46). `DOUT_BYTE` is 0 whenever `DOUT_VALID` is (R26),
and an empty DOUT reads 0 (R46). -/
def readValue (r : Option HostReg) (s : State) : Word :=
  match r with
  | some .cmd => 0#32
  | some .status => statusWord s
  | some .keyLen => s.keyLen
  | some .nonceLen => s.nonceLen
  | some .msgLen => s.msgLen
  | some .outLen => s.outLen
  | some .din => 0#32
  | some .dout => if s.doutValid then zext32 s.doutByte else 0#32
  | none => 0#32

/-- The one side effect of a read (R46, R49): a read of a full DOUT empties it. -/
def readEffect (r : Option HostReg) (s : State) : State :=
  match r with
  | some .dout => if s.doutValid then { s with doutByte := 0#8, doutValid := false } else s
  | some .cmd => s
  | some .status => s
  | some .keyLen => s
  | some .nonceLen => s
  | some .msgLen => s
  | some .outLen => s
  | some .din => s
  | none => s

/-- A host read at `offset`: the value is noted, then the side effect happens. -/
def readReg (offset : Nat) (s : State) : State :=
  { readEffect (hostReg offset) s with reads := (offset, readValue (hostReg offset) s) :: s.reads }

/-- What an event does to a state whose agenda it has already left (R50). An access that is not a whole aligned
register is outside the interface (R42). -/
def takeEvent (e : Event) (s : State) : Result :=
  match e with
  | .engine => runCurrent .none s
  | .write offset size value =>
    if accessOk offset size then writeReg (hostReg offset) value s else .refused .accessShape
  | .read offset size => if accessOk offset size then .next (readReg offset s) else .refused .accessShape
  | .reset => .next s.applyReset

/-- The next transition of the machine: the first event of the agenda, and when there is none the engine's own turn
(R98; DESIGN CHOICE, log entries 1 and 4). -/
def nextTransition (s : State) : Result :=
  match s.agenda with
  | [] => takeEvent .engine s
  | e :: rest => takeEvent e { s with agenda := rest }

/-- A CMD write of the word whose low `nbits` bits are `w`, put first on the agenda. -/
def presentWord (s : State) (nbits w : Nat) : State :=
  { s with agenda := .write 0x00 4 (BitVec.ofNat 32 (w % 2 ^ nbits)) :: s.agenda }

end Sys2Proof.Machine
end

