-- ==== Sys2Proof/Machine/Step.lean ====
section
/-! DEFINITION. One step of the machine: one transition of the total order of spec/20_memory.md R50. -/

namespace Sys2Proof.Machine

/-- One step: the next event of the agenda, or the engine's own turn when the agenda is empty. -/
def step (s : State) : Host.Outcome State Fault Refusal := nextTransition s

/-- `s` with the command word `w` (its bits above `nbits` zero) presented next. The engine fetches nothing
(10_state.md R17): a command reaches it by a CMD write, so the write is put first on the agenda. -/
def State.withFetchWord (s : State) (nbits w : Nat) : State := presentWord s nbits w

end Sys2Proof.Machine
end

