-- ==== Sys2Proof/Machine/Scripts.lean ====
section
/-! DEFINITION. The big-step functions of the protocol and high-level operations: `absorb` and `squeeze`
(spec/42_absorb_protocol.md R132, spec/43_extract_protocol.md R141) and the five scripts of spec/44_highlevel_ops.md
(R150 to R154). The machine does not call them; statements compare what it delivers with them (40_sequencer.md R99). -/

namespace Sys2Proof.Machine

/-- `absorb(data)` (R132): `absorb_byte` of each byte, first to last. -/
def PermState.absorb (data : List Byte) (p : PermState) : PermState :=
  data.foldl (fun q b => q.absorbByte b) p

/-- The bytes `n` drips return, in order. -/
def dripBytes : Nat → PermState → List Byte
  | 0, _ => []
  | n + 1, p => p.drip.Z :: dripBytes n p.drip

/-- The permutation state after `n` drips. -/
def drips : Nat → PermState → PermState
  | 0, p => p
  | n + 1, p => drips n p.drip

/-- The bytes `squeeze(n)` returns (R141): the flush once, up front, then `n` drips. -/
def squeezeBytes (n : Nat) (p : PermState) : List Byte := dripBytes n p.flush

/-- Each byte of `data` combined with a drip of its own, in order (R152, R153). -/
def combineBytes (combine : Byte → Byte → Byte) : List Byte → PermState → List Byte
  | [], _ => []
  | b :: rest, p => combine b p.drip.Z :: combineBytes combine rest p.drip

/-- The permutation state after `initialize; absorb(key); absorb_stop; absorb(nonce)` (R152, R153). -/
def cryptSetup (key nonce : List Byte) : PermState :=
  ((PermState.initial.absorb key).absorbStop).absorb nonce

/-- `hash(msg, outlen)` (R150); none where it is rejected for length. -/
def hashScript (msg : List Byte) (outlen : Word) : Option (List Byte) :=
  if Config.outLenMax < outlen then none
  else some (squeezeBytes outlen.toNat
    (((PermState.initial.absorb msg).absorbStop).absorbByte (lowByte outlen)))

/-- `stream(key, outlen)` (R151). -/
def streamScript (key : List Byte) (outlen : Word) : List Byte :=
  squeezeBytes outlen.toNat (PermState.initial.absorb key)

/-- `encrypt(msg, nonce, key)` (R152). -/
def encryptScript (msg nonce key : List Byte) : List Byte :=
  combineBytes (fun m z => m + z) msg (cryptSetup key nonce)

/-- `decrypt(c, nonce, key)` (R153). -/
def decryptScript (c nonce key : List Byte) : List Byte :=
  combineBytes (fun m z => m - z) c (cryptSetup key nonce)

/-- `auth(msg, key, outlen)` (R154); none where it is rejected for length. -/
def authScript (msg key : List Byte) (outlen : Word) : Option (List Byte) :=
  if Config.outLenMax < outlen then none
  else some (squeezeBytes outlen.toNat
    (((((PermState.initial.absorb key).absorbStop).absorb msg).absorbStop).absorbByte (lowByte outlen)))

end Sys2Proof.Machine
end

