-- ==== Sys2Proof/Safety.lean ====
section
/-! DEFINITION. The terms claims are stated in: the invariants of a live state (spec/10_state.md R14), the invariant of
the whole machine, a host that meets its duties (spec/40_sequencer.md R99), a complete run of one command (R96), and
what of a state is public (R21, R100). The step function uses none of them. -/

namespace Sys2Proof.Machine

/-- R14 (a), R10: the table holds each value 0..255 exactly once. -/
def IsPermutation (t : Table) : Prop := ∀ v : Byte, ∃! n : Byte, tableRead t n = v

/-- R14: what holds of the permutation state while `LIVE = 1`. -/
structure PermState.LiveInv (p : PermState) : Prop where
  /-- R14 (a). -/
  permutation : IsPermutation p.S
  /-- R14 (b): `W` is odd. -/
  odd : p.W.toNat % 2 = 1
  /-- R14 (c): `0 <= A <= 128`. -/
  bound : p.A.toNat ≤ 128

/-- The commands of layer 6 (R62): HASH to AUTH. -/
def highLevel : Instr → Bool
  | .hash => true
  | .stream => true
  | .encrypt => true
  | .decrypt => true
  | .auth => true
  | .init => false
  | .update => false
  | .output => false
  | .crush => false
  | .whip => false
  | .shuffle => false
  | .absorbNibble _ => false
  | .absorbByte _ => false
  | .absorb => false
  | .absorbStop => false
  | .drip => false
  | .squeeze => false
  | .erase => false

/-- The phases a command in progress visits (R100). -/
def pathOf : Instr → List Phase
  | .absorb => [.exec, .absMsg]
  | .squeeze => [.exec, .squeeze]
  | .hash => [.exec, .absMsg, .squeeze]
  | .stream => [.exec, .absKey, .squeeze]
  | .encrypt => [.exec, .absKey, .absNonce, .cryptDrip, .cryptXfer]
  | .decrypt => [.exec, .absKey, .absNonce, .cryptDrip, .cryptXfer]
  | .auth => [.exec, .absKey, .absMsg, .squeeze]
  | .init => [.exec]
  | .update => [.exec]
  | .output => [.exec]
  | .crush => [.exec]
  | .whip => [.exec]
  | .shuffle => [.exec]
  | .absorbNibble _ => [.exec]
  | .absorbByte _ => [.exec]
  | .absorbStop => [.exec]
  | .drip => [.exec]
  | .erase => [.exec]

/-- The command in progress, from `OP` and `IMM` (R20). -/
def State.Running (i : Instr) (s : State) : Prop :=
  s.busy = true ∧ decode (commandWord s.op s.imm) = .ok i

/-- What holds of the machine between two transitions. -/
structure State.Inv (s : State) : Prop where
  /-- R14, while the state is live. -/
  live : s.live = true → s.ps.LiveInv
  /-- R19, R170: a state that is not live is erased. -/
  erased : s.live = false → s.ps = PermState.erased
  /-- R33: no input byte is kept across steps. -/
  port : s.port = .none
  /-- R26: `DOUT_BYTE = 0` whenever `DOUT_VALID = 0`. -/
  dout : s.doutValid = false → s.doutByte = 0#8
  /-- R21, R20, R96: with `BUSY = 0` the sequencer position is all zero. -/
  idle : s.busy = false → s.phase = .idle ∧ s.op = 0#8 ∧ s.imm = 0#8 ∧
    s.cKey = 0#32 ∧ s.cNonce = 0#32 ∧ s.cMsg = 0#32 ∧ s.cOut = 0#32
  /-- R20, R83, R84, R87, R100: with `BUSY = 1` a command is in progress, at a phase of its path, live where it needs
  to be; a HASH or AUTH in progress has a length of at most 255. -/
  running : s.busy = true → ∃ i, State.Running i s ∧ s.phase ∈ pathOf i ∧
    (s.phase = .exec → needsLive i = true → s.live = true) ∧ (s.phase ≠ .exec → s.live = true) ∧
    (checksOutLen i = true → s.cOut.toNat ≤ 255)
  /-- R25: in CRYPT_XFER `C_MSG > 0` always holds. -/
  xfer : s.phase = .cryptXfer → s.cMsg ≠ 0#32
  /-- R95: `A = 0` throughout the squeeze phase. -/
  squeeze : s.phase = .squeeze → s.ps.A = 0#8

/-- The state in which a command that does not erase leaves the machine when its permutation state has become `q`:
`finish(false)` of R96, written out. -/
def State.completed (q : PermState) (s : State) : State :=
  { s with ps := q, busy := false, phase := .idle, op := 0#8, imm := 0#8,
           cKey := 0#32, cNonce := 0#32, cMsg := 0#32, cOut := 0#32 }

/-- The state in which a command that erases leaves the machine: `finish(true)` of R96, written out. -/
def State.completedErased (s : State) : State :=
  { s with ps := PermState.erased, live := false, busy := false, phase := .idle, op := 0#8, imm := 0#8,
           cKey := 0#32, cNonce := 0#32, cMsg := 0#32, cOut := 0#32 }

/-- The engine's turn at `s` changes nothing: it holds or waits (R97). -/
def State.Held (s : State) : Prop := takeEvent .engine s = .next s

/-- The host's duties at one event (R99; R210, R213, R214): CMD written only when `BUSY = 0`, DIN only when
`DIN_REQ = 1`, DOUT read only when `DOUT_VALID = 1`, every access a whole aligned register (R42), no reset. -/
def cooperative (e : Event) (s : State) : Bool :=
  match e with
  | .engine => true
  | .reset => false
  | .write offset size _ =>
    accessOk offset size &&
      match hostReg offset with
      | some .cmd => !s.busy
      | some .din => dinReq s
      | _ => true
  | .read offset size =>
    accessOk offset size &&
      match hostReg offset with
      | some .dout => s.doutValid
      | _ => true

/-- The host meets its duties in the next `n` steps. -/
def dutiful : Nat → State → Bool
  | 0, _ => true
  | n + 1, s =>
    (match s.agenda with
     | [] => true
     | e :: _ => cooperative e s) &&
    (match step s with
     | .next t => dutiful n t
     | .fault _ => true
     | .refused _ => true)

/-- The event presents no command. -/
def noCommand (e : Event) : Bool :=
  match e with
  | .write offset _ _ => offset != 0x00
  | .engine => true
  | .read _ _ => true
  | .reset => true

/-- The bytes the events write to DIN (R41: offset 0x18; R45: bits 7:0), in order. -/
def dinBytes : List Event → List Byte
  | [] => []
  | .write offset _ value :: es => if offset = 0x18 then lowByte value :: dinBytes es else dinBytes es
  | .engine :: es => dinBytes es
  | .read _ _ :: es => dinBytes es
  | .reset :: es => dinBytes es

/-- The bytes DOUT reads have returned (R41: offset 0x1C), the first read first. -/
def doutBytes (reads : List (Nat × Word)) : List Byte :=
  (reads.reverse.filter fun r => r.1 == 0x1C).map fun r => lowByte r.2

/-- A complete run of one command by a host that meets its duties, in any interleaving of the host's accesses with the
engine's steps (R50, R96, R99): from an idle state with DOUT empty the host writes `w` to CMD, the events `es` follow,
none of which presents another command, and in the end `BUSY = 0` and `DOUT_VALID = 0`. -/
structure CompleteRun (w : Word) (es : List Event) (s t : State) : Prop where
  inv : s.Inv
  idle : s.busy = false
  empty : s.doutValid = false
  agenda : s.agenda = .write 0x00 4 w :: es
  oneCommand : es.all noCommand = true
  duties : dutiful (es.length + 1) s = true
  runs : Sys2Proof.core.run (es.length + 1) s = .next t
  complete : t.busy = false
  drained : t.doutValid = false

/-- `CompleteRun` for the case it leaves out: DOUT still holds a byte of an earlier command, which the host reads at
some point of the run (R47: no command touches it). -/
structure FollowingRun (w : Word) (es : List Event) (s t : State) : Prop where
  inv : s.Inv
  idle : s.busy = false
  full : s.doutValid = true
  agenda : s.agenda = .write 0x00 4 w :: es
  oneCommand : es.all noCommand = true
  duties : dutiful (es.length + 1) s = true
  runs : Sys2Proof.core.run (es.length + 1) s = .next t
  complete : t.busy = false
  drained : t.doutValid = false

/-- What the host put in and got out in such a run. -/
def Delivered (out : List Byte) (s t : State) : Prop := doutBytes t.reads = doutBytes s.reads ++ out

/-- What is public of an event: not the byte a DIN write carries. -/
def Event.public : Event → Event
  | .write offset size value => if offset = 0x18 then .write offset size 0#32 else .write offset size value
  | .engine => .engine
  | .read offset size => .read offset size
  | .reset => .reset

/-- What is public of a state (R21, R100): everything but the table, the registers other than `A`, the byte in DOUT, and
the bytes that pass through DIN and DOUT. -/
def State.public (s : State) : State :=
  { s with
    ps := { PermState.erased with A := s.ps.A }
    doutByte := 0#8
    port := match s.port with
      | .none => .none
      | .cmd => .cmd
      | .din _ => .din 0#8
    agenda := s.agenda.map Event.public
    reads := s.reads.map fun r => if r.1 = 0x1C then (r.1, 0#32) else r }

/-- What is public of the answer of a step. -/
def publicOutcome : Result → Result
  | .next s => .next s.public
  | .fault r => .fault r
  | .refused r => .refused r

end Sys2Proof.Machine
end

