-- ==== Sys2Proof/Certificates/Slice0/Obligations.lean ====
section
/-! DEFINITION. The statements for the provers. Each formalises the rule of spec/ its docstring names. A statement over
every state says, where it matters, that no access is being served (`s.port = .none`), as in every state between two
transitions; `State.completed` and `State.completedErased` (Safety.lean) are R96's `finish(false)` and `finish(true)`
written out, so an equation with them states the whole frame. -/

open Sys2Proof Sys2Proof.Machine

/-! ### Command words -/

/-- R60 to R62: no bit of an encoding is dropped: the command word of every well-formed command, with every operand at
every value, decodes to that command. -/
def Obligations.EncodedCommandDecodesToItself : Prop :=
  ∀ i : Instr, i.wf = true → decode (encode i) = .ok i

/-- R63: the match and mask of every command; one word selects at most one command. -/
def Obligations.MatchAndMaskSelectTheCommand : Prop :=
  ∀ (w : Word) (i : Instr), decode w = .ok i ↔
    match i with
    | .absorbByte b => w &&& 0xFFFF00FF#32 = 0x00000011#32 ∧ b = w.extractLsb' 8 8
    | .absorbNibble x => w &&& 0xFFFFF0FF#32 = 0x00000010#32 ∧ x = w.extractLsb' 8 8
    | .init => w = 0x01#32
    | .update => w = 0x02#32
    | .output => w = 0x03#32
    | .crush => w = 0x04#32
    | .whip => w = 0x05#32
    | .shuffle => w = 0x06#32
    | .absorb => w = 0x12#32
    | .absorbStop => w = 0x13#32
    | .drip => w = 0x18#32
    | .squeeze => w = 0x19#32
    | .hash => w = 0x20#32
    | .stream => w = 0x21#32
    | .encrypt => w = 0x22#32
    | .decrypt => w = 0x23#32
    | .auth => w = 0x24#32
    | .erase => w = 0x3F#32

/-- R64: the decoder accepts exactly the words of which `legal(w)` holds. -/
def Obligations.DecoderAcceptsExactlyTheLegalWords : Prop :=
  ∀ w : Word, (∃ i, decode w = .ok i) ↔
    (w.extractLsb' 16 16 = 0#16 ∧
      (w.extractLsb' 0 8).toNat ∈ [0x01, 0x02, 0x03, 0x04, 0x05, 0x06, 0x10, 0x11, 0x12, 0x13, 0x18, 0x19,
        0x20, 0x21, 0x22, 0x23, 0x24, 0x3F] ∧
      (w.extractLsb' 0 8 = 0x11#8 ∨
        (w.extractLsb' 0 8 = 0x10#8 ∧ w.extractLsb' 12 4 = 0#4) ∨
        (w.extractLsb' 0 8 ≠ 0x10#8 ∧ w.extractLsb' 0 8 ≠ 0x11#8 ∧ w.extractLsb' 8 8 = 0#8)))

/-- Words written out from R60 to R62 and the worked words of spec/95_test_vectors.md sections 3.1, 3.2 and 3.5. -/
def Obligations.WordsWrittenOutDecodeToTheirCommands : Prop :=
  decode 0x00000001#32 = .ok .init ∧ decode 0x00000003#32 = .ok .output ∧
    decode 0x00000510#32 = .ok (.absorbNibble 5#8) ∧ decode 0x00004111#32 = .ok (.absorbByte 0x41#8) ∧
    decode 0x00000019#32 = .ok .squeeze ∧ decode 0x00000023#32 = .ok .decrypt ∧ decode 0x0000003F#32 = .ok .erase ∧
    decode 0x00000000#32 = .error .reservedOpcode ∧ decode 0x00000101#32 = .error .immediateNotZero ∧
    decode 0x00010001#32 = .error .zeroFieldSet ∧ decode 0x00001010#32 = .error .nibbleTooLarge ∧
    decode 0x000000FF#32 = .error .reservedOpcode ∧ decode 0x80000001#32 = .error .zeroFieldSet

/-! ### Reset -/

/-- R32: the machine right after reset, and STATUS and `DIN_REQ` there; the engine waits in IDLE. -/
def Obligations.ResetStateIsTheResetTable : Prop :=
  (∀ n : Byte, tableRead State.reset.ps.S n = 0#8) ∧
    State.reset.ps.I = 0#8 ∧ State.reset.ps.J = 0#8 ∧ State.reset.ps.K = 0#8 ∧ State.reset.ps.Z = 0#8 ∧
    State.reset.ps.A = 0#8 ∧ State.reset.ps.W = 0#8 ∧ State.reset.live = false ∧ State.reset.busy = false ∧
    State.reset.op = 0#8 ∧ State.reset.imm = 0#8 ∧ State.reset.phase = .idle ∧
    State.reset.cKey = 0#32 ∧ State.reset.cNonce = 0#32 ∧ State.reset.cMsg = 0#32 ∧ State.reset.cOut = 0#32 ∧
    State.reset.keyLen = 0#32 ∧ State.reset.nonceLen = 0#32 ∧ State.reset.msgLen = 0#32 ∧ State.reset.outLen = 0#32 ∧
    State.reset.errCode = .ok ∧ State.reset.doutByte = 0#8 ∧ State.reset.doutValid = false ∧
    dinReq State.reset = false ∧ statusWord State.reset = 0x00000000#32 ∧ State.reset.Held

/-- R200, R201: reset may arrive at any point; whole and at once it erases and takes every piece of shell state to its
reset value, the length registers and DOUT among them. The rest of the host's agenda and what it has read are the
host's. -/
def Obligations.ResetMayArriveAtAnyPoint : Prop :=
  ∀ (s : State) (rest : List Event), ∃ t : State, step { s with agenda := .reset :: rest } = .next t ∧
    (∀ n : Byte, tableRead t.ps.S n = 0#8) ∧ t.ps.I = 0#8 ∧ t.ps.J = 0#8 ∧ t.ps.K = 0#8 ∧ t.ps.Z = 0#8 ∧
    t.ps.A = 0#8 ∧ t.ps.W = 0#8 ∧ t.live = false ∧ t.busy = false ∧ t.op = 0#8 ∧ t.imm = 0#8 ∧ t.phase = .idle ∧
    t.cKey = 0#32 ∧ t.cNonce = 0#32 ∧ t.cMsg = 0#32 ∧ t.cOut = 0#32 ∧
    t.keyLen = 0#32 ∧ t.nonceLen = 0#32 ∧ t.msgLen = 0#32 ∧ t.outLen = 0#32 ∧ t.errCode = .ok ∧
    t.doutByte = 0#8 ∧ t.doutValid = false ∧ statusWord t = 0x00000000#32 ∧ t.Held ∧
    t.agenda = rest ∧ t.reads = s.reads

/-! ### The step -/

/-- R81, R90, R98: a step runs the decoded command. A CMD write of a word that decodes to `i` is `exec i` serving that
write; the engine's turn and a DIN write are `exec` of the command in progress. The rest is the model's own choice, no
rule of the spec: that a step takes its event from the list `agenda` (log entry 1), that `port` says which access `exec`
serves (log entry 3), that with nothing on the agenda the engine takes its turn (third clause; log entry 4), and that
the word `withFetchWord` presents is the one the next step runs (fifth clause; log entry 1). -/
def Obligations.StepRunsTheDecodedCommand : Prop :=
  (∀ (s : State) (w : Word) (i : Instr) (rest : List Event), decode w = .ok i →
    step { s with agenda := .write 0x00 4 w :: rest } = exec i { s with agenda := rest, port := .cmd }) ∧
  (∀ (s : State) (i : Instr) (rest : List Event), s.Running i →
    step { s with agenda := .engine :: rest } = exec i { s with agenda := rest, port := .none }) ∧
  (∀ (s : State) (i : Instr), s.Running i → s.agenda = [] → step s = exec i { s with port := .none }) ∧
  (∀ (s : State) (v : Word) (i : Instr) (rest : List Event), s.Running i →
    step { s with agenda := .write 0x18 4 v :: rest } =
      exec i { s with agenda := rest, port := .din (v.extractLsb' 0 8) }) ∧
  (∀ (s : State) (nbits w : Nat) (i : Instr), decodeTableWord nbits w = some i →
    step (s.withFetchWord nbits w) = exec i { s with port := .cmd })

/-! ### The CMD write -/

/-- R80, R81, R67, R83, R84, R85: a CMD write while `BUSY = 1` changes nothing at all; while `BUSY = 0` the checks are
made in the order ILLEGAL, NOSTATE, LEN, and the first that fires decides: ILLEGAL and NOSTATE write `ERRCODE` only, LEN
writes it and erases; otherwise the command and all four lengths are latched. -/
def Obligations.CmdWriteIsIgnoredOrCheckedInOrder : Prop :=
  ∀ (s : State) (w : Word) (rest : List Event), s.port = .none →
    let op := (w.extractLsb' 0 8).toNat
    let legal := w.extractLsb' 16 16 = 0#16 ∧
      op ∈ [0x01, 0x02, 0x03, 0x04, 0x05, 0x06, 0x10, 0x11, 0x12, 0x13, 0x18, 0x19,
        0x20, 0x21, 0x22, 0x23, 0x24, 0x3F] ∧
      (op = 0x11 ∨ (op = 0x10 ∧ w.extractLsb' 12 4 = 0#4) ∨ (op ≠ 0x10 ∧ op ≠ 0x11 ∧ w.extractLsb' 8 8 = 0#8))
    (s.busy = true → step { s with agenda := .write 0x00 4 w :: rest } = .next { s with agenda := rest }) ∧
    (s.busy = false → step { s with agenda := .write 0x00 4 w :: rest } =
      if ¬ legal then .next { s with agenda := rest, errCode := .illegal }
      else if op ∈ [0x02, 0x03, 0x04, 0x05, 0x06, 0x10, 0x11, 0x12, 0x13, 0x18, 0x19] ∧ s.live = false then
        .next { s with agenda := rest, errCode := .noState }
      else if op ∈ [0x20, 0x24] ∧ 255 < s.outLen.toNat then
        .next { s with agenda := rest, errCode := .len, ps := PermState.erased, live := false }
      else .next { s with
        agenda := rest, errCode := .ok, busy := true, op := w.extractLsb' 0 8, imm := w.extractLsb' 8 8, phase := .exec
        cKey := s.keyLen, cNonce := s.nonceLen, cMsg := s.msgLen, cOut := s.outLen })

/-! ### The other host registers -/

/-- R30, with R25's formula for `DIN_REQ`: a STATUS read returns the word assembled from the state and has no side
effect; a STATUS write is ignored. -/
def Obligations.StatusReadAssemblesTheFlags : Prop :=
  ∀ (s : State) (v : Word) (rest : List Event),
    step { s with agenda := .write 0x04 4 v :: rest } = .next { s with agenda := rest } ∧
    ∃ r : Word, step { s with agenda := .read 0x04 4 :: rest } =
        .next { s with agenda := rest, reads := (0x04, r) :: s.reads } ∧
      r.getLsbD 0 = s.busy ∧ r.getLsbD 1 = s.live ∧
      (r.getLsbD 2 = true ↔ s.busy = true ∧
        ((s.phase = .absKey ∧ s.cKey ≠ 0#32) ∨ (s.phase = .absNonce ∧ s.cNonce ≠ 0#32) ∨
          (s.phase = .absMsg ∧ s.cMsg ≠ 0#32) ∨ (s.phase = .cryptXfer ∧ s.doutValid = false))) ∧
      r.getLsbD 3 = s.doutValid ∧
      r.extractLsb' 4 2 = (match s.errCode with | .ok => 0#2 | .len => 1#2 | .illegal => 2#2 | .noState => 3#2) ∧
      r.extractLsb' 6 2 = 0#2 ∧
      r.extractLsb' 8 3 = (match s.phase with
        | .idle => 0#3 | .exec => 1#3 | .absKey => 2#3 | .absNonce => 3#3 | .absMsg => 4#3 | .cryptDrip => 5#3
        | .cryptXfer => 6#3 | .squeeze => 7#3) ∧
      r.extractLsb' 11 21 = 0#21

/-- R46: a read of a full DOUT returns the byte and empties it, a read of an empty DOUT returns 0 and changes nothing,
and no other register's read has a side effect. -/
def Obligations.DoutReadReturnsAndEmpties : Prop :=
  ∀ (s : State) (rest : List Event),
    (s.doutValid = true → step { s with agenda := .read 0x1C 4 :: rest } =
      .next { s with agenda := rest, reads := (0x1C, s.doutByte.zeroExtend 32) :: s.reads,
                     doutByte := 0#8, doutValid := false }) ∧
    (s.doutValid = false → step { s with agenda := .read 0x1C 4 :: rest } =
      .next { s with agenda := rest, reads := (0x1C, 0#32) :: s.reads }) ∧
    ∀ o : Nat, o % 4 = 0 → o ≠ 0x1C → ∃ r : Word, step { s with agenda := .read o 4 :: rest } =
      .next { s with agenda := rest, reads := (o, r) :: s.reads }

/-- R42: an access that is not a whole 32-bit register at a 4-byte-aligned offset is outside the interface, which the
model answers with a refusal (DEDUCED, log entry 7); an aligned offset above 0x1C reads 0 and ignores writes. R42 says
the latter only inside whatever window the platform maps. That it holds of EVERY aligned offset above 0x1C is the
model's own choice (DESIGN CHOICE, log entry 7: the window has no upper end in the model), unsafe outside that
window. -/
def Obligations.AccessesOutsideTheMap : Prop :=
  ∀ (s : State) (o n : Nat) (v : Word) (rest : List Event),
    ((n ≠ 4 ∨ o % 4 ≠ 0) →
      step { s with agenda := .write o n v :: rest } = .refused .accessShape ∧
      step { s with agenda := .read o n :: rest } = .refused .accessShape) ∧
    (n = 4 → o % 4 = 0 → 0x1C < o →
      step { s with agenda := .write o n v :: rest } = .next { s with agenda := rest } ∧
      step { s with agenda := .read o n :: rest } =
        .next { s with agenda := rest, reads := (o, 0#32) :: s.reads })

/-- R31, R41: CMD and DIN read as 0, a write to DOUT is ignored, and each length register stores what is written to it
and reads back, also while `BUSY = 1` (R23). -/
def Obligations.RegisterMapReadsAndWrites : Prop :=
  ∀ (s : State) (v : Word) (rest : List Event),
    step { s with agenda := .read 0x00 4 :: rest } =
      .next { s with agenda := rest, reads := (0x00, 0#32) :: s.reads } ∧
    step { s with agenda := .read 0x18 4 :: rest } =
      .next { s with agenda := rest, reads := (0x18, 0#32) :: s.reads } ∧
    step { s with agenda := .write 0x1C 4 v :: rest } = .next { s with agenda := rest } ∧
    step { s with agenda := .write 0x08 4 v :: rest } = .next { s with agenda := rest, keyLen := v } ∧
    step { s with agenda := .write 0x0C 4 v :: rest } = .next { s with agenda := rest, nonceLen := v } ∧
    step { s with agenda := .write 0x10 4 v :: rest } = .next { s with agenda := rest, msgLen := v } ∧
    step { s with agenda := .write 0x14 4 v :: rest } = .next { s with agenda := rest, outLen := v } ∧
    step { s with agenda := .read 0x08 4 :: rest } =
      .next { s with agenda := rest, reads := (0x08, s.keyLen) :: s.reads } ∧
    step { s with agenda := .read 0x0C 4 :: rest } =
      .next { s with agenda := rest, reads := (0x0C, s.nonceLen) :: s.reads } ∧
    step { s with agenda := .read 0x10 4 :: rest } =
      .next { s with agenda := rest, reads := (0x10, s.msgLen) :: s.reads } ∧
    step { s with agenda := .read 0x14 4 :: rest } =
      .next { s with agenda := rest, reads := (0x14, s.outLen) :: s.reads }

/-- R45, with the steps of R90 and R94 it names: a DIN write with `DIN_REQ = 1` is itself the step that consumes bits
7:0 of the value; with `DIN_REQ = 0` it is ignored and leaves no trace. -/
def Obligations.DinWriteIsTheStepThatConsumesTheByte : Prop :=
  ∀ (s : State) (v : Word) (rest : List Event), s.Inv →
    let b := v.extractLsb' 0 8
    (dinReq s = false → step { s with agenda := .write 0x18 4 v :: rest } = .next { s with agenda := rest }) ∧
    (dinReq s = true → step { s with agenda := .write 0x18 4 v :: rest } =
      match s.phase with
      | .absKey => .next { s with agenda := rest, ps := s.ps.absorbByte b, cKey := s.cKey - 1#32 }
      | .absNonce => .next { s with agenda := rest, ps := s.ps.absorbByte b, cNonce := s.cNonce - 1#32 }
      | .absMsg => .next { s with agenda := rest, ps := s.ps.absorbByte b, cMsg := s.cMsg - 1#32 }
      | _ => .next { s with
          agenda := rest, cMsg := s.cMsg - 1#32, phase := .cryptDrip, doutValid := true
          doutByte := if s.op = 0x22#8 then b + s.ps.Z else b - s.ps.Z })

/-! ### The primitive commands -/

/-- R110: INIT. -/
def Obligations.InitGivesTheInitialState : Prop :=
  decode 0x00000001#32 = .ok .init ∧
  (∀ s : State, s.port = .cmd → s.busy = false → ∃ t, exec .init s = .next t ∧ t.errCode = .ok ∧ t.busy = true) ∧
  ∀ s : State, s.port = .none → s.phase = .exec → ∃ q : PermState,
    exec .init s = .next (State.completed q { s with live := true }) ∧
    (∀ v : Byte, tableRead q.S v = v) ∧ q.I = 0#8 ∧ q.J = 0#8 ∧ q.K = 0#8 ∧ q.Z = 0#8 ∧ q.A = 0#8 ∧ q.W = 1#8

/-- R111: UPDATE: the five lines, each with the values the lines before it have written; `Z`, `A` and `W` are not
touched. -/
def Obligations.UpdateFollowsItsFiveLines : Prop :=
  decode 0x00000002#32 = .ok .update ∧
  (∀ s : State, s.port = .cmd → s.busy = false → s.live = false →
    exec .update s = .next { s with port := .none, errCode := .noState }) ∧
  ∀ s : State, s.port = .none → s.phase = .exec → s.live = true → ∃ q : PermState,
    exec .update s = .next (s.completed q) ∧
    q.I = s.ps.I + s.ps.W ∧
    q.J = s.ps.K + tableRead s.ps.S (s.ps.J + tableRead s.ps.S q.I) ∧
    q.K = q.I + s.ps.K + tableRead s.ps.S q.J ∧
    (∀ n : Byte, tableRead q.S n =
      if n = q.I then tableRead s.ps.S q.J else if n = q.J then tableRead s.ps.S q.I else tableRead s.ps.S n) ∧
    q.Z = s.ps.Z ∧ q.A = s.ps.A ∧ q.W = s.ps.W

/-- R112: OUTPUT: `Z <- S[J + S[I + S[Z + K]]]`, put to DOUT; nothing else of the permutation state moves, and the whole
step is held while `DOUT_VALID = 1`. -/
def Obligations.OutputReadsThroughTheTable : Prop :=
  decode 0x00000003#32 = .ok .output ∧
  (∀ s : State, s.port = .cmd → s.busy = false → s.live = false →
    exec .output s = .next { s with port := .none, errCode := .noState }) ∧
  (∀ s : State, s.port = .none → s.phase = .exec → s.doutValid = true → exec .output s = .next s) ∧
  ∀ s : State, s.port = .none → s.phase = .exec → s.live = true → s.doutValid = false →
    let z := tableRead s.ps.S (s.ps.J + tableRead s.ps.S (s.ps.I + tableRead s.ps.S (s.ps.Z + s.ps.K)))
    exec .output s = .next { s.completed { s.ps with Z := z } with doutByte := z, doutValid := true }

/-- R113: CRUSH: after it every pair `(v, 255 - v)` is in order, whatever the table held; no register is touched. -/
def Obligations.CrushOrdersEveryPair : Prop :=
  decode 0x00000004#32 = .ok .crush ∧
  (∀ s : State, s.port = .cmd → s.busy = false → s.live = false →
    exec .crush s = .next { s with port := .none, errCode := .noState }) ∧
  ∀ s : State, s.port = .none → s.phase = .exec → s.live = true → ∃ u : Table,
    exec .crush s = .next (s.completed { s.ps with S := u }) ∧
    ∀ v : Byte, v.toNat < 128 →
      (tableRead s.ps.S (255#8 - v) < tableRead s.ps.S v →
        tableRead u v = tableRead s.ps.S (255#8 - v) ∧ tableRead u (255#8 - v) = tableRead s.ps.S v) ∧
      (¬ tableRead s.ps.S (255#8 - v) < tableRead s.ps.S v →
        tableRead u v = tableRead s.ps.S v ∧ tableRead u (255#8 - v) = tableRead s.ps.S (255#8 - v))

/-- R114: WHIP: 512 updates with the old `W`, then `W + 2`; `I` returns to its starting value, `Z` and `A` are not
touched. -/
def Obligations.WhipUpdates512TimesAndStepsTheStride : Prop :=
  decode 0x00000005#32 = .ok .whip ∧
  (∀ s : State, s.port = .cmd → s.busy = false → s.live = false →
    exec .whip s = .next { s with port := .none, errCode := .noState }) ∧
  ∀ s : State, s.port = .none → s.phase = .exec → s.live = true → ∃ q : PermState,
    exec .whip s = .next (s.completed q) ∧
    q = { PermState.update^[512] s.ps with W := s.ps.W + 2#8 } ∧
    q.I = s.ps.I ∧ q.Z = s.ps.Z ∧ q.A = s.ps.A

/-- R115: SHUFFLE: whip, crush, whip, crush, whip, then `A <- 0`; `I` and `Z` unchanged, `W + 6`, and the result does
not depend on the old `A`. -/
def Obligations.ShuffleIsTheFiveStageSequence : Prop :=
  decode 0x00000006#32 = .ok .shuffle ∧
  (∀ s : State, s.port = .cmd → s.busy = false → s.live = false →
    exec .shuffle s = .next { s with port := .none, errCode := .noState }) ∧
  (∀ s : State, s.port = .none → s.phase = .exec → s.live = true → ∃ q : PermState,
    exec .shuffle s = .next (s.completed q) ∧
    q = { s.ps.whip.crush.whip.crush.whip with A := 0#8 } ∧
    q.I = s.ps.I ∧ q.Z = s.ps.Z ∧ q.W = s.ps.W + 6#8) ∧
  ∀ (p : PermState) (a : Byte), PermState.shuffle { p with A := a } = p.shuffle

/-- R171, R170: ERASE: whatever `LIVE` is, every byte of the permutation state becomes 0 and `LIVE` too; the length
registers, `ERRCODE` and DOUT are not touched; it is never rejected for want of a state or for a length. -/
def Obligations.EraseZeroesThePermutationState : Prop :=
  decode 0x0000003F#32 = .ok .erase ∧
  (∀ s : State, s.port = .cmd → s.busy = false → ∃ t, exec .erase s = .next t ∧ t.errCode = .ok ∧ t.busy = true) ∧
  ∀ s : State, s.port = .none → s.phase = .exec → ∃ q : PermState,
    exec .erase s = .next (State.completed q { s with live := false }) ∧
    (∀ n : Byte, tableRead q.S n = 0#8) ∧
    q.I = 0#8 ∧ q.J = 0#8 ∧ q.K = 0#8 ∧ q.Z = 0#8 ∧ q.A = 0#8 ∧ q.W = 0#8

/-! ### The absorption commands -/

/-- R130: ABSORB_NIBBLE, for every `imm8` with `imm8[7:4] = 0`, and its rejections; the swap uses `A` after the
possible shuffle and before the increment. -/
def Obligations.AbsorbNibbleSwapsAtTheCounter : Prop :=
  (∀ x : Nibble, decode (((x.zeroExtend 32) <<< 8) ||| 0x10#32) = .ok (.absorbNibble (x.zeroExtend 8))) ∧
  (∀ (s : State) (b : Byte), s.port = .cmd → s.busy = false → b.extractLsb' 4 4 ≠ 0#4 →
    exec (.absorbNibble b) s = .next { s with port := .none, errCode := .illegal }) ∧
  (∀ (s : State) (b : Byte), s.port = .cmd → s.busy = false → b.extractLsb' 4 4 = 0#4 → s.live = false →
    exec (.absorbNibble b) s = .next { s with port := .none, errCode := .noState }) ∧
  ∀ (s : State) (x : Nibble), s.port = .none → s.phase = .exec → s.live = true →
    let p := if s.ps.A = 128#8 then s.ps.shuffle else s.ps
    ∃ u : Table, exec (.absorbNibble (x.zeroExtend 8)) s =
        .next (s.completed { p with S := u, A := p.A + 1#8 }) ∧
      ∀ n : Byte, tableRead u n =
        if n = p.A then tableRead p.S (128#8 + x.zeroExtend 8)
        else if n = 128#8 + x.zeroExtend 8 then tableRead p.S p.A
        else tableRead p.S n

/-- R131: ABSORB_BYTE: the low nibble first, then the high nibble, each with its own test of `A`. -/
def Obligations.AbsorbByteIsLowNibbleThenHighNibble : Prop :=
  (∀ b : Byte, decode (((b.zeroExtend 32) <<< 8) ||| 0x11#32) = .ok (.absorbByte b)) ∧
  (∀ (s : State) (b : Byte), s.port = .cmd → s.busy = false → s.live = false →
    exec (.absorbByte b) s = .next { s with port := .none, errCode := .noState }) ∧
  ∀ (s : State) (b : Byte), s.port = .none → s.phase = .exec → s.live = true →
    exec (.absorbByte b) s = .next (s.completed
      (PermState.absorbNibble (b.extractLsb' 4 4) (PermState.absorbNibble (b.extractLsb' 0 4) s.ps)))

/-- R133: ABSORB_STOP: the possible shuffle, then `A + 1`; the table is not touched otherwise. -/
def Obligations.AbsorbStopOnlyCounts : Prop :=
  decode 0x00000013#32 = .ok .absorbStop ∧
  (∀ s : State, s.port = .cmd → s.busy = false → s.live = false →
    exec .absorbStop s = .next { s with port := .none, errCode := .noState }) ∧
  ∀ s : State, s.port = .none → s.phase = .exec → s.live = true →
    (s.ps.A = 128#8 → exec .absorbStop s = .next (s.completed { s.ps.shuffle with A := 1#8 })) ∧
    (s.ps.A ≠ 128#8 → exec .absorbStop s = .next (s.completed { s.ps with A := s.ps.A + 1#8 }))

/-- R87, R90, R93 for ABSORB: every step of the command: to ABS_MSG; one `absorb_byte` per DIN write; a hold while
bytes are owed; the end, without erasing, at count 0. -/
def Obligations.AbsorbStepsThroughItsPhases : Prop :=
  ∀ s : State,
    (s.port = .none → s.phase = .exec → exec .absorb s = .next { s with phase := .absMsg }) ∧
    (s.port = .none → s.phase = .absMsg → s.cMsg = 0#32 → exec .absorb s = .next (s.completed s.ps)) ∧
    (s.port = .none → s.phase = .absMsg → s.cMsg ≠ 0#32 → exec .absorb s = .next s) ∧
    (∀ b : Byte, s.port = .din b → s.busy = true → s.phase = .absMsg → s.cMsg ≠ 0#32 → s.live = true →
      exec .absorb s = .next { s with port := .none, ps := s.ps.absorbByte b, cMsg := s.cMsg - 1#32 })

/-! ### The extraction commands -/

/-- R140: DRIP: flush if `A > 0`, update, output to DOUT; `A = 0` after it; held whole while `DOUT_VALID = 1`. -/
def Obligations.DripFlushesUpdatesAndOutputs : Prop :=
  decode 0x00000018#32 = .ok .drip ∧
  (∀ s : State, s.port = .cmd → s.busy = false → s.live = false →
    exec .drip s = .next { s with port := .none, errCode := .noState }) ∧
  (∀ s : State, s.port = .none → s.phase = .exec → s.doutValid = true → exec .drip s = .next s) ∧
  ∀ s : State, s.port = .none → s.phase = .exec → s.live = true → s.doutValid = false →
    let p := if 0#8 < s.ps.A then s.ps.shuffle else s.ps
    let q := p.update.output
    exec .drip s = .next { s.completed q with doutByte := q.Z, doutValid := true } ∧ q.A = 0#8

/-- R87, R95 for SQUEEZE: every step of the command: the flush once, up front; one drip per output byte, held while
DOUT is full; the end, without erasing, at count 0. -/
def Obligations.SqueezeStepsThroughItsPhases : Prop :=
  ∀ s : State, s.port = .none →
    (s.phase = .exec → s.live = true → exec .squeeze s =
      .next { s with ps := if 0#8 < s.ps.A then s.ps.shuffle else s.ps, phase := .squeeze }) ∧
    (s.phase = .squeeze → s.cOut = 0#32 → exec .squeeze s = .next (s.completed s.ps)) ∧
    (s.phase = .squeeze → s.cOut ≠ 0#32 → s.doutValid = true → exec .squeeze s = .next s) ∧
    (s.phase = .squeeze → s.cOut ≠ 0#32 → s.doutValid = false → s.live = true → exec .squeeze s =
      .next { s with ps := s.ps.drip, cOut := s.cOut - 1#32, doutByte := s.ps.drip.Z, doutValid := true })

/-! ### The high-level commands, step by step -/

/-- R87, R90, R93, R95 for HASH: `initialize` whatever `LIVE` was; the message; `absorb_stop`, the length byte and the
flush; the output bytes; the erase. -/
def Obligations.HashStepsThroughItsPhases : Prop :=
  ∀ s : State,
    (s.port = .none → s.phase = .exec → exec .hash s =
      .next { s with ps := PermState.initial, live := true, phase := .absMsg }) ∧
    (∀ b : Byte, s.port = .din b → s.busy = true → s.phase = .absMsg → s.cMsg ≠ 0#32 → s.live = true →
      exec .hash s = .next { s with port := .none, ps := s.ps.absorbByte b, cMsg := s.cMsg - 1#32 }) ∧
    (s.port = .none → s.phase = .absMsg → s.cMsg ≠ 0#32 → exec .hash s = .next s) ∧
    (s.port = .none → s.phase = .absMsg → s.cMsg = 0#32 → s.live = true → exec .hash s =
      let p := s.ps.absorbStop.absorbByte (s.cOut.extractLsb' 0 8)
      .next { s with ps := if 0#8 < p.A then p.shuffle else p, phase := .squeeze }) ∧
    (s.port = .none → s.phase = .squeeze → s.cOut = 0#32 → exec .hash s = .next s.completedErased) ∧
    (s.port = .none → s.phase = .squeeze → s.cOut ≠ 0#32 → s.doutValid = true → exec .hash s = .next s) ∧
    (s.port = .none → s.phase = .squeeze → s.cOut ≠ 0#32 → s.doutValid = false → s.live = true → exec .hash s =
      .next { s with ps := s.ps.drip, cOut := s.cOut - 1#32, doutByte := s.ps.drip.Z, doutValid := true })

/-- R87, R90, R91, R95 for STREAM: `initialize`; the key; the flush; the output bytes; the erase. -/
def Obligations.StreamStepsThroughItsPhases : Prop :=
  ∀ s : State,
    (s.port = .none → s.phase = .exec → exec .stream s =
      .next { s with ps := PermState.initial, live := true, phase := .absKey }) ∧
    (∀ b : Byte, s.port = .din b → s.busy = true → s.phase = .absKey → s.cKey ≠ 0#32 → s.live = true →
      exec .stream s = .next { s with port := .none, ps := s.ps.absorbByte b, cKey := s.cKey - 1#32 }) ∧
    (s.port = .none → s.phase = .absKey → s.cKey ≠ 0#32 → exec .stream s = .next s) ∧
    (s.port = .none → s.phase = .absKey → s.cKey = 0#32 → s.live = true → exec .stream s =
      .next { s with ps := if 0#8 < s.ps.A then s.ps.shuffle else s.ps, phase := .squeeze }) ∧
    (s.port = .none → s.phase = .squeeze → s.cOut = 0#32 → exec .stream s = .next s.completedErased) ∧
    (s.port = .none → s.phase = .squeeze → s.cOut ≠ 0#32 → s.doutValid = true → exec .stream s = .next s) ∧
    (s.port = .none → s.phase = .squeeze → s.cOut ≠ 0#32 → s.doutValid = false → s.live = true → exec .stream s =
      .next { s with ps := s.ps.drip, cOut := s.cOut - 1#32, doutByte := s.ps.drip.Z, doutValid := true })

/-- R87, R90, R91, R92, R94 for ENCRYPT and DECRYPT, which differ in one thing: the input byte plus the keystream byte,
or minus it, modulo 256. -/
def Obligations.EncryptAndDecryptStepThroughTheirPhases : Prop :=
  ∀ (i : Instr) (s : State), i = .encrypt ∨ i = .decrypt →
    (s.port = .none → s.phase = .exec → exec i s =
      .next { s with ps := PermState.initial, live := true, phase := .absKey }) ∧
    (∀ b : Byte, s.port = .din b → s.busy = true → s.phase = .absKey → s.cKey ≠ 0#32 → s.live = true →
      exec i s = .next { s with port := .none, ps := s.ps.absorbByte b, cKey := s.cKey - 1#32 }) ∧
    (s.port = .none → s.phase = .absKey → s.cKey ≠ 0#32 → exec i s = .next s) ∧
    (s.port = .none → s.phase = .absKey → s.cKey = 0#32 → s.live = true → exec i s =
      .next { s with ps := s.ps.absorbStop, phase := .absNonce }) ∧
    (∀ b : Byte, s.port = .din b → s.busy = true → s.phase = .absNonce → s.cNonce ≠ 0#32 → s.live = true →
      exec i s = .next { s with port := .none, ps := s.ps.absorbByte b, cNonce := s.cNonce - 1#32 }) ∧
    (s.port = .none → s.phase = .absNonce → s.cNonce ≠ 0#32 → exec i s = .next s) ∧
    (s.port = .none → s.phase = .absNonce → s.cNonce = 0#32 → exec i s = .next { s with phase := .cryptDrip }) ∧
    (s.port = .none → s.phase = .cryptDrip → s.cMsg = 0#32 → exec i s = .next s.completedErased) ∧
    (s.port = .none → s.phase = .cryptDrip → s.cMsg ≠ 0#32 → s.live = true → exec i s =
      .next { s with ps := s.ps.drip, phase := .cryptXfer }) ∧
    (s.port = .none → s.phase = .cryptXfer → exec i s = .next s) ∧
    (∀ m : Byte, s.port = .din m → s.busy = true → s.phase = .cryptXfer → s.doutValid = false → s.live = true →
      exec .encrypt s = .next { s with port := .none, cMsg := s.cMsg - 1#32, phase := .cryptDrip,
                                       doutByte := m + s.ps.Z, doutValid := true } ∧
      exec .decrypt s = .next { s with port := .none, cMsg := s.cMsg - 1#32, phase := .cryptDrip,
                                       doutByte := m - s.ps.Z, doutValid := true })

/-- R87, R90, R91, R93, R95 for AUTH: `initialize`; the key; `absorb_stop`; the message; `absorb_stop`, the length byte
and the flush; the output bytes; the erase. -/
def Obligations.AuthStepsThroughItsPhases : Prop :=
  ∀ s : State,
    (s.port = .none → s.phase = .exec → exec .auth s =
      .next { s with ps := PermState.initial, live := true, phase := .absKey }) ∧
    (∀ b : Byte, s.port = .din b → s.busy = true → s.phase = .absKey → s.cKey ≠ 0#32 → s.live = true →
      exec .auth s = .next { s with port := .none, ps := s.ps.absorbByte b, cKey := s.cKey - 1#32 }) ∧
    (s.port = .none → s.phase = .absKey → s.cKey ≠ 0#32 → exec .auth s = .next s) ∧
    (s.port = .none → s.phase = .absKey → s.cKey = 0#32 → s.live = true → exec .auth s =
      .next { s with ps := s.ps.absorbStop, phase := .absMsg }) ∧
    (∀ b : Byte, s.port = .din b → s.busy = true → s.phase = .absMsg → s.cMsg ≠ 0#32 → s.live = true →
      exec .auth s = .next { s with port := .none, ps := s.ps.absorbByte b, cMsg := s.cMsg - 1#32 }) ∧
    (s.port = .none → s.phase = .absMsg → s.cMsg ≠ 0#32 → exec .auth s = .next s) ∧
    (s.port = .none → s.phase = .absMsg → s.cMsg = 0#32 → s.live = true → exec .auth s =
      let p := s.ps.absorbStop.absorbByte (s.cOut.extractLsb' 0 8)
      .next { s with ps := if 0#8 < p.A then p.shuffle else p, phase := .squeeze }) ∧
    (s.port = .none → s.phase = .squeeze → s.cOut = 0#32 → exec .auth s = .next s.completedErased) ∧
    (s.port = .none → s.phase = .squeeze → s.cOut ≠ 0#32 → s.doutValid = true → exec .auth s = .next s) ∧
    (s.port = .none → s.phase = .squeeze → s.cOut ≠ 0#32 → s.doutValid = false → s.live = true → exec .auth s =
      .next { s with ps := s.ps.drip, cOut := s.cOut - 1#32, doutByte := s.ps.drip.Z, doutValid := true })

/-! ### Whole-machine rules -/

/-- The invariant (R14, R19 to R26, R95, R100) holds after reset. -/
def Obligations.InvariantHoldsAfterReset : Prop := State.reset.Inv

/-- R14 and its companions: every step from a state of which the invariant holds gives a state of which it holds: while
`LIVE = 1` the table is a permutation, `W` is odd and `A <= 128`, otherwise the state is erased; `DOUT_BYTE = 0` when
DOUT is empty; the sequencer is on the path of its command; `C_MSG > 0` in CRYPT_XFER; `A = 0` in SQUEEZE. -/
def Obligations.EveryStepKeepsTheInvariant : Prop :=
  ∀ s t : State, s.Inv → step s = .next t → t.Inv

/-- R184, R42: from a state of which the invariant holds no step faults, and only an access outside the interface is
refused. -/
def Obligations.NoStepFaultsUnderTheInvariant : Prop :=
  ∀ s : State, s.Inv →
    (∃ t, step s = .next t) ∨
    (step s = .refused .accessShape ∧ ∃ e rest, s.agenda = e :: rest ∧
      ((∃ o n v, e = .write o n v ∧ (n ≠ 4 ∨ o % 4 ≠ 0)) ∨ (∃ o n, e = .read o n ∧ (n ≠ 4 ∨ o % 4 ≠ 0))))

/-- What no command touches (R23, R96, R173): when `exec` answers a next state the length registers, the rest of the
agenda and what the host has read are as before, and an unread output byte is still there. -/
def Obligations.CommandsLeaveLengthsAndUnreadOutputAlone : Prop :=
  ∀ (i : Instr) (s t : State), exec i s = .next t →
    t.keyLen = s.keyLen ∧ t.nonceLen = s.nonceLen ∧ t.msgLen = s.msgLen ∧ t.outLen = s.outLen ∧
    t.agenda = s.agenda ∧ t.reads = s.reads ∧ t.port = .none ∧
    (s.doutValid = true → t.doutValid = true ∧ t.doutByte = s.doutByte) ∧
    (s.port ≠ .cmd → t.errCode = s.errCode)

/-- R23, R200: a length register changes only by a host write to it and by reset. -/
def Obligations.LengthRegistersChangeOnlyByWriteAndReset : Prop :=
  ∀ s t : State, step s = .next t → (∀ rest, s.agenda ≠ .reset :: rest) →
    (t.keyLen = s.keyLen ∨ ∃ v rest, s.agenda = .write 0x08 4 v :: rest ∧ t.keyLen = v) ∧
    (t.nonceLen = s.nonceLen ∨ ∃ v rest, s.agenda = .write 0x0C 4 v :: rest ∧ t.nonceLen = v) ∧
    (t.msgLen = s.msgLen ∨ ∃ v rest, s.agenda = .write 0x10 4 v :: rest ∧ t.msgLen = v) ∧
    (t.outLen = s.outLen ∨ ∃ v rest, s.agenda = .write 0x14 4 v :: rest ∧ t.outLen = v)

/-- R47: no output byte is ever overwritten or dropped: while `DOUT_VALID = 1` only a DOUT read and reset change
DOUT. -/
def Obligations.UnreadOutputByteStays : Prop :=
  ∀ s t : State, step s = .next t → s.doutValid = true →
    (∀ rest, s.agenda ≠ .reset :: rest) → (∀ rest, s.agenda ≠ .read 0x1C 4 :: rest) →
    t.doutValid = true ∧ t.doutByte = s.doutByte

/-- R19, R172: what sets and what clears `LIVE` among the transitions of a command: INIT and the first step of a
high-level command set it; ERASE, the end of a high-level command and the rejection for length clear it. -/
def Obligations.OnlyInitialiseAndEraseMoveLive : Prop :=
  ∀ (i : Instr) (s t : State), exec i s = .next t →
    (s.live = false → t.live = true →
      s.port = .none ∧ s.phase = .exec ∧ (i = .init ∨ highLevel i = true)) ∧
    (s.live = true → t.live = false →
      (s.port = .none ∧ s.phase = .exec ∧ i = .erase) ∨
      (s.port = .none ∧ s.phase ≠ .exec ∧ highLevel i = true ∧ t.busy = false) ∨
      (s.port = .cmd ∧ s.busy = false ∧ (i = .hash ∨ i = .auth) ∧ 255 < s.outLen.toNat ∧ t.errCode = .len))

/-- R155: after a high-level command has completed, or has been rejected for length, the permutation state is all zero
and `LIVE = 0`; and its first step does not depend on what the permutation state was. -/
def Obligations.HighLevelCommandsEndErasedAndStartFresh : Prop :=
  (∀ (i : Instr) (s t : State), s.Inv → s.Running i → highLevel i = true → exec i s = .next t → t.busy = false →
    t.live = false ∧ t.ps = PermState.erased) ∧
  (∀ (i : Instr) (s t : State), s.port = .cmd → exec i s = .next t → s.busy = false → t.errCode = .len →
    t.live = false ∧ t.ps = PermState.erased) ∧
  (∀ (i : Instr) (s : State) (p : PermState) (l : Bool), highLevel i = true → s.port = .none → s.phase = .exec →
    exec i { s with ps := p, live := l } = exec i s)

/-- R97: the engine's turn changes nothing exactly when it waits in IDLE or is in one of the holds of the table. -/
def Obligations.HoldsAreExactlyThoseOfTheTable : Prop :=
  ∀ s : State, s.Inv → (s.Held ↔
    s.busy = false ∨
    (s.phase = .absKey ∧ s.cKey ≠ 0#32) ∨ (s.phase = .absNonce ∧ s.cNonce ≠ 0#32) ∨
    (s.phase = .absMsg ∧ s.cMsg ≠ 0#32) ∨ s.phase = .cryptXfer ∨
    (s.phase = .squeeze ∧ s.cOut ≠ 0#32 ∧ s.doutValid = true) ∨
    (s.phase = .exec ∧ (s.op = 0x03#8 ∨ s.op = 0x18#8) ∧ s.doutValid = true))

/-- R97, R98: with nothing from the host the engine comes to rest within five of its own steps: it waits in IDLE or
holds. -/
def Obligations.EngineComesToRestWithinFiveSteps : Prop :=
  ∀ s : State, s.Inv → s.agenda = [] →
    ∃ k, k ≤ 5 ∧ ∃ t : State, Sys2Proof.core.run k s = .next t ∧ t.Held

/-- R99: a DOUT read commutes with every engine step it does not enable. -/
def Obligations.DoutReadCommutesWithEngineSteps : Prop :=
  ∀ (s : State) (rest : List Event), s.Inv → s.doutValid = true → ¬ s.Held →
    Sys2Proof.core.run 2 { s with agenda := .engine :: .read 0x1C 4 :: rest } =
      Sys2Proof.core.run 2 { s with agenda := .read 0x1C 4 :: .engine :: rest }

/-- R16: no host read returns anything of the permutation state: what it returns is the same whatever that is. -/
def Obligations.HostReadsDoNotSeeThePermutationState : Prop :=
  ∀ (s : State) (p : PermState) (o n : Nat) (rest : List Event),
    step { s with ps := p, agenda := .read o n :: rest } =
      match step { s with agenda := .read o n :: rest } with
      | .next t => .next { t with ps := p }
      | .fault r => .fault r
      | .refused r => .refused r

/-- R100, R21, with D25: what the engine does next depends on the command, the lengths and the count of bytes moved,
never on their values or on the table: two states with the same public part step to states with the same public part,
for every event and every command. -/
def Obligations.SecretsDoNotSteerTheSequencer : Prop :=
  ∀ s t : State, s.public = t.public → publicOutcome (step s) = publicOutcome (step t)

/-! ### Laws of the operations -/

/-- R116: the laws of the primitives: (a) `update`, `crush`, `whip`, `shuffle` map a permutation to a permutation;
(b) `whip` and `shuffle` map odd `W` to odd `W`; (c) `output` changes `Z` only; (d) `update` neither reads nor writes
`Z` or `A`, `crush` reads and writes `S` only; (e) none of the primitive commands reads a length register or a
counter. -/
def Obligations.LawsOfThePrimitives : Prop :=
  (∀ p : PermState, IsPermutation p.S →
    IsPermutation p.update.S ∧ IsPermutation p.crush.S ∧ IsPermutation p.whip.S ∧ IsPermutation p.shuffle.S) ∧
  (∀ p : PermState, p.W.toNat % 2 = 1 → p.whip.W.toNat % 2 = 1 ∧ p.shuffle.W.toNat % 2 = 1) ∧
  (∀ p : PermState, p.output = { p with Z := p.output.Z }) ∧
  (∀ (p : PermState) (z a : Byte), PermState.update { p with Z := z, A := a } = { p.update with Z := z, A := a }) ∧
  (∀ (p : PermState) (i j k z a w : Byte),
    PermState.crush { S := p.S, I := i, J := j, K := k, Z := z, A := a, W := w } =
      { S := p.crush.S, I := i, J := j, K := k, Z := z, A := a, W := w }) ∧
  (∀ (i : Instr) (s t : State) (a b c d e f g h : Word),
    i ∈ [Instr.update, .output, .crush, .whip, .shuffle] → s.port = .none → exec i s = .next t →
    ∃ u, exec i { s with keyLen := a, nonceLen := b, msgLen := c, outLen := d,
                         cKey := e, cNonce := f, cMsg := g, cOut := h } = .next u ∧
      u.ps = t.ps ∧ u.doutByte = t.doutByte ∧ u.doutValid = t.doutValid)

/-- R134: the laws of absorption: (a) the invariants of a live state are kept; (b) `Z` is not written; (c) when no
shuffle fires `I, J, K, W` are unchanged and exactly one pair of entries is exchanged per nibble, none by a stop; (d) the
control flow depends on `A` only: neither the count left behind nor whether a shuffle fired (it adds 6 to `W`) depends on
anything else. -/
def Obligations.LawsOfAbsorption : Prop :=
  (∀ (p : PermState) (x : Nibble) (b : Byte) (data : List Byte), p.LiveInv →
    (p.absorbNibble x).LiveInv ∧ (p.absorbByte b).LiveInv ∧ (p.absorb data).LiveInv ∧ p.absorbStop.LiveInv) ∧
  (∀ (p : PermState) (x : Nibble) (b : Byte) (data : List Byte),
    (p.absorbNibble x).Z = p.Z ∧ (p.absorbByte b).Z = p.Z ∧ (p.absorb data).Z = p.Z ∧ p.absorbStop.Z = p.Z) ∧
  (∀ (p : PermState) (x : Nibble), p.A.toNat < 128 →
    p.absorbNibble x = { p with S := tableSwap p.S p.A (128#8 + x.zeroExtend 8), A := p.A + 1#8 } ∧
    p.A ≠ 128#8 + x.zeroExtend 8) ∧
  (∀ p : PermState, p.A.toNat < 128 → p.absorbStop = { p with A := p.A + 1#8 }) ∧
  (∀ (p q : PermState) (x y : Nibble), p.A = q.A →
    (p.absorbNibble x).A = (q.absorbNibble y).A ∧ p.absorbStop.A = q.absorbStop.A ∧
    (p.absorbNibble x).W - p.W = (q.absorbNibble y).W - q.W ∧ p.absorbStop.W - p.W = q.absorbStop.W - q.W)

/-- R132: how often `absorb` shuffles: `n >= 1` bytes from `A = 0` make `ceil(2n / 128) - 1` shuffles, each of which adds
6 to `W`, and leave in `A` the nibbles absorbed since the last. -/
def Obligations.AbsorbShufflesOncePer128Nibbles : Prop :=
  ∀ (p : PermState) (data : List Byte), p.A = 0#8 → data ≠ [] →
    (p.absorb data).W = p.W + BitVec.ofNat 8 (6 * ((2 * data.length + 127) / 128 - 1)) ∧
    (p.absorb data).A.toNat = 2 * data.length - 128 * ((2 * data.length + 127) / 128 - 1)

/-- R142 (b), (c): squeezing `n` bytes and then `m` gives the same bytes as squeezing `n + m` at once, and the first `n`
bytes of STREAM with a longer length are STREAM with length `n`. -/
def Obligations.SqueezingInPartsGivesTheSameBytes : Prop :=
  (∀ (p : PermState) (n m : Nat),
    squeezeBytes (n + m) p = squeezeBytes n p ++ squeezeBytes m (drips n p.flush)) ∧
  (∀ (key : List Byte) (n m : Word), n ≤ m → (streamScript key m).take n.toNat = streamScript key n)

/-- R156: the round trip, for every key, nonce and message of any lengths. -/
def Obligations.DecryptUndoesEncrypt : Prop :=
  ∀ key nonce msg : List Byte, decryptScript (encryptScript msg nonce key) nonce key = msg

/-- R157: encrypting zero bytes gives the keystream of the same absorb sequence; with an empty nonce it equals STREAM
when the key's length is neither 0 nor a multiple of 64. -/
def Obligations.EncryptOfZerosIsTheKeystream : Prop :=
  (∀ (key nonce : List Byte) (n : Nat),
    encryptScript (List.replicate n 0#8) nonce key = dripBytes n (cryptSetup key nonce)) ∧
  (∀ (key : List Byte) (n : Word), key.length % 64 ≠ 0 →
    encryptScript (List.replicate n.toNat 0#8) [] key = streamScript key n)

/-! ### What a command delivers, in any interleaving

`CompleteRun` starts with DOUT empty; the last statement is about runs that start with an unread byte in DOUT. -/

/-- R132, R99: a complete run, from DOUT empty, of ABSORB takes exactly `MSGLEN` bytes, delivers nothing, and leaves the
state live with the data absorbed. -/
def Obligations.AbsorbRunAbsorbsTheData : Prop :=
  ∀ (es : List Event) (s t : State), CompleteRun 0x12#32 es s t → s.live = true →
    (dinBytes es).length = s.msgLen.toNat ∧ Delivered [] s t ∧ t.errCode = .ok ∧ t.live = true ∧
    t.ps = s.ps.absorb (dinBytes es)

/-- R141, R99: a complete run, from DOUT empty, of SQUEEZE delivers `squeeze(OUTLEN)`, with no limit on the length, and
leaves the state live after that many drips. -/
def Obligations.SqueezeRunDeliversTheSqueeze : Prop :=
  ∀ (es : List Event) (s t : State), CompleteRun 0x19#32 es s t → s.live = true →
    dinBytes es = [] ∧ Delivered (squeezeBytes s.outLen.toNat s.ps) s t ∧ t.errCode = .ok ∧ t.live = true ∧
    t.ps = drips s.outLen.toNat s.ps.flush

/-- R150, R99: a complete run, from DOUT empty, of HASH takes exactly `MSGLEN` bytes, delivers `hash(msg, outlen)` and
ends erased, in every interleaving of the host with the engine; with `OUTLEN > 255` it delivers nothing, reports LEN and
ends erased. -/
def Obligations.HashRunDeliversTheHash : Prop :=
  ∀ (es : List Event) (s t : State), CompleteRun 0x20#32 es s t →
    t.live = false ∧ t.ps = PermState.erased ∧
    match hashScript (dinBytes es) s.outLen with
    | some out => (dinBytes es).length = s.msgLen.toNat ∧ Delivered out s t ∧ t.errCode = .ok
    | none => dinBytes es = [] ∧ Delivered [] s t ∧ t.errCode = .len

/-- R151, R99: a complete run, from DOUT empty, of STREAM takes exactly `KEYLEN` bytes, delivers `stream(key, outlen)`
and ends erased. -/
def Obligations.StreamRunDeliversTheKeystream : Prop :=
  ∀ (es : List Event) (s t : State), CompleteRun 0x21#32 es s t →
    t.live = false ∧ t.ps = PermState.erased ∧ t.errCode = .ok ∧
    (dinBytes es).length = s.keyLen.toNat ∧ Delivered (streamScript (dinBytes es) s.outLen) s t

/-- R152, R44, R99: a complete run, from DOUT empty, of ENCRYPT takes the key, the nonce and the message, back to back
in that order, delivers `encrypt(msg, nonce, key)` and ends erased. -/
def Obligations.EncryptRunDeliversTheCiphertext : Prop :=
  ∀ (es : List Event) (s t : State), CompleteRun 0x22#32 es s t →
    t.live = false ∧ t.ps = PermState.erased ∧ t.errCode = .ok ∧
    ∃ key nonce msg : List Byte, dinBytes es = key ++ nonce ++ msg ∧ key.length = s.keyLen.toNat ∧
      nonce.length = s.nonceLen.toNat ∧ msg.length = s.msgLen.toNat ∧ Delivered (encryptScript msg nonce key) s t

/-- R153, R44, R99: a complete run, from DOUT empty, of DECRYPT takes the key, the nonce and the ciphertext, back to
back in that order, delivers `decrypt(c, nonce, key)` and ends erased. -/
def Obligations.DecryptRunDeliversThePlaintext : Prop :=
  ∀ (es : List Event) (s t : State), CompleteRun 0x23#32 es s t →
    t.live = false ∧ t.ps = PermState.erased ∧ t.errCode = .ok ∧
    ∃ key nonce c : List Byte, dinBytes es = key ++ nonce ++ c ∧ key.length = s.keyLen.toNat ∧
      nonce.length = s.nonceLen.toNat ∧ c.length = s.msgLen.toNat ∧ Delivered (decryptScript c nonce key) s t

/-- R154, R44, R99: a complete run, from DOUT empty, of AUTH takes the key and the message, back to back in that order,
delivers `auth(msg, key, outlen)` and ends erased; with `OUTLEN > 255` it delivers nothing, reports LEN and ends erased.
-/
def Obligations.AuthRunDeliversTheTag : Prop :=
  ∀ (es : List Event) (s t : State), CompleteRun 0x24#32 es s t →
    t.live = false ∧ t.ps = PermState.erased ∧
    ((255 < s.outLen.toNat ∧ dinBytes es = [] ∧ Delivered [] s t ∧ t.errCode = .len) ∨
      (t.errCode = .ok ∧ ∃ key msg : List Byte, dinBytes es = key ++ msg ∧ key.length = s.keyLen.toNat ∧
        msg.length = s.msgLen.toNat ∧ ∃ out, authScript msg key s.outLen = some out ∧ Delivered out s t))

/-- R47, R99, with R132, R141, R150 to R154: a run that starts with a byte in DOUT which the host has not read yet
delivers that byte first, and then exactly what the run of its command delivers from DOUT empty; all else is as there.
A command rejected for its length delivers that byte alone. -/
def Obligations.EarlierOutputByteIsDeliveredFirst : Prop :=
  ∀ (es : List Event) (s t : State),
    (FollowingRun 0x12#32 es s t → s.live = true →
      (dinBytes es).length = s.msgLen.toNat ∧ Delivered [s.doutByte] s t ∧ t.errCode = .ok ∧ t.live = true ∧
      t.ps = s.ps.absorb (dinBytes es)) ∧
    (FollowingRun 0x19#32 es s t → s.live = true →
      dinBytes es = [] ∧ Delivered (s.doutByte :: squeezeBytes s.outLen.toNat s.ps) s t ∧ t.errCode = .ok ∧
      t.live = true ∧ t.ps = drips s.outLen.toNat s.ps.flush) ∧
    (FollowingRun 0x20#32 es s t → t.live = false ∧ t.ps = PermState.erased ∧
      match hashScript (dinBytes es) s.outLen with
      | some out => (dinBytes es).length = s.msgLen.toNat ∧ Delivered (s.doutByte :: out) s t ∧ t.errCode = .ok
      | none => dinBytes es = [] ∧ Delivered [s.doutByte] s t ∧ t.errCode = .len) ∧
    (FollowingRun 0x21#32 es s t → t.live = false ∧ t.ps = PermState.erased ∧ t.errCode = .ok ∧
      (dinBytes es).length = s.keyLen.toNat ∧
      Delivered (s.doutByte :: streamScript (dinBytes es) s.outLen) s t) ∧
    (FollowingRun 0x22#32 es s t → t.live = false ∧ t.ps = PermState.erased ∧ t.errCode = .ok ∧
      ∃ key nonce msg : List Byte, dinBytes es = key ++ nonce ++ msg ∧ key.length = s.keyLen.toNat ∧
        nonce.length = s.nonceLen.toNat ∧ msg.length = s.msgLen.toNat ∧
        Delivered (s.doutByte :: encryptScript msg nonce key) s t) ∧
    (FollowingRun 0x23#32 es s t → t.live = false ∧ t.ps = PermState.erased ∧ t.errCode = .ok ∧
      ∃ key nonce c : List Byte, dinBytes es = key ++ nonce ++ c ∧ key.length = s.keyLen.toNat ∧
        nonce.length = s.nonceLen.toNat ∧ c.length = s.msgLen.toNat ∧
        Delivered (s.doutByte :: decryptScript c nonce key) s t) ∧
    (FollowingRun 0x24#32 es s t → t.live = false ∧ t.ps = PermState.erased ∧
      ((255 < s.outLen.toNat ∧ dinBytes es = [] ∧ Delivered [s.doutByte] s t ∧ t.errCode = .len) ∨
        (t.errCode = .ok ∧ ∃ key msg : List Byte, dinBytes es = key ++ msg ∧ key.length = s.keyLen.toNat ∧
          msg.length = s.msgLen.toNat ∧
          ∃ out, authScript msg key s.outLen = some out ∧ Delivered (s.doutByte :: out) s t)))
end

