-- ==== Sys2Proof/Laws/Decode.lean ====
section
/-! SUPPORT. The fields of a command word (spec/30_encoding.md R60): reading them back from a built word, and building a
legal word from its fields. -/

namespace Sys2Proof

@[simp] theorem opcodeField_commandWord (op imm8 : Byte) : opcodeField (commandWord op imm8) = op := by
  unfold opcodeField commandWord
  apply BitVec.eq_of_getLsbD_eq
  intro i h
  simp [h]
  omega

@[simp] theorem immField_commandWord (op imm8 : Byte) : immField (commandWord op imm8) = imm8 := by
  unfold immField commandWord
  apply BitVec.eq_of_getLsbD_eq
  intro i h
  simp [h, show 8 + i < 32 by omega]

@[simp] theorem zeroField_commandWord (op imm8 : Byte) : zeroField (commandWord op imm8) = 0#16 := by
  unfold zeroField commandWord
  apply BitVec.eq_of_getLsbD_eq
  intro i h
  simp [BitVec.getLsbD_of_ge op (16 + i) (by omega), BitVec.getLsbD_of_ge imm8 (16 + i - 8) (by omega)]

/-- A word whose field `zero` is 0 is the word built from its other two fields. -/
theorem commandWord_fields {w : Word} (h : zeroField w = 0#16) :
    commandWord (opcodeField w) (immField w) = w := by
  unfold zeroField immField opcodeField commandWord at *
  apply BitVec.eq_of_getLsbD_eq
  intro i hi
  simp only [BitVec.getLsbD_or, BitVec.getLsbD_shiftLeft, BitVec.getLsbD_setWidth, BitVec.getLsbD_extractLsb',
    BitVec.truncate_eq_setWidth, hi, decide_true, Bool.true_and]
  by_cases h8 : i < 8
  · simp [h8]
  · by_cases h16 : i < 16
    · simp [h8, show i - 8 < 8 by omega, show i - 8 < 32 by omega, show 8 + (i - 8) = i by omega]
    · have := congrArg (fun v => v.getLsbD (i - 16)) h
      simp [show i - 16 < 16 by omega, show 16 + (i - 16) = i by omega] at this
      simp [this, h8, show ¬ i - 8 < 8 by omega]

@[simp] theorem decode_commandWord (op imm8 : Byte) : decode (commandWord op imm8) = decodeFields op imm8 := by
  unfold decode
  rw [zeroField_commandWord, if_pos rfl, opcodeField_commandWord, immField_commandWord]

theorem decode_eq_ok {w : Word} {i : Instr} (h : decode w = .ok i) :
    zeroField w = 0#16 ∧ decodeFields (opcodeField w) (immField w) = .ok i := by
  unfold decode at h
  split at h
  · exact ⟨‹_›, h⟩
  · cases h

theorem decodeZ_eq_ok {imm8 : Byte} {i j : Instr} (h : decodeZ imm8 j = .ok i) : imm8 = 0#8 ∧ i = j := by
  unfold decodeZ at h
  split at h
  · injection h with h
    exact ⟨‹_›, h.symm⟩
  · cases h

theorem decodeN_eq_ok {imm8 : Byte} {i : Instr} (h : decodeN imm8 = .ok i) :
    imm8.extractLsb' 4 4 = 0#4 ∧ i = .absorbNibble imm8 := by
  unfold decodeN at h
  split at h
  · injection h with h
    exact ⟨‹_›, h.symm⟩
  · cases h

/-- What the two fields of a decoded command are (R61, R62). -/
theorem decodeFields_eq_ok {op imm8 : Byte} {i : Instr} (h : decodeFields op imm8 = .ok i) :
    op = i.opcode ∧ imm8 = i.imm8 ∧ i.wf = true := by
  unfold decodeFields at h
  by_cases e : op = 0x01#8
  · rw [if_pos e] at h
    obtain ⟨rfl, rfl⟩ := decodeZ_eq_ok h
    exact ⟨e, rfl, rfl⟩
  rw [if_neg e] at h
  clear e
  by_cases e : op = 0x02#8
  · rw [if_pos e] at h
    obtain ⟨rfl, rfl⟩ := decodeZ_eq_ok h
    exact ⟨e, rfl, rfl⟩
  rw [if_neg e] at h
  clear e
  by_cases e : op = 0x03#8
  · rw [if_pos e] at h
    obtain ⟨rfl, rfl⟩ := decodeZ_eq_ok h
    exact ⟨e, rfl, rfl⟩
  rw [if_neg e] at h
  clear e
  by_cases e : op = 0x04#8
  · rw [if_pos e] at h
    obtain ⟨rfl, rfl⟩ := decodeZ_eq_ok h
    exact ⟨e, rfl, rfl⟩
  rw [if_neg e] at h
  clear e
  by_cases e : op = 0x05#8
  · rw [if_pos e] at h
    obtain ⟨rfl, rfl⟩ := decodeZ_eq_ok h
    exact ⟨e, rfl, rfl⟩
  rw [if_neg e] at h
  clear e
  by_cases e : op = 0x06#8
  · rw [if_pos e] at h
    obtain ⟨rfl, rfl⟩ := decodeZ_eq_ok h
    exact ⟨e, rfl, rfl⟩
  rw [if_neg e] at h
  clear e
  by_cases e : op = 0x10#8
  · rw [if_pos e] at h
    obtain ⟨hn, rfl⟩ := decodeN_eq_ok h
    exact ⟨e, rfl, by simpa [Instr.wf] using hn⟩
  rw [if_neg e] at h
  clear e
  by_cases e : op = 0x11#8
  · rw [if_pos e] at h
    injection h with h
    subst h
    exact ⟨e, rfl, rfl⟩
  rw [if_neg e] at h
  clear e
  by_cases e : op = 0x12#8
  · rw [if_pos e] at h
    obtain ⟨rfl, rfl⟩ := decodeZ_eq_ok h
    exact ⟨e, rfl, rfl⟩
  rw [if_neg e] at h
  clear e
  by_cases e : op = 0x13#8
  · rw [if_pos e] at h
    obtain ⟨rfl, rfl⟩ := decodeZ_eq_ok h
    exact ⟨e, rfl, rfl⟩
  rw [if_neg e] at h
  clear e
  by_cases e : op = 0x18#8
  · rw [if_pos e] at h
    obtain ⟨rfl, rfl⟩ := decodeZ_eq_ok h
    exact ⟨e, rfl, rfl⟩
  rw [if_neg e] at h
  clear e
  by_cases e : op = 0x19#8
  · rw [if_pos e] at h
    obtain ⟨rfl, rfl⟩ := decodeZ_eq_ok h
    exact ⟨e, rfl, rfl⟩
  rw [if_neg e] at h
  clear e
  by_cases e : op = 0x20#8
  · rw [if_pos e] at h
    obtain ⟨rfl, rfl⟩ := decodeZ_eq_ok h
    exact ⟨e, rfl, rfl⟩
  rw [if_neg e] at h
  clear e
  by_cases e : op = 0x21#8
  · rw [if_pos e] at h
    obtain ⟨rfl, rfl⟩ := decodeZ_eq_ok h
    exact ⟨e, rfl, rfl⟩
  rw [if_neg e] at h
  clear e
  by_cases e : op = 0x22#8
  · rw [if_pos e] at h
    obtain ⟨rfl, rfl⟩ := decodeZ_eq_ok h
    exact ⟨e, rfl, rfl⟩
  rw [if_neg e] at h
  clear e
  by_cases e : op = 0x23#8
  · rw [if_pos e] at h
    obtain ⟨rfl, rfl⟩ := decodeZ_eq_ok h
    exact ⟨e, rfl, rfl⟩
  rw [if_neg e] at h
  clear e
  by_cases e : op = 0x24#8
  · rw [if_pos e] at h
    obtain ⟨rfl, rfl⟩ := decodeZ_eq_ok h
    exact ⟨e, rfl, rfl⟩
  rw [if_neg e] at h
  clear e
  by_cases e : op = 0x3F#8
  · rw [if_pos e] at h
    obtain ⟨rfl, rfl⟩ := decodeZ_eq_ok h
    exact ⟨e, rfl, rfl⟩
  rw [if_neg e] at h
  clear e
  cases h

/-- A word that decodes to a command is that command's word, and the command is well formed. -/
theorem eq_encode_of_decode {w : Word} {i : Instr} (h : decode w = .ok i) : i.wf = true ∧ w = encode i := by
  obtain ⟨hz, h⟩ := decode_eq_ok h
  obtain ⟨h1, h2, h3⟩ := decodeFields_eq_ok h
  refine ⟨h3, ?_⟩
  rw [← commandWord_fields hz, h1, h2]
  rfl

/-- Every well-formed command is what its two fields decode to (R61, R62). -/
theorem decodeFields_of_wf (i : Instr) (h : i.wf = true) : decodeFields i.opcode i.imm8 = .ok i := by
  cases i with
  | absorbNibble b =>
    show decodeN b = _
    unfold decodeN
    rw [if_pos (by simpa [Instr.wf] using h)]
  | _ => rfl

end Sys2Proof
end

