-- ==== Sys2Proof/Laws/Table.lean ====
section
/-! SUPPORT. The table: what a read gives after a swap, in the initial table and in the erased one, when two tables are
equal, and that a swap keeps the permutation invariant. -/

namespace Sys2Proof.Machine

@[simp] theorem tableRead_tableSwap (t : Table) (a b n : Byte) :
    tableRead (tableSwap t a b) n = tableRead t (if n = a then b else if n = b then a else n) := by
  unfold tableRead tableSwap
  rw [Vector.getElem_swap]
  simp only [BitVec.toNat_inj]
  split
  · rfl
  · split <;> rfl

@[simp] theorem tableRead_erased (n : Byte) : tableRead PermState.erased.S n = 0#8 := by
  simp [tableRead, PermState.erased]

@[simp] theorem tableRead_initial (n : Byte) : tableRead PermState.initial.S n = n := by
  show tableRead identityTable n = n
  unfold identityTable
  simp [tableRead]

theorem table_ext {t u : Table} (h : ∀ n, tableRead t n = tableRead u n) : t = u := by
  apply Vector.ext
  intro i hi
  have := h (BitVec.ofNat 8 i)
  simpa [tableRead, Nat.mod_eq_of_lt hi] using this

/-- A swap is the table read through a transposition of the indices. -/
theorem tableRead_tableSwap_eq_comp (t : Table) (a b : Byte) :
    tableRead (tableSwap t a b) = tableRead t ∘ Equiv.swap a b := by
  funext n
  simp [Equiv.swap_apply_def]

theorem isPermutation_iff_bijective (t : Table) : IsPermutation t ↔ Function.Bijective (tableRead t) :=
  (Function.bijective_iff_existsUnique _).symm

theorem IsPermutation.tableSwap {t : Table} (h : IsPermutation t) (a b : Byte) :
    IsPermutation (tableSwap t a b) := by
  rw [isPermutation_iff_bijective] at *
  rw [tableRead_tableSwap_eq_comp]
  exact h.comp (Equiv.bijective _)

theorem isPermutation_initial : IsPermutation PermState.initial.S := by
  intro v
  exact ⟨v, by simp, fun y h => by simpa using h⟩

end Sys2Proof.Machine
end

