-- ==== Sys2Proof/Laws/Mixer.lean ====
section
/-! SUPPORT. What each operation of the permutation state does to each of its parts, and that every one of them keeps
the invariants of a live state (spec/10_state.md R14, spec/41_primitive_ops.md R116, spec/42_absorb_protocol.md R134).

A proof that meets a shuffled state rewrites with these lemmas or generalizes the term; it never asks for a
definitional comparison (`rfl`, `decide`, `exact` up to unfolding) of `p.shuffle` or `p.whip` with another state, which
would unfold 1536 updates. -/

namespace Sys2Proof.Machine

namespace PermState

variable (p : PermState)

@[simp] theorem update_I : p.update.I = p.I + p.W := by cases p; rfl
@[simp] theorem update_Z : p.update.Z = p.Z := by cases p; rfl
@[simp] theorem update_A : p.update.A = p.A := by cases p; rfl
@[simp] theorem update_W : p.update.W = p.W := by cases p; rfl
@[simp] theorem output_S : p.output.S = p.S := by cases p; rfl
@[simp] theorem output_I : p.output.I = p.I := by cases p; rfl
@[simp] theorem output_J : p.output.J = p.J := by cases p; rfl
@[simp] theorem output_K : p.output.K = p.K := by cases p; rfl
@[simp] theorem output_A : p.output.A = p.A := by cases p; rfl
@[simp] theorem output_W : p.output.W = p.W := by cases p; rfl

theorem crush_eq : p.crush = { p with S := crushPairs Config.crushPairs p.S } := by rw [crush]

@[simp] theorem crush_S : p.crush.S = crushPairs Config.crushPairs p.S := by rw [crush_eq]
@[simp] theorem crush_I : p.crush.I = p.I := by rw [crush_eq]
@[simp] theorem crush_J : p.crush.J = p.J := by rw [crush_eq]
@[simp] theorem crush_K : p.crush.K = p.K := by rw [crush_eq]
@[simp] theorem crush_Z : p.crush.Z = p.Z := by rw [crush_eq]
@[simp] theorem crush_A : p.crush.A = p.A := by rw [crush_eq]
@[simp] theorem crush_W : p.crush.W = p.W := by rw [crush_eq]

end PermState

@[simp] theorem updates_zero (p : PermState) : updates 0 p = p := by rw [updates]

@[simp] theorem updates_succ (n : Nat) (p : PermState) : updates (n + 1) p = (updates n p).update := by rw [updates]

theorem updates_Z (n : Nat) (p : PermState) : (updates n p).Z = p.Z := by
  induction n with
  | zero => rw [updates_zero]
  | succ n ih => rw [updates_succ, PermState.update_Z, ih]

theorem updates_A (n : Nat) (p : PermState) : (updates n p).A = p.A := by
  induction n with
  | zero => rw [updates_zero]
  | succ n ih => rw [updates_succ, PermState.update_A, ih]

theorem updates_W (n : Nat) (p : PermState) : (updates n p).W = p.W := by
  induction n with
  | zero => rw [updates_zero]
  | succ n ih => rw [updates_succ, PermState.update_W, ih]

theorem updates_I (n : Nat) (p : PermState) : (updates n p).I = p.I + BitVec.ofNat 8 n * p.W := by
  induction n with
  | zero => simp
  | succ n ih =>
    have e : BitVec.ofNat 8 (n + 1) = BitVec.ofNat 8 n + 1#8 := BitVec.ofNat_add ..
    rw [updates_succ, PermState.update_I, ih, updates_W, e, BitVec.add_mul, BitVec.one_mul, BitVec.add_assoc]

theorem updates_eq_iterate (n : Nat) (p : PermState) : updates n p = PermState.update^[n] p := by
  induction n with
  | zero => rw [updates_zero]; rfl
  | succ n ih => rw [updates_succ, ih, Function.iterate_succ_apply']

@[simp] theorem crushPairs_zero (t : Table) : crushPairs 0 t = t := by rw [crushPairs]

@[simp] theorem crushPairs_succ (n : Nat) (t : Table) :
    crushPairs (n + 1) t = crushPair n (crushPairs n t) := by rw [crushPairs]

theorem whip_eq (p : PermState) :
    p.whip = { updates Config.whipRounds p with W := (updates Config.whipRounds p).W + 2#8 } := by
  rw [PermState.whip]

namespace PermState

variable (p : PermState)

theorem rounds_stride (w : Byte) : BitVec.ofNat 8 Config.whipRounds * w = 0#8 := by
  rw [show BitVec.ofNat 8 Config.whipRounds = 0#8 from by rw [Config.whipRounds]; rfl, BitVec.zero_mul]

theorem whip_S : p.whip.S = (updates Config.whipRounds p).S := by rw [whip_eq]

@[simp] theorem whip_I : p.whip.I = p.I := by rw [whip_eq]; simp only [updates_I, rounds_stride, BitVec.add_zero]
@[simp] theorem whip_Z : p.whip.Z = p.Z := by rw [whip_eq]; simp only [updates_Z]
@[simp] theorem whip_A : p.whip.A = p.A := by rw [whip_eq]; simp only [updates_A]
@[simp] theorem whip_W : p.whip.W = p.W + 2#8 := by rw [whip_eq]; simp only [updates_W]

theorem shuffle_eq : p.shuffle = { p.whip.crush.whip.crush.whip with A := 0#8 } := by rw [shuffle]

@[simp] theorem shuffle_S : p.shuffle.S = p.whip.crush.whip.crush.whip.S := by rw [shuffle_eq]

@[simp] theorem shuffle_I : p.shuffle.I = p.I := by
  rw [shuffle_eq]; simp only [whip_I, crush_I]

@[simp] theorem shuffle_Z : p.shuffle.Z = p.Z := by
  rw [shuffle_eq]; simp only [whip_Z, crush_Z]

@[simp] theorem shuffle_A : p.shuffle.A = 0#8 := by rw [shuffle_eq]

@[simp] theorem shuffle_W : p.shuffle.W = p.W + 6#8 := by
  rw [shuffle_eq]; simp only [whip_W, crush_W, BitVec.add_assoc]; rfl

theorem makeRoom_of_ne {p : PermState} (h : p.A ≠ Config.half) : p.makeRoom = p := by simp [makeRoom, h]
theorem makeRoom_of_eq {p : PermState} (h : p.A = Config.half) : p.makeRoom = p.shuffle := by simp [makeRoom, h]
theorem flush_of_zero {p : PermState} (h : p.A = 0#8) : p.flush = p := by simp [flush, h]
theorem flush_of_ne {p : PermState} (h : p.A ≠ 0#8) : p.flush = p.shuffle := by simp [flush, h]

@[simp] theorem makeRoom_A : p.makeRoom.A = if p.A = Config.half then 0#8 else p.A := by
  unfold makeRoom; split <;> simp_all

@[simp] theorem makeRoom_Z : p.makeRoom.Z = p.Z := by unfold makeRoom; split <;> simp

@[simp] theorem flush_A : p.flush.A = 0#8 := by
  unfold flush; split <;> simp_all

@[simp] theorem flush_Z : p.flush.Z = p.Z := by unfold flush; split <;> simp

/-- `absorb_nibble` in terms of the state its first line leaves. -/
theorem absorbNibble_eq (x : Nibble) :
    p.absorbNibble x = { p.makeRoom with S := tableSwap p.makeRoom.S p.makeRoom.A (nibbleIndex x), A := p.makeRoom.A + 1#8 } := by
  rw [absorbNibble]

@[simp] theorem absorbNibble_S (x : Nibble) :
    (p.absorbNibble x).S = tableSwap p.makeRoom.S p.makeRoom.A (nibbleIndex x) := by rw [absorbNibble_eq]
@[simp] theorem absorbNibble_I (x : Nibble) : (p.absorbNibble x).I = p.makeRoom.I := by rw [absorbNibble_eq]
@[simp] theorem absorbNibble_J (x : Nibble) : (p.absorbNibble x).J = p.makeRoom.J := by rw [absorbNibble_eq]
@[simp] theorem absorbNibble_K (x : Nibble) : (p.absorbNibble x).K = p.makeRoom.K := by rw [absorbNibble_eq]
@[simp] theorem absorbNibble_W (x : Nibble) : (p.absorbNibble x).W = p.makeRoom.W := by rw [absorbNibble_eq]

@[simp] theorem absorbNibble_Z (x : Nibble) : (p.absorbNibble x).Z = p.Z := by
  rw [absorbNibble_eq]; exact makeRoom_Z p

@[simp] theorem absorbNibble_A (x : Nibble) :
    (p.absorbNibble x).A = if p.A = Config.half then 1#8 else p.A + 1#8 := by
  rw [absorbNibble_eq]
  show p.makeRoom.A + 1#8 = _
  rw [makeRoom_A]
  split <;> simp

theorem absorbByte_eq (b : Byte) :
    p.absorbByte b = (p.absorbNibble (lowNibble b)).absorbNibble (highNibble b) := by rw [absorbByte]

@[simp] theorem absorbByte_Z (b : Byte) : (p.absorbByte b).Z = p.Z := by
  rw [absorbByte_eq, absorbNibble_Z, absorbNibble_Z]

theorem absorbStop_eq : p.absorbStop = { p.makeRoom with A := p.makeRoom.A + 1#8 } := by rw [absorbStop]

@[simp] theorem absorbStop_S : p.absorbStop.S = p.makeRoom.S := by rw [absorbStop_eq]
@[simp] theorem absorbStop_I : p.absorbStop.I = p.makeRoom.I := by rw [absorbStop_eq]
@[simp] theorem absorbStop_J : p.absorbStop.J = p.makeRoom.J := by rw [absorbStop_eq]
@[simp] theorem absorbStop_K : p.absorbStop.K = p.makeRoom.K := by rw [absorbStop_eq]
@[simp] theorem absorbStop_W : p.absorbStop.W = p.makeRoom.W := by rw [absorbStop_eq]

@[simp] theorem absorbStop_Z : p.absorbStop.Z = p.Z := by
  rw [absorbStop_eq]; exact makeRoom_Z p

@[simp] theorem absorbStop_A : p.absorbStop.A = if p.A = Config.half then 1#8 else p.A + 1#8 := by
  rw [absorbStop_eq]
  show p.makeRoom.A + 1#8 = _
  rw [makeRoom_A]
  split <;> simp

theorem drip_eq : p.drip = p.flush.update.output := by rw [drip]

@[simp] theorem drip_A : p.drip.A = 0#8 := by rw [drip_eq, output_A, update_A, flush_A]

/-- Inside a squeeze the flush of each drip does nothing (R95, R141). -/
theorem drip_of_zero {p : PermState} (h : p.A = 0#8) : p.drip = p.update.output := by
  rw [drip_eq, flush_of_zero h]

theorem flush_eq_ite : p.flush = if 0#8 < p.A then p.shuffle else p := by
  unfold flush
  by_cases h : p.A = 0#8
  · rw [if_pos h, if_neg (by rw [h]; decide)]
  · rw [if_neg h, if_pos]
    have : p.A.toNat ≠ 0 := fun e => h (BitVec.eq_of_toNat_eq (by simpa using e))
    rw [BitVec.lt_def]
    simp
    omega

theorem drip_flush : p.flush.drip = p.drip := by
  rw [drip_eq, drip_eq, flush_of_zero (flush_A p)]

end PermState

/-! ### `shuffle` does not read `A` (R115) -/

theorem updates_setA (n : Nat) (p : PermState) (a : Byte) :
    updates n { p with A := a } = { updates n p with A := a } := by
  induction n with
  | zero => rw [updates_zero, updates_zero]
  | succ n ih =>
    rw [updates_succ, updates_succ, ih]
    generalize updates n p = q
    cases q; rfl

theorem whip_setA (p : PermState) (a : Byte) : PermState.whip { p with A := a } = { p.whip with A := a } := by
  rw [whip_eq, whip_eq, updates_setA]

theorem crush_setA (p : PermState) (a : Byte) : PermState.crush { p with A := a } = { p.crush with A := a } := by
  rw [PermState.crush_eq, PermState.crush_eq]

/-- The five stages of `shuffle`, before `A <- 0`, on a state whose `A` is changed. Each rewrite names its state: left to
unification, a rewrite with these equations compares shuffled states by unfolding them. -/
theorem stages_setA (p : PermState) (a : Byte) :
    (PermState.whip { p with A := a }).crush.whip.crush.whip = { p.whip.crush.whip.crush.whip with A := a } := by
  rw [whip_setA p a, crush_setA p.whip a, whip_setA p.whip.crush a, crush_setA p.whip.crush.whip a,
    whip_setA p.whip.crush.whip.crush a]

/-! ### The permutation -/

theorem IsPermutation.update {p : PermState} (h : IsPermutation p.S) : IsPermutation p.update.S :=
  h.tableSwap _ _

theorem IsPermutation.crushPair {t : Table} (h : IsPermutation t) (v : Nat) : IsPermutation (crushPair v t) := by
  simp only [Machine.crushPair]
  split
  · exact h.tableSwap _ _
  · exact h

theorem IsPermutation.crushPairs {t : Table} (h : IsPermutation t) (n : Nat) : IsPermutation (crushPairs n t) := by
  induction n with
  | zero => rw [crushPairs_zero]; exact h
  | succ n ih => rw [crushPairs_succ]; exact ih.crushPair n

theorem IsPermutation.updates {p : PermState} (h : IsPermutation p.S) (n : Nat) :
    IsPermutation (updates n p).S := by
  induction n with
  | zero => rw [updates_zero]; exact h
  | succ n ih => rw [updates_succ]; exact ih.update

theorem IsPermutation.whip {p : PermState} (h : IsPermutation p.S) : IsPermutation p.whip.S := by
  rw [PermState.whip_S]; exact h.updates _

theorem IsPermutation.crush {p : PermState} (h : IsPermutation p.S) : IsPermutation p.crush.S := by
  rw [PermState.crush_S]; exact h.crushPairs _

theorem IsPermutation.shuffle {p : PermState} (h : IsPermutation p.S) : IsPermutation p.shuffle.S := by
  rw [PermState.shuffle_S]; exact h.whip.crush.whip.crush.whip

/-! ### The invariants of a live state -/

theorem byte_odd_add_two {w : Byte} (h : w.toNat % 2 = 1) : (w + 2#8).toNat % 2 = 1 := by
  rw [BitVec.toNat_add]; simp; omega

theorem byte_odd_add_six {w : Byte} (h : w.toNat % 2 = 1) : (w + 6#8).toNat % 2 = 1 := by
  rw [BitVec.toNat_add]; simp; omega

theorem byte_succ_le_half {a : Byte} (h : a.toNat ≤ 128) (hn : a ≠ Config.half) : (a + 1#8).toNat ≤ 128 := by
  have : a.toNat ≠ 128 := fun e => hn (BitVec.eq_of_toNat_eq (by simpa [Config.half] using e))
  rw [BitVec.toNat_add]
  simp
  omega

namespace PermState.LiveInv

variable {p : PermState}

theorem initial : PermState.initial.LiveInv := ⟨isPermutation_initial, rfl, Nat.zero_le _⟩

theorem update (h : p.LiveInv) : p.update.LiveInv := ⟨h.permutation.update, h.odd, h.bound⟩

theorem output (h : p.LiveInv) : p.output.LiveInv := ⟨h.permutation, h.odd, h.bound⟩

theorem crush (h : p.LiveInv) : p.crush.LiveInv :=
  ⟨h.permutation.crush, by rw [crush_W]; exact h.odd, by rw [crush_A]; exact h.bound⟩

theorem whip (h : p.LiveInv) : p.whip.LiveInv :=
  ⟨h.permutation.whip, by rw [whip_W]; exact byte_odd_add_two h.odd, by rw [whip_A]; exact h.bound⟩

theorem shuffle (h : p.LiveInv) : p.shuffle.LiveInv :=
  ⟨h.permutation.shuffle, by rw [shuffle_W]; exact byte_odd_add_six h.odd, by rw [shuffle_A]; exact Nat.zero_le _⟩

theorem makeRoom (h : p.LiveInv) : p.makeRoom.LiveInv := by
  unfold PermState.makeRoom; split
  · exact h.shuffle
  · exact h

theorem flush (h : p.LiveInv) : p.flush.LiveInv := by
  unfold PermState.flush; split
  · exact h
  · exact h.shuffle

theorem absorbNibble (h : p.LiveInv) (x : Nibble) : (p.absorbNibble x).LiveInv := by
  refine ⟨?_, ?_, ?_⟩
  · rw [absorbNibble_S]; exact h.makeRoom.permutation.tableSwap _ _
  · rw [absorbNibble_W]; exact h.makeRoom.odd
  · rw [absorbNibble_A]
    split
    · decide
    · exact byte_succ_le_half h.bound ‹_›

theorem absorbByte (h : p.LiveInv) (b : Byte) : (p.absorbByte b).LiveInv := by
  rw [absorbByte_eq]; exact (h.absorbNibble _).absorbNibble _

theorem absorbStop (h : p.LiveInv) : p.absorbStop.LiveInv := by
  refine ⟨?_, ?_, ?_⟩
  · rw [absorbStop_S]; exact h.makeRoom.permutation
  · rw [absorbStop_W]; exact h.makeRoom.odd
  · rw [absorbStop_A]
    split
    · decide
    · exact byte_succ_le_half h.bound ‹_›

theorem drip (h : p.LiveInv) : p.drip.LiveInv := by
  rw [drip_eq]; exact h.flush.update.output

theorem sealLength (h : p.LiveInv) (b : Byte) : (sealLength b p).LiveInv := by
  rw [Machine.sealLength]; exact (h.absorbStop.absorbByte b).flush

theorem absorb (data : List Byte) : ∀ {p : PermState}, p.LiveInv → (p.absorb data).LiveInv := by
  induction data with
  | nil => intro p h; exact h
  | cons b rest ih => intro p h; exact ih (h.absorbByte b)

end PermState.LiveInv

@[simp] theorem sealLength_A (b : Byte) (p : PermState) : (sealLength b p).A = 0#8 := by
  rw [sealLength, PermState.flush_A]

@[simp] theorem absorb_nil (p : PermState) : p.absorb [] = p := rfl

@[simp] theorem absorb_cons (b : Byte) (rest : List Byte) (p : PermState) :
    p.absorb (b :: rest) = (p.absorbByte b).absorb rest := rfl

end Sys2Proof.Machine
end

