-- ==== Sys2Proof/Laws/State.lean ====
section
/-! SUPPORT. One lemma per field for each update of the state that Machine/Ops.lean names: what the update writes, and
that every other field is as before. Each is true by unfolding; the proofs split the state first, so that `simp` uses the
lemmas by rewriting and the kernel is never asked to compare a shuffled permutation state with an unshuffled one. -/

namespace Sys2Proof.Machine

@[simp] theorem State.doutPut_ps (v : Byte) (s : State) : (s.doutPut v).ps = s.ps := by cases s; rfl
@[simp] theorem State.doutPut_live (v : Byte) (s : State) : (s.doutPut v).live = s.live := by cases s; rfl
@[simp] theorem State.doutPut_busy (v : Byte) (s : State) : (s.doutPut v).busy = s.busy := by cases s; rfl
@[simp] theorem State.doutPut_op (v : Byte) (s : State) : (s.doutPut v).op = s.op := by cases s; rfl
@[simp] theorem State.doutPut_imm (v : Byte) (s : State) : (s.doutPut v).imm = s.imm := by cases s; rfl
@[simp] theorem State.doutPut_phase (v : Byte) (s : State) : (s.doutPut v).phase = s.phase := by cases s; rfl
@[simp] theorem State.doutPut_cKey (v : Byte) (s : State) : (s.doutPut v).cKey = s.cKey := by cases s; rfl
@[simp] theorem State.doutPut_cNonce (v : Byte) (s : State) : (s.doutPut v).cNonce = s.cNonce := by cases s; rfl
@[simp] theorem State.doutPut_cMsg (v : Byte) (s : State) : (s.doutPut v).cMsg = s.cMsg := by cases s; rfl
@[simp] theorem State.doutPut_cOut (v : Byte) (s : State) : (s.doutPut v).cOut = s.cOut := by cases s; rfl
@[simp] theorem State.doutPut_keyLen (v : Byte) (s : State) : (s.doutPut v).keyLen = s.keyLen := by cases s; rfl
@[simp] theorem State.doutPut_nonceLen (v : Byte) (s : State) : (s.doutPut v).nonceLen = s.nonceLen := by cases s; rfl
@[simp] theorem State.doutPut_msgLen (v : Byte) (s : State) : (s.doutPut v).msgLen = s.msgLen := by cases s; rfl
@[simp] theorem State.doutPut_outLen (v : Byte) (s : State) : (s.doutPut v).outLen = s.outLen := by cases s; rfl
@[simp] theorem State.doutPut_errCode (v : Byte) (s : State) : (s.doutPut v).errCode = s.errCode := by cases s; rfl
@[simp] theorem State.doutPut_doutByte (v : Byte) (s : State) : (s.doutPut v).doutByte = v := by cases s; rfl
@[simp] theorem State.doutPut_doutValid (v : Byte) (s : State) : (s.doutPut v).doutValid = true := by cases s; rfl
@[simp] theorem State.doutPut_port (v : Byte) (s : State) : (s.doutPut v).port = s.port := by cases s; rfl
@[simp] theorem State.doutPut_agenda (v : Byte) (s : State) : (s.doutPut v).agenda = s.agenda := by cases s; rfl
@[simp] theorem State.doutPut_reads (v : Byte) (s : State) : (s.doutPut v).reads = s.reads := by cases s; rfl

@[simp] theorem State.eraseState_ps (s : State) : (s.eraseState).ps = PermState.erased := by cases s; rfl
@[simp] theorem State.eraseState_live (s : State) : (s.eraseState).live = false := by cases s; rfl
@[simp] theorem State.eraseState_busy (s : State) : (s.eraseState).busy = s.busy := by cases s; rfl
@[simp] theorem State.eraseState_op (s : State) : (s.eraseState).op = s.op := by cases s; rfl
@[simp] theorem State.eraseState_imm (s : State) : (s.eraseState).imm = s.imm := by cases s; rfl
@[simp] theorem State.eraseState_phase (s : State) : (s.eraseState).phase = s.phase := by cases s; rfl
@[simp] theorem State.eraseState_cKey (s : State) : (s.eraseState).cKey = s.cKey := by cases s; rfl
@[simp] theorem State.eraseState_cNonce (s : State) : (s.eraseState).cNonce = s.cNonce := by cases s; rfl
@[simp] theorem State.eraseState_cMsg (s : State) : (s.eraseState).cMsg = s.cMsg := by cases s; rfl
@[simp] theorem State.eraseState_cOut (s : State) : (s.eraseState).cOut = s.cOut := by cases s; rfl
@[simp] theorem State.eraseState_keyLen (s : State) : (s.eraseState).keyLen = s.keyLen := by cases s; rfl
@[simp] theorem State.eraseState_nonceLen (s : State) : (s.eraseState).nonceLen = s.nonceLen := by cases s; rfl
@[simp] theorem State.eraseState_msgLen (s : State) : (s.eraseState).msgLen = s.msgLen := by cases s; rfl
@[simp] theorem State.eraseState_outLen (s : State) : (s.eraseState).outLen = s.outLen := by cases s; rfl
@[simp] theorem State.eraseState_errCode (s : State) : (s.eraseState).errCode = s.errCode := by cases s; rfl
@[simp] theorem State.eraseState_doutByte (s : State) : (s.eraseState).doutByte = s.doutByte := by cases s; rfl
@[simp] theorem State.eraseState_doutValid (s : State) : (s.eraseState).doutValid = s.doutValid := by cases s; rfl
@[simp] theorem State.eraseState_port (s : State) : (s.eraseState).port = s.port := by cases s; rfl
@[simp] theorem State.eraseState_agenda (s : State) : (s.eraseState).agenda = s.agenda := by cases s; rfl
@[simp] theorem State.eraseState_reads (s : State) : (s.eraseState).reads = s.reads := by cases s; rfl

@[simp] theorem State.toIdle_ps (s : State) : (s.toIdle).ps = s.ps := by cases s; rfl
@[simp] theorem State.toIdle_live (s : State) : (s.toIdle).live = s.live := by cases s; rfl
@[simp] theorem State.toIdle_busy (s : State) : (s.toIdle).busy = false := by cases s; rfl
@[simp] theorem State.toIdle_op (s : State) : (s.toIdle).op = 0#8 := by cases s; rfl
@[simp] theorem State.toIdle_imm (s : State) : (s.toIdle).imm = 0#8 := by cases s; rfl
@[simp] theorem State.toIdle_phase (s : State) : (s.toIdle).phase = .idle := by cases s; rfl
@[simp] theorem State.toIdle_cKey (s : State) : (s.toIdle).cKey = 0#32 := by cases s; rfl
@[simp] theorem State.toIdle_cNonce (s : State) : (s.toIdle).cNonce = 0#32 := by cases s; rfl
@[simp] theorem State.toIdle_cMsg (s : State) : (s.toIdle).cMsg = 0#32 := by cases s; rfl
@[simp] theorem State.toIdle_cOut (s : State) : (s.toIdle).cOut = 0#32 := by cases s; rfl
@[simp] theorem State.toIdle_keyLen (s : State) : (s.toIdle).keyLen = s.keyLen := by cases s; rfl
@[simp] theorem State.toIdle_nonceLen (s : State) : (s.toIdle).nonceLen = s.nonceLen := by cases s; rfl
@[simp] theorem State.toIdle_msgLen (s : State) : (s.toIdle).msgLen = s.msgLen := by cases s; rfl
@[simp] theorem State.toIdle_outLen (s : State) : (s.toIdle).outLen = s.outLen := by cases s; rfl
@[simp] theorem State.toIdle_errCode (s : State) : (s.toIdle).errCode = s.errCode := by cases s; rfl
@[simp] theorem State.toIdle_doutByte (s : State) : (s.toIdle).doutByte = s.doutByte := by cases s; rfl
@[simp] theorem State.toIdle_doutValid (s : State) : (s.toIdle).doutValid = s.doutValid := by cases s; rfl
@[simp] theorem State.toIdle_port (s : State) : (s.toIdle).port = s.port := by cases s; rfl
@[simp] theorem State.toIdle_agenda (s : State) : (s.toIdle).agenda = s.agenda := by cases s; rfl
@[simp] theorem State.toIdle_reads (s : State) : (s.toIdle).reads = s.reads := by cases s; rfl

@[simp] theorem State.finish_ps (e : Bool) (s : State) : (s.finish e).ps = if e then PermState.erased else s.ps := by cases s; cases e <;> rfl
@[simp] theorem State.finish_live (e : Bool) (s : State) : (s.finish e).live = (!e && s.live) := by cases s; cases e <;> rfl
@[simp] theorem State.finish_busy (e : Bool) (s : State) : (s.finish e).busy = false := by cases s; cases e <;> rfl
@[simp] theorem State.finish_op (e : Bool) (s : State) : (s.finish e).op = 0#8 := by cases s; cases e <;> rfl
@[simp] theorem State.finish_imm (e : Bool) (s : State) : (s.finish e).imm = 0#8 := by cases s; cases e <;> rfl
@[simp] theorem State.finish_phase (e : Bool) (s : State) : (s.finish e).phase = .idle := by cases s; cases e <;> rfl
@[simp] theorem State.finish_cKey (e : Bool) (s : State) : (s.finish e).cKey = 0#32 := by cases s; cases e <;> rfl
@[simp] theorem State.finish_cNonce (e : Bool) (s : State) : (s.finish e).cNonce = 0#32 := by cases s; cases e <;> rfl
@[simp] theorem State.finish_cMsg (e : Bool) (s : State) : (s.finish e).cMsg = 0#32 := by cases s; cases e <;> rfl
@[simp] theorem State.finish_cOut (e : Bool) (s : State) : (s.finish e).cOut = 0#32 := by cases s; cases e <;> rfl
@[simp] theorem State.finish_keyLen (e : Bool) (s : State) : (s.finish e).keyLen = s.keyLen := by cases s; cases e <;> rfl
@[simp] theorem State.finish_nonceLen (e : Bool) (s : State) : (s.finish e).nonceLen = s.nonceLen := by cases s; cases e <;> rfl
@[simp] theorem State.finish_msgLen (e : Bool) (s : State) : (s.finish e).msgLen = s.msgLen := by cases s; cases e <;> rfl
@[simp] theorem State.finish_outLen (e : Bool) (s : State) : (s.finish e).outLen = s.outLen := by cases s; cases e <;> rfl
@[simp] theorem State.finish_errCode (e : Bool) (s : State) : (s.finish e).errCode = s.errCode := by cases s; cases e <;> rfl
@[simp] theorem State.finish_doutByte (e : Bool) (s : State) : (s.finish e).doutByte = s.doutByte := by cases s; cases e <;> rfl
@[simp] theorem State.finish_doutValid (e : Bool) (s : State) : (s.finish e).doutValid = s.doutValid := by cases s; cases e <;> rfl
@[simp] theorem State.finish_port (e : Bool) (s : State) : (s.finish e).port = s.port := by cases s; cases e <;> rfl
@[simp] theorem State.finish_agenda (e : Bool) (s : State) : (s.finish e).agenda = s.agenda := by cases s; cases e <;> rfl
@[simp] theorem State.finish_reads (e : Bool) (s : State) : (s.finish e).reads = s.reads := by cases s; cases e <;> rfl

@[simp] theorem State.accept_ps (i : Instr) (s : State) : (s.accept i).ps = s.ps := by cases s; rfl
@[simp] theorem State.accept_live (i : Instr) (s : State) : (s.accept i).live = s.live := by cases s; rfl
@[simp] theorem State.accept_busy (i : Instr) (s : State) : (s.accept i).busy = true := by cases s; rfl
@[simp] theorem State.accept_op (i : Instr) (s : State) : (s.accept i).op = i.opcode := by cases s; rfl
@[simp] theorem State.accept_imm (i : Instr) (s : State) : (s.accept i).imm = i.imm8 := by cases s; rfl
@[simp] theorem State.accept_phase (i : Instr) (s : State) : (s.accept i).phase = .exec := by cases s; rfl
@[simp] theorem State.accept_cKey (i : Instr) (s : State) : (s.accept i).cKey = s.keyLen := by cases s; rfl
@[simp] theorem State.accept_cNonce (i : Instr) (s : State) : (s.accept i).cNonce = s.nonceLen := by cases s; rfl
@[simp] theorem State.accept_cMsg (i : Instr) (s : State) : (s.accept i).cMsg = s.msgLen := by cases s; rfl
@[simp] theorem State.accept_cOut (i : Instr) (s : State) : (s.accept i).cOut = s.outLen := by cases s; rfl
@[simp] theorem State.accept_keyLen (i : Instr) (s : State) : (s.accept i).keyLen = s.keyLen := by cases s; rfl
@[simp] theorem State.accept_nonceLen (i : Instr) (s : State) : (s.accept i).nonceLen = s.nonceLen := by cases s; rfl
@[simp] theorem State.accept_msgLen (i : Instr) (s : State) : (s.accept i).msgLen = s.msgLen := by cases s; rfl
@[simp] theorem State.accept_outLen (i : Instr) (s : State) : (s.accept i).outLen = s.outLen := by cases s; rfl
@[simp] theorem State.accept_errCode (i : Instr) (s : State) : (s.accept i).errCode = .ok := by cases s; rfl
@[simp] theorem State.accept_doutByte (i : Instr) (s : State) : (s.accept i).doutByte = s.doutByte := by cases s; rfl
@[simp] theorem State.accept_doutValid (i : Instr) (s : State) : (s.accept i).doutValid = s.doutValid := by cases s; rfl
@[simp] theorem State.accept_port (i : Instr) (s : State) : (s.accept i).port = s.port := by cases s; rfl
@[simp] theorem State.accept_agenda (i : Instr) (s : State) : (s.accept i).agenda = s.agenda := by cases s; rfl
@[simp] theorem State.accept_reads (i : Instr) (s : State) : (s.accept i).reads = s.reads := by cases s; rfl

@[simp] theorem State.release_ps (s : State) : (s.release).ps = s.ps := by cases s; rfl
@[simp] theorem State.release_live (s : State) : (s.release).live = s.live := by cases s; rfl
@[simp] theorem State.release_busy (s : State) : (s.release).busy = s.busy := by cases s; rfl
@[simp] theorem State.release_op (s : State) : (s.release).op = s.op := by cases s; rfl
@[simp] theorem State.release_imm (s : State) : (s.release).imm = s.imm := by cases s; rfl
@[simp] theorem State.release_phase (s : State) : (s.release).phase = s.phase := by cases s; rfl
@[simp] theorem State.release_cKey (s : State) : (s.release).cKey = s.cKey := by cases s; rfl
@[simp] theorem State.release_cNonce (s : State) : (s.release).cNonce = s.cNonce := by cases s; rfl
@[simp] theorem State.release_cMsg (s : State) : (s.release).cMsg = s.cMsg := by cases s; rfl
@[simp] theorem State.release_cOut (s : State) : (s.release).cOut = s.cOut := by cases s; rfl
@[simp] theorem State.release_keyLen (s : State) : (s.release).keyLen = s.keyLen := by cases s; rfl
@[simp] theorem State.release_nonceLen (s : State) : (s.release).nonceLen = s.nonceLen := by cases s; rfl
@[simp] theorem State.release_msgLen (s : State) : (s.release).msgLen = s.msgLen := by cases s; rfl
@[simp] theorem State.release_outLen (s : State) : (s.release).outLen = s.outLen := by cases s; rfl
@[simp] theorem State.release_errCode (s : State) : (s.release).errCode = s.errCode := by cases s; rfl
@[simp] theorem State.release_doutByte (s : State) : (s.release).doutByte = s.doutByte := by cases s; rfl
@[simp] theorem State.release_doutValid (s : State) : (s.release).doutValid = s.doutValid := by cases s; rfl
@[simp] theorem State.release_port (s : State) : (s.release).port = .none := by cases s; rfl
@[simp] theorem State.release_agenda (s : State) : (s.release).agenda = s.agenda := by cases s; rfl
@[simp] theorem State.release_reads (s : State) : (s.release).reads = s.reads := by cases s; rfl

@[simp] theorem State.reject_ps (c : ErrCode) (s : State) : (s.reject c).ps = if c = .len then PermState.erased else s.ps := by cases s; cases c <;> rfl
@[simp] theorem State.reject_live (c : ErrCode) (s : State) : (s.reject c).live = (c != .len && s.live) := by cases s; cases c <;> rfl
@[simp] theorem State.reject_busy (c : ErrCode) (s : State) : (s.reject c).busy = s.busy := by cases s; cases c <;> rfl
@[simp] theorem State.reject_op (c : ErrCode) (s : State) : (s.reject c).op = s.op := by cases s; cases c <;> rfl
@[simp] theorem State.reject_imm (c : ErrCode) (s : State) : (s.reject c).imm = s.imm := by cases s; cases c <;> rfl
@[simp] theorem State.reject_phase (c : ErrCode) (s : State) : (s.reject c).phase = s.phase := by cases s; cases c <;> rfl
@[simp] theorem State.reject_cKey (c : ErrCode) (s : State) : (s.reject c).cKey = s.cKey := by cases s; cases c <;> rfl
@[simp] theorem State.reject_cNonce (c : ErrCode) (s : State) : (s.reject c).cNonce = s.cNonce := by cases s; cases c <;> rfl
@[simp] theorem State.reject_cMsg (c : ErrCode) (s : State) : (s.reject c).cMsg = s.cMsg := by cases s; cases c <;> rfl
@[simp] theorem State.reject_cOut (c : ErrCode) (s : State) : (s.reject c).cOut = s.cOut := by cases s; cases c <;> rfl
@[simp] theorem State.reject_keyLen (c : ErrCode) (s : State) : (s.reject c).keyLen = s.keyLen := by cases s; cases c <;> rfl
@[simp] theorem State.reject_nonceLen (c : ErrCode) (s : State) : (s.reject c).nonceLen = s.nonceLen := by cases s; cases c <;> rfl
@[simp] theorem State.reject_msgLen (c : ErrCode) (s : State) : (s.reject c).msgLen = s.msgLen := by cases s; cases c <;> rfl
@[simp] theorem State.reject_outLen (c : ErrCode) (s : State) : (s.reject c).outLen = s.outLen := by cases s; cases c <;> rfl
@[simp] theorem State.reject_errCode (c : ErrCode) (s : State) : (s.reject c).errCode = c := by cases s; cases c <;> rfl
@[simp] theorem State.reject_doutByte (c : ErrCode) (s : State) : (s.reject c).doutByte = s.doutByte := by cases s; cases c <;> rfl
@[simp] theorem State.reject_doutValid (c : ErrCode) (s : State) : (s.reject c).doutValid = s.doutValid := by cases s; cases c <;> rfl
@[simp] theorem State.reject_port (c : ErrCode) (s : State) : (s.reject c).port = s.port := by cases s; cases c <;> rfl
@[simp] theorem State.reject_agenda (c : ErrCode) (s : State) : (s.reject c).agenda = s.agenda := by cases s; cases c <;> rfl
@[simp] theorem State.reject_reads (c : ErrCode) (s : State) : (s.reject c).reads = s.reads := by cases s; cases c <;> rfl

end Sys2Proof.Machine
end

