-- ==== Sys2Proof/Laws/Exec.lean ====
section
/-! SUPPORT. Said once: everything a transition of a command can do when it answers a next state (spec/40_sequencer.md
R80 to R96). `exec_next` is the inversion lemma; proofs about all commands split on its cases instead of unfolding
`exec`. -/

namespace Sys2Proof.Machine

/-- What a raw command of R86 does to the permutation state, where it yields no byte. -/
def rawMix : Instr → Option (PermState → PermState)
  | .update => some PermState.update
  | .crush => some PermState.crush
  | .whip => some PermState.whip
  | .shuffle => some PermState.shuffle
  | .absorbNibble imm8 => some (PermState.absorbNibble (lowNibble imm8))
  | .absorbByte b => some (PermState.absorbByte b)
  | .absorbStop => some PermState.absorbStop
  | _ => none

/-- What OUTPUT and DRIP do to the permutation state; the byte they put is `Z` of the result. -/
def rawEmit : Instr → Option (PermState → PermState)
  | .output => some PermState.output
  | .drip => some PermState.drip
  | _ => none

/-- The first absorb phase of a high-level command (R87). -/
def startPhase : Instr → Option Phase
  | .hash => some .absMsg
  | .stream => some .absKey
  | .encrypt => some .absKey
  | .decrypt => some .absKey
  | .auth => some .absKey
  | _ => none

/-- The steps that change the permutation state and go to another phase (R87, R91, R93): the counter that must be 0,
the change and the phase. -/
def mixStep (i : Instr) (s : State) : Option (Word × (PermState → PermState) × Phase) :=
  match i, s.phase with
  | .squeeze, .exec => some (0#32, PermState.flush, .squeeze)
  | .stream, .absKey => some (s.cKey, PermState.flush, .squeeze)
  | .encrypt, .absKey => some (s.cKey, PermState.absorbStop, .absNonce)
  | .decrypt, .absKey => some (s.cKey, PermState.absorbStop, .absNonce)
  | .auth, .absKey => some (s.cKey, PermState.absorbStop, .absMsg)
  | .hash, .absMsg => some (s.cMsg, sealLength (lowByte s.cOut), .squeeze)
  | .auth, .absMsg => some (s.cMsg, sealLength (lowByte s.cOut), .squeeze)
  | _, _ => none

/-- The holds of R97 that a command in progress can be in. -/
inductive Holding (i : Instr) (s : State) : Prop
  | key (h : s.phase = .absKey) (c : s.cKey ≠ 0#32)
  | nonce (h : s.phase = .absNonce) (c : s.cNonce ≠ 0#32)
  | msg (h : s.phase = .absMsg) (c : s.cMsg ≠ 0#32)
  | xfer (h : s.phase = .cryptXfer)
  | squeeze (h : s.phase = .squeeze) (c : s.cOut ≠ 0#32) (d : s.doutValid = true)
  | emit (h : s.phase = .exec) (f : PermState → PermState) (e : rawEmit i = some f) (d : s.doutValid = true)

/-- Every internal step of a command in progress. -/
inductive InternalStep (i : Instr) (s : State) : State → Prop
  | held (h : Holding i s) : InternalStep i s s
  | init (e : i = .init) (h : s.phase = .exec) :
      InternalStep i s (State.completed PermState.initial { s with live := true })
  | mix (f : PermState → PermState) (e : rawMix i = some f) (h : s.phase = .exec) (l : s.live = true) :
      InternalStep i s (s.completed (f s.ps))
  | emit (f : PermState → PermState) (e : rawEmit i = some f) (h : s.phase = .exec) (d : s.doutValid = false)
      (l : s.live = true) : InternalStep i s ((s.completed (f s.ps)).doutPut (f s.ps).Z)
  | erase (e : i = .erase) (h : s.phase = .exec) : InternalStep i s s.completedErased
  | start (p : Phase) (e : startPhase i = some p) (h : s.phase = .exec) :
      InternalStep i s { s with ps := PermState.initial, live := true, phase := p }
  | opened (e : i = .absorb) (h : s.phase = .exec) : InternalStep i s { s with phase := .absMsg }
  | mixed (f : PermState → PermState) (p : Phase) (e : mixStep i s = some (0#32, f, p)) (l : s.live = true) :
      InternalStep i s { s with ps := f s.ps, phase := p }
  | nonceTaken (e : i = .encrypt ∨ i = .decrypt) (h : s.phase = .absNonce) (c : s.cNonce = 0#32) :
      InternalStep i s { s with phase := .cryptDrip }
  | dripped (e : i = .encrypt ∨ i = .decrypt) (h : s.phase = .cryptDrip) (c : s.cMsg ≠ 0#32) (l : s.live = true) :
      InternalStep i s { s with ps := s.ps.drip, phase := .cryptXfer }
  | cryptDone (e : i = .encrypt ∨ i = .decrypt) (h : s.phase = .cryptDrip) (c : s.cMsg = 0#32) :
      InternalStep i s s.completedErased
  | absorbDone (e : i = .absorb) (h : s.phase = .absMsg) (c : s.cMsg = 0#32) :
      InternalStep i s (s.completed s.ps)
  | squeezed (e : i = .squeeze ∨ i = .hash ∨ i = .stream ∨ i = .auth) (h : s.phase = .squeeze) (c : s.cOut ≠ 0#32)
      (d : s.doutValid = false) (l : s.live = true) :
      InternalStep i s ({ s with ps := s.ps.drip, cOut := s.cOut - 1#32 }.doutPut s.ps.drip.Z)
  | squeezeDone (e : i = .squeeze) (h : s.phase = .squeeze) (c : s.cOut = 0#32) :
      InternalStep i s (s.completed s.ps)
  | outputDone (e : i = .hash ∨ i = .stream ∨ i = .auth) (h : s.phase = .squeeze) (c : s.cOut = 0#32) :
      InternalStep i s s.completedErased

/-- Every DIN write that a command in progress consumes. -/
inductive ByteStep (i : Instr) (b : Byte) (s : State) : State → Prop
  | key (h : s.phase = .absKey) (l : s.live = true) :
      ByteStep i b s { s with ps := s.ps.absorbByte b, cKey := s.cKey - 1#32 }
  | nonce (h : s.phase = .absNonce) (l : s.live = true) :
      ByteStep i b s { s with ps := s.ps.absorbByte b, cNonce := s.cNonce - 1#32 }
  | msg (h : s.phase = .absMsg) (l : s.live = true) :
      ByteStep i b s { s with ps := s.ps.absorbByte b, cMsg := s.cMsg - 1#32 }
  | encrypted (e : i = .encrypt) (h : s.phase = .cryptXfer) (l : s.live = true) :
      ByteStep i b s ({ s with cMsg := s.cMsg - 1#32, phase := .cryptDrip }.doutPut (b + s.ps.Z))
  | decrypted (e : i = .decrypt) (h : s.phase = .cryptXfer) (l : s.live = true) :
      ByteStep i b s ({ s with cMsg := s.cMsg - 1#32, phase := .cryptDrip }.doutPut (b - s.ps.Z))

/-- Everything a transition of a command can do. -/
inductive Transition (i : Instr) (s : State) : State → Prop
  | ignored (p : s.port = .cmd) (h : s.busy = true) : Transition i s s.release
  | issued (p : s.port = .cmd) (h : s.busy = false) : Transition i s (s.release.issue i)
  | lost (b : Byte) (p : s.port = .din b) (h : dinReq s = false) : Transition i s s.release
  | taken (b : Byte) (p : s.port = .din b) (h : dinReq s = true) (t : State) (r : ByteStep i b s.release t) :
      Transition i s t
  | internal (p : s.port = .none) (t : State) (r : InternalStep i s t) : Transition i s t

/-- What the four outcomes of the rejections and of acceptance are (R81). -/
inductive Issued (i : Instr) (s : State) : State → Prop
  | illegal (h : i.wf = false) : Issued i s (s.reject .illegal)
  | noState (h : i.wf = true) (n : needsLive i = true) (l : s.live = false) : Issued i s (s.reject .noState)
  | len (h : i.wf = true) (n : needsLive i = true → s.live = true) (c : checksOutLen i = true)
      (o : Config.outLenMax < s.outLen) : Issued i s (s.reject .len)
  | accepted (h : i.wf = true) (n : needsLive i = true → s.live = true)
      (c : checksOutLen i = true → s.outLen ≤ Config.outLenMax) : Issued i s (s.accept i)

theorem issue_cases (i : Instr) (s : State) : Issued i s (s.issue i) := by
  unfold State.issue
  split
  · exact .illegal ‹_›
  · have hw : i.wf = true := by simpa using ‹¬ i.wf = false›
    split
    · rename_i h
      simp only [Bool.and_eq_true, Bool.not_eq_true'] at h
      exact .noState hw h.1 h.2
    · rename_i hn
      have hn' : needsLive i = true → s.live = true := by
        intro h; simp only [h, Bool.true_and, Bool.not_eq_true', Bool.not_eq_false] at hn; exact hn
      split
      · rename_i h
        simp only [Bool.and_eq_true, decide_eq_true_eq] at h
        exact .len hw hn' h.1 h.2
      · rename_i h
        simp only [Bool.and_eq_true, decide_eq_true_eq, not_and, BitVec.not_lt] at h
        exact .accepted hw hn' h

theorem onLive_next {s u t : State} (h : onLive s u = .next t) : s.live = true ∧ t = u := by
  unfold onLive at h
  split at h
  · exact ⟨‹_›, by injection h with h; exact h.symm⟩
  · cases h

theorem atExec_next {work : State → Result} {s t : State} (h : atExec work s = .next t) :
    s.phase = .exec ∧ work s = .next t := by
  unfold atExec at h
  split at h <;> first | exact ⟨‹_›, h⟩ | cases h

theorem finish_false (s : State) : s.finish false = s.completed s.ps := by cases s; rfl

theorem finish_true (s : State) : s.finish true = s.completedErased := by cases s; rfl

theorem finish_false_ps (q : PermState) (s : State) : State.finish false { s with ps := q } = s.completed q := by
  cases s; rfl

theorem mixAndFinish_next {f : PermState → PermState} {s t : State} (h : mixAndFinish f s = .next t) :
    s.live = true ∧ t = s.completed (f s.ps) := by
  obtain ⟨l, rfl⟩ := onLive_next h
  exact ⟨l, finish_false_ps _ _⟩

theorem emitAndFinish_next {f : PermState → PermState} {s t : State} (h : emitAndFinish f s = .next t) :
    (s.doutValid = true ∧ t = s) ∨
      (s.doutValid = false ∧ s.live = true ∧ t = (s.completed (f s.ps)).doutPut (f s.ps).Z) := by
  unfold emitAndFinish at h
  split at h
  · exact .inl ⟨‹_›, by injection h with h; exact h.symm⟩
  · obtain ⟨l, rfl⟩ := onLive_next h
    refine .inr ⟨by simpa using ‹¬ s.doutValid = true›, l, ?_⟩
    generalize f s.ps = q
    cases s; rfl

theorem mixAndGo_next {f : PermState → PermState} {p : Phase} {s t : State} (h : mixAndGo f p s = .next t) :
    s.live = true ∧ t = { s with ps := f s.ps, phase := p } := onLive_next h

theorem whenTaken_next {c : Word} {next : State → Result} {s t : State} (h : whenTaken c next s = .next t) :
    (c = 0#32 ∧ next s = .next t) ∨ (c ≠ 0#32 ∧ t = s) := by
  unfold whenTaken at h
  split at h
  · exact .inl ⟨‹_›, h⟩
  · exact .inr ⟨‹_›, by injection h with h; exact h.symm⟩

theorem next_inj {s t : State} (h : (Host.Outcome.next s : Result) = .next t) : t = s := by
  injection h with h; exact h.symm

theorem squeezeStep_next {e : Bool} {s t : State} (h : squeezeStep e s = .next t) :
    (s.cOut = 0#32 ∧ t = s.finish e) ∨ (s.cOut ≠ 0#32 ∧ s.doutValid = true ∧ t = s) ∨
      (s.cOut ≠ 0#32 ∧ s.doutValid = false ∧ s.live = true ∧
        t = { s with ps := s.ps.drip, cOut := s.cOut - 1#32 }.doutPut s.ps.drip.Z) := by
  unfold squeezeStep at h
  split at h
  · exact .inl ⟨‹_›, next_inj h⟩
  · split at h
    · exact .inr (.inl ⟨‹_›, ‹_›, next_inj h⟩)
    · obtain ⟨l, rfl⟩ := onLive_next h
      exact .inr (.inr ⟨‹_›, by simpa using ‹¬ s.doutValid = true›, l, rfl⟩)

theorem absorbDin_next {i : Instr} {b : Byte} {s t : State} (h : absorbDin b s = .next t) : ByteStep i b s t := by
  unfold absorbDin at h
  split at h
  · obtain ⟨l, rfl⟩ := onLive_next h; exact .key ‹_› l
  · obtain ⟨l, rfl⟩ := onLive_next h; exact .nonce ‹_› l
  · obtain ⟨l, rfl⟩ := onLive_next h; exact .msg ‹_› l
  all_goals cases h

theorem cryptDin_next {combine : Byte → Byte → Byte} {i : Instr} {b : Byte} {s t : State}
    (h : cryptDin combine b s = .next t) :
    (s.phase = .cryptXfer ∧ s.live = true ∧
      t = { s with cMsg := s.cMsg - 1#32, phase := .cryptDrip }.doutPut (combine b s.ps.Z)) ∨ ByteStep i b s t := by
  unfold cryptDin at h
  split at h
  · obtain ⟨l, rfl⟩ := onLive_next h; exact .inl ⟨‹_›, l, rfl⟩
  · exact .inr (absorbDin_next h)
  · exact .inr (absorbDin_next h)
  all_goals cases h

theorem squeezeStep_internal {e : Bool} {i : Instr} {s t : State} (hp : s.phase = .squeeze)
    (he : (e = false ∧ i = .squeeze) ∨ (e = true ∧ (i = .hash ∨ i = .stream ∨ i = .auth)))
    (h : squeezeStep e s = .next t) : InternalStep i s t := by
  rcases squeezeStep_next h with ⟨c, rfl⟩ | ⟨c, d, rfl⟩ | ⟨c, d, l, rfl⟩
  · rcases he with ⟨rfl, he⟩ | ⟨rfl, he⟩
    · rw [finish_false]; exact .squeezeDone he hp c
    · rw [finish_true]; exact .outputDone he hp c
  · exact .held (.squeeze hp c d)
  · refine .squeezed ?_ hp c d l
    rcases he with ⟨-, he⟩ | ⟨-, he⟩
    · exact .inl he
    · exact .inr he

theorem cryptInternal_next {i : Instr} {s t : State} (he : i = .encrypt ∨ i = .decrypt)
    (h : cryptInternal s = .next t) : InternalStep i s t := by
  unfold cryptInternal at h
  split at h
  · rename_i hp
    obtain rfl := next_inj h
    exact .start _ (by rcases he with rfl | rfl <;> rfl) hp
  · rename_i hp
    rcases whenTaken_next h with ⟨c, h⟩ | ⟨c, rfl⟩
    · obtain ⟨l, rfl⟩ := mixAndGo_next h
      exact .mixed _ _ (by rcases he with rfl | rfl <;> simp only [mixStep, hp, c]) l
    · exact .held (.key hp c)
  · rename_i hp
    rcases whenTaken_next h with ⟨c, h⟩ | ⟨c, rfl⟩
    · obtain rfl := next_inj h
      exact .nonceTaken he hp c
    · exact .held (.nonce hp c)
  · rename_i hp
    unfold cryptDripStep at h
    split at h
    · obtain rfl := next_inj h
      rw [finish_true]
      exact .cryptDone he hp ‹_›
    · obtain ⟨l, rfl⟩ := onLive_next h
      exact .dripped he hp ‹_› l
  · obtain rfl := next_inj h
    exact .held (.xfer ‹_›)
  all_goals cases h

/-- A transition, by the access it serves. -/
theorem transition_next {i : Instr} {consume : Byte → State → Result} {internal : State → Result} {s t : State}
    (hc : ∀ b u, consume b s.release = .next u → ByteStep i b s.release u)
    (hi : ∀ u, internal s = .next u → InternalStep i s u)
    (h : transition i consume internal s = .next t) : Transition i s t := by
  unfold transition at h
  split at h
  · exact .internal ‹_› t (hi t h)
  · obtain rfl := next_inj h
    split
    · exact .ignored ‹_› ‹_›
    · exact .issued ‹_› (by simpa using ‹¬ s.busy = true›)
  · split at h
    · exact .taken _ ‹_› ‹_› t (hc _ t h)
    · obtain rfl := next_inj h
      exact .lost _ ‹_› (by simpa using ‹¬ dinReq s = true›)

theorem noByte_next {i : Instr} {s : State} (b : Byte) (u : State) (h : noByte b s = .next u) : ByteStep i b s u := by
  cases h

theorem mix_internal {f : PermState → PermState} {i : Instr} (he : rawMix i = some f) {s : State} (u : State)
    (h : atExec (mixAndFinish f) s = .next u) : InternalStep i s u := by
  obtain ⟨hp, h⟩ := atExec_next h
  obtain ⟨l, rfl⟩ := mixAndFinish_next h
  exact .mix f he hp l

theorem emit_internal {f : PermState → PermState} {i : Instr} (he : rawEmit i = some f) {s : State} (u : State)
    (h : atExec (emitAndFinish f) s = .next u) : InternalStep i s u := by
  obtain ⟨hp, h⟩ := atExec_next h
  rcases emitAndFinish_next h with ⟨d, rfl⟩ | ⟨d, l, rfl⟩
  · exact .held (.emit hp f he d)
  · exact .emit f he hp d l

/-- Everything `exec` can do when it answers a next state. -/
theorem exec_next {i : Instr} {s t : State} (h : exec i s = .next t) : Transition i s t := by
  cases i with
  | init =>
    refine transition_next noByte_next (fun u hu => ?_) h
    obtain ⟨hp, hu⟩ := atExec_next hu
    obtain rfl := next_inj hu
    have := InternalStep.init (i := .init) rfl hp
    exact this
  | update => exact transition_next noByte_next (mix_internal rfl) h
  | output => exact transition_next noByte_next (emit_internal rfl) h
  | crush => exact transition_next noByte_next (mix_internal rfl) h
  | whip => exact transition_next noByte_next (mix_internal rfl) h
  | shuffle => exact transition_next noByte_next (mix_internal rfl) h
  | absorbNibble imm8 => exact transition_next noByte_next (mix_internal rfl) h
  | absorbByte b => exact transition_next noByte_next (mix_internal rfl) h
  | absorbStop => exact transition_next noByte_next (mix_internal rfl) h
  | drip => exact transition_next noByte_next (emit_internal rfl) h
  | absorb =>
    refine transition_next (fun _ _ => absorbDin_next) (fun u hu => ?_) h
    unfold absorbInternal at hu
    split at hu
    · obtain rfl := next_inj hu
      exact .opened rfl ‹_›
    · rename_i hp
      rcases whenTaken_next hu with ⟨c, hu⟩ | ⟨c, rfl⟩
      · obtain rfl := next_inj hu
        rw [finish_false]
        exact .absorbDone rfl hp c
      · exact .held (.msg hp c)
    all_goals cases hu
  | squeeze =>
    refine transition_next noByte_next (fun u hu => ?_) h
    unfold squeezeInternal at hu
    split at hu
    · rename_i hp
      obtain ⟨l, rfl⟩ := mixAndGo_next hu
      exact .mixed _ _ (by simp only [mixStep, hp]) l
    · exact squeezeStep_internal ‹_› (.inl ⟨rfl, rfl⟩) hu
    all_goals cases hu
  | hash =>
    refine transition_next (fun _ _ => absorbDin_next) (fun u hu => ?_) h
    unfold hashInternal at hu
    split at hu
    · obtain rfl := next_inj hu
      exact .start _ rfl ‹_›
    · rename_i hp
      rcases whenTaken_next hu with ⟨c, hu⟩ | ⟨c, rfl⟩
      · obtain ⟨l, rfl⟩ := mixAndGo_next hu
        exact .mixed _ _ (by simp only [mixStep, hp, c]) l
      · exact .held (.msg hp c)
    · exact squeezeStep_internal ‹_› (.inr ⟨rfl, .inl rfl⟩) hu
    all_goals cases hu
  | stream =>
    refine transition_next (fun _ _ => absorbDin_next) (fun u hu => ?_) h
    unfold streamInternal at hu
    split at hu
    · obtain rfl := next_inj hu
      exact .start _ rfl ‹_›
    · rename_i hp
      rcases whenTaken_next hu with ⟨c, hu⟩ | ⟨c, rfl⟩
      · obtain ⟨l, rfl⟩ := mixAndGo_next hu
        exact .mixed _ _ (by simp only [mixStep, hp, c]) l
      · exact .held (.key hp c)
    · exact squeezeStep_internal ‹_› (.inr ⟨rfl, .inr (.inl rfl)⟩) hu
    all_goals cases hu
  | encrypt =>
    refine transition_next (fun b u hu => ?_) (fun u hu => cryptInternal_next (.inl rfl) hu) h
    rcases cryptDin_next (i := .encrypt) hu with ⟨hp, l, rfl⟩ | hu
    · exact .encrypted rfl hp l
    · exact hu
  | decrypt =>
    refine transition_next (fun b u hu => ?_) (fun u hu => cryptInternal_next (.inr rfl) hu) h
    rcases cryptDin_next (i := .decrypt) hu with ⟨hp, l, rfl⟩ | hu
    · exact .decrypted rfl hp l
    · exact hu
  | auth =>
    refine transition_next (fun _ _ => absorbDin_next) (fun u hu => ?_) h
    unfold authInternal at hu
    split at hu
    · obtain rfl := next_inj hu
      exact .start _ rfl ‹_›
    · rename_i hp
      rcases whenTaken_next hu with ⟨c, hu⟩ | ⟨c, rfl⟩
      · obtain ⟨l, rfl⟩ := mixAndGo_next hu
        exact .mixed _ _ (by simp only [mixStep, hp, c]) l
      · exact .held (.key hp c)
    · rename_i hp
      rcases whenTaken_next hu with ⟨c, hu⟩ | ⟨c, rfl⟩
      · obtain ⟨l, rfl⟩ := mixAndGo_next hu
        exact .mixed _ _ (by simp only [mixStep, hp, c]) l
      · exact .held (.msg hp c)
    · exact squeezeStep_internal ‹_› (.inr ⟨rfl, .inr (.inr rfl)⟩) hu
    all_goals cases hu
  | erase =>
    refine transition_next noByte_next (fun u hu => ?_) h
    obtain ⟨hp, hu⟩ := atExec_next hu
    obtain rfl := next_inj hu
    rw [finish_true]
    exact .erase rfl hp

end Sys2Proof.Machine
end

