-- ==== Sys2Proof/Laws/Forward.lean ====
section
/-! SUPPORT. The forward direction of Laws/Exec.lean: what each shared operation answers, under hypotheses on the state it
is given. A proof that an instruction completes rewrites with these and never unfolds a mixing operation. -/

namespace Sys2Proof.Machine

theorem onLive_of_live {s t : State} (l : s.live = true) : onLive s t = .next t := by
  unfold onLive; rw [if_pos l]

theorem release_of_none {s : State} (h : s.port = .none) : s.release = s := by
  cases s; cases h; rfl

/-! ### By the access served -/

variable {i : Instr} {consume : Byte → State → Result} {internal : State → Result} {s : State}

theorem transition_internal (h : s.port = .none) : transition i consume internal s = internal s := by
  unfold transition; rw [h]

theorem transition_cmd_idle (h : s.port = .cmd) (b : s.busy = false) :
    transition i consume internal s = .next (s.release.issue i) := by
  unfold transition
  rw [h]
  show Host.Outcome.next _ = _
  rw [if_neg (by rw [b]; exact Bool.false_ne_true)]

theorem transition_cmd_busy (h : s.port = .cmd) (b : s.busy = true) :
    transition i consume internal s = .next s.release := by
  unfold transition
  rw [h]
  show Host.Outcome.next _ = _
  rw [if_pos b]

theorem transition_din_taken {v : Byte} (h : s.port = .din v) (d : dinReq s = true) :
    transition i consume internal s = consume v s.release := by
  unfold transition
  rw [h]
  show (if dinReq s = true then _ else _) = _
  rw [if_pos d]

theorem transition_din_lost {v : Byte} (h : s.port = .din v) (d : dinReq s = false) :
    transition i consume internal s = .next s.release := by
  unfold transition
  rw [h]
  show (if dinReq s = true then _ else _) = _
  rw [if_neg (by rw [d]; exact Bool.false_ne_true)]

/-! ### Every command, by the access served -/

/-- Every meaning is a `transition` of its command. -/
theorem exec_transition (i : Instr) : ∃ consume internal, ∀ s : State,
    exec i s = transition i consume internal s := by
  cases i <;> exact ⟨_, _, fun _ => rfl⟩

theorem exec_cmd_idle (i : Instr) (h : s.port = .cmd) (b : s.busy = false) :
    exec i s = .next (s.release.issue i) := by
  obtain ⟨c, n, e⟩ := exec_transition i
  rw [e, transition_cmd_idle h b]

theorem exec_cmd_busy (i : Instr) (h : s.port = .cmd) (b : s.busy = true) : exec i s = .next s.release := by
  obtain ⟨c, n, e⟩ := exec_transition i
  rw [e, transition_cmd_busy h b]

theorem exec_din_lost (i : Instr) {v : Byte} (h : s.port = .din v) (d : dinReq s = false) :
    exec i s = .next s.release := by
  obtain ⟨c, n, e⟩ := exec_transition i
  rw [e, transition_din_lost h d]

/-! ### Internal steps -/

theorem atExec_of_exec {work : State → Result} (h : s.phase = .exec) : atExec work s = work s := by
  unfold atExec; rw [h]

theorem mixAndFinish_of_live {f : PermState → PermState} (l : s.live = true) :
    mixAndFinish f s = .next (s.completed (f s.ps)) := by
  unfold mixAndFinish; rw [onLive_of_live l, finish_false_ps]

theorem emitAndFinish_of_full {f : PermState → PermState} (d : s.doutValid = true) : emitAndFinish f s = .next s := by
  unfold emitAndFinish; rw [if_pos d]

theorem emitAndFinish_of_empty {f : PermState → PermState} (d : s.doutValid = false) (l : s.live = true) :
    emitAndFinish f s = .next ((s.completed (f s.ps)).doutPut (f s.ps).Z) := by
  unfold emitAndFinish
  rw [if_neg (by rw [d]; exact Bool.false_ne_true), onLive_of_live l]
  generalize f s.ps = q
  cases s; rfl

theorem mixAndGo_of_live {f : PermState → PermState} {p : Phase} (l : s.live = true) :
    mixAndGo f p s = .next { s with ps := f s.ps, phase := p } := by
  unfold mixAndGo; rw [onLive_of_live l]

theorem whenTaken_zero {c : Word} {next : State → Result} (h : c = 0#32) : whenTaken c next s = next s := by
  unfold whenTaken; rw [if_pos h]

theorem whenTaken_ne {c : Word} {next : State → Result} (h : c ≠ 0#32) : whenTaken c next s = .next s := by
  unfold whenTaken; rw [if_neg h]

theorem squeezeStep_done {e : Bool} (c : s.cOut = 0#32) : squeezeStep e s = .next (s.finish e) := by
  unfold squeezeStep; rw [if_pos c]

theorem squeezeStep_full {e : Bool} (c : s.cOut ≠ 0#32) (d : s.doutValid = true) : squeezeStep e s = .next s := by
  unfold squeezeStep; rw [if_neg c, if_pos d]

theorem squeezeStep_empty {e : Bool} (c : s.cOut ≠ 0#32) (d : s.doutValid = false) (l : s.live = true) :
    squeezeStep e s = .next ({ s with ps := s.ps.drip, cOut := s.cOut - 1#32 }.doutPut s.ps.drip.Z) := by
  unfold squeezeStep
  rw [if_neg c, if_neg (by rw [d]; exact Bool.false_ne_true), onLive_of_live l]

theorem cryptDripStep_done (c : s.cMsg = 0#32) : cryptDripStep s = .next s.completedErased := by
  unfold cryptDripStep; rw [if_pos c, finish_true]

theorem cryptDripStep_drips (c : s.cMsg ≠ 0#32) (l : s.live = true) :
    cryptDripStep s = .next { s with ps := s.ps.drip, phase := .cryptXfer } := by
  unfold cryptDripStep; rw [if_neg c, onLive_of_live l]

/-! ### The internal steps of the streaming commands, phase by phase (R87, R91 to R95) -/

theorem absorbInternal_exec (h : s.phase = .exec) :
    absorbInternal s = .next { s with phase := .absMsg } := by unfold absorbInternal; rw [h]

theorem absorbInternal_absMsg (h : s.phase = .absMsg) :
    absorbInternal s = whenTaken s.cMsg (fun s => .next (s.finish false)) s := by unfold absorbInternal; rw [h]

theorem squeezeInternal_exec (h : s.phase = .exec) :
    squeezeInternal s = mixAndGo PermState.flush .squeeze s := by unfold squeezeInternal; rw [h]

theorem squeezeInternal_squeeze (h : s.phase = .squeeze) :
    squeezeInternal s = squeezeStep false s := by unfold squeezeInternal; rw [h]

theorem hashInternal_exec (h : s.phase = .exec) :
    hashInternal s = startHigh .absMsg s := by unfold hashInternal; rw [h]

theorem hashInternal_absMsg (h : s.phase = .absMsg) :
    hashInternal s = whenTaken s.cMsg (mixAndGo (sealLength (lowByte s.cOut)) .squeeze)
      s := by unfold hashInternal; rw [h]

theorem hashInternal_squeeze (h : s.phase = .squeeze) :
    hashInternal s = squeezeStep true s := by unfold hashInternal; rw [h]

theorem streamInternal_exec (h : s.phase = .exec) :
    streamInternal s = startHigh .absKey s := by unfold streamInternal; rw [h]

theorem streamInternal_absKey (h : s.phase = .absKey) :
    streamInternal s = whenTaken s.cKey (mixAndGo PermState.flush .squeeze) s := by unfold streamInternal; rw [h]

theorem streamInternal_squeeze (h : s.phase = .squeeze) :
    streamInternal s = squeezeStep true s := by unfold streamInternal; rw [h]

theorem authInternal_exec (h : s.phase = .exec) :
    authInternal s = startHigh .absKey s := by unfold authInternal; rw [h]

theorem authInternal_absKey (h : s.phase = .absKey) :
    authInternal s = whenTaken s.cKey (mixAndGo PermState.absorbStop .absMsg) s := by unfold authInternal; rw [h]

theorem authInternal_absMsg (h : s.phase = .absMsg) :
    authInternal s = whenTaken s.cMsg (mixAndGo (sealLength (lowByte s.cOut)) .squeeze)
      s := by unfold authInternal; rw [h]

theorem authInternal_squeeze (h : s.phase = .squeeze) :
    authInternal s = squeezeStep true s := by unfold authInternal; rw [h]

theorem cryptInternal_exec (h : s.phase = .exec) :
    cryptInternal s = startHigh .absKey s := by unfold cryptInternal; rw [h]

theorem cryptInternal_absKey (h : s.phase = .absKey) :
    cryptInternal s = whenTaken s.cKey (mixAndGo PermState.absorbStop .absNonce) s := by unfold cryptInternal; rw [h]

theorem cryptInternal_absNonce (h : s.phase = .absNonce) :
    cryptInternal s = whenTaken s.cNonce (fun s => .next { s with phase := .cryptDrip })
      s := by unfold cryptInternal; rw [h]

theorem cryptInternal_cryptDrip (h : s.phase = .cryptDrip) :
    cryptInternal s = cryptDripStep s := by unfold cryptInternal; rw [h]

theorem cryptInternal_cryptXfer (h : s.phase = .cryptXfer) :
    cryptInternal s = .next s := by unfold cryptInternal; rw [h]

/-! ### Consumed bytes -/

theorem absorbDin_key {b : Byte} (h : s.phase = .absKey) (l : s.live = true) :
    absorbDin b s = .next { s with ps := s.ps.absorbByte b, cKey := s.cKey - 1#32 } := by
  unfold absorbDin; rw [h]; exact onLive_of_live l

theorem absorbDin_nonce {b : Byte} (h : s.phase = .absNonce) (l : s.live = true) :
    absorbDin b s = .next { s with ps := s.ps.absorbByte b, cNonce := s.cNonce - 1#32 } := by
  unfold absorbDin; rw [h]; exact onLive_of_live l

theorem absorbDin_msg {b : Byte} (h : s.phase = .absMsg) (l : s.live = true) :
    absorbDin b s = .next { s with ps := s.ps.absorbByte b, cMsg := s.cMsg - 1#32 } := by
  unfold absorbDin; rw [h]; exact onLive_of_live l

theorem cryptDin_xfer {combine : Byte → Byte → Byte} {b : Byte} (h : s.phase = .cryptXfer) (l : s.live = true) :
    cryptDin combine b s =
      .next ({ s with cMsg := s.cMsg - 1#32, phase := .cryptDrip }.doutPut (combine b s.ps.Z)) := by
  unfold cryptDin; rw [h]; exact onLive_of_live l

theorem cryptDin_key {combine : Byte → Byte → Byte} {b : Byte} (h : s.phase = .absKey) :
    cryptDin combine b s = absorbDin b s := by
  unfold cryptDin; rw [h]

theorem cryptDin_nonce {combine : Byte → Byte → Byte} {b : Byte} (h : s.phase = .absNonce) :
    cryptDin combine b s = absorbDin b s := by
  unfold cryptDin; rw [h]

/-! ### `DIN_REQ` (R25) -/

theorem dinReq_iff (s : State) : dinReq s = true ↔ s.busy = true ∧
    ((s.phase = .absKey ∧ s.cKey ≠ 0#32) ∨ (s.phase = .absNonce ∧ s.cNonce ≠ 0#32) ∨
      (s.phase = .absMsg ∧ s.cMsg ≠ 0#32) ∨ (s.phase = .cryptXfer ∧ s.doutValid = false)) := by
  unfold dinReq
  cases s.phase <;> simp

theorem dinReq_of (hb : s.busy = true)
    (h : (s.phase = .absKey ∧ s.cKey ≠ 0#32) ∨ (s.phase = .absNonce ∧ s.cNonce ≠ 0#32) ∨
      (s.phase = .absMsg ∧ s.cMsg ≠ 0#32) ∨ (s.phase = .cryptXfer ∧ s.doutValid = false)) : dinReq s = true :=
  (dinReq_iff s).2 ⟨hb, h⟩

theorem dinReq_false_of_idle (h : s.busy = false) : dinReq s = false := by
  unfold dinReq; rw [h, Bool.false_and]

/-! ### The CMD write (R81) -/

theorem issue_illegal (h : i.wf = false) : s.issue i = { s with errCode := .illegal } := by
  unfold State.issue; rw [if_pos h]; rfl

theorem issue_noState (h : i.wf = true) (n : needsLive i = true) (l : s.live = false) :
    s.issue i = { s with errCode := .noState } := by
  unfold State.issue
  rw [if_neg (by rw [h]; exact Bool.noConfusion), if_pos (by rw [n, l]; rfl)]
  rfl

theorem issue_len (h : i.wf = true) (n : needsLive i = false) (c : checksOutLen i = true)
    (o : Config.outLenMax < s.outLen) :
    s.issue i = { s with errCode := .len, ps := PermState.erased, live := false } := by
  unfold State.issue
  rw [if_neg (by rw [h]; exact Bool.noConfusion), if_neg (by rw [n]; exact Bool.noConfusion),
    if_pos (by rw [c, decide_eq_true o]; rfl)]
  rfl

theorem issue_accept (h : i.wf = true) (n : needsLive i = true → s.live = true)
    (c : checksOutLen i = true → ¬ Config.outLenMax < s.outLen) : s.issue i = s.accept i := by
  unfold State.issue
  rw [if_neg (by rw [h]; exact Bool.noConfusion), if_neg, if_neg]
  · intro hc
    rw [Bool.and_eq_true, decide_eq_true_eq] at hc
    exact c hc.1 hc.2
  · intro hn
    rw [Bool.and_eq_true, Bool.not_eq_true'] at hn
    have := n hn.1
    rw [hn.2] at this
    cases this

end Sys2Proof.Machine
end

