-- ==== Sys2Proof/Laws/Step.lean ====
section
/-! SUPPORT. What a step is, by the event it takes (forward lemmas), and everything an event can do when it answers a next
state (`takeEvent_next`, an inversion lemma over `EventStep`). -/

namespace Sys2Proof.Machine

variable {s t : State} {i : Instr} {p : Port} {w v : Word} {e : Event} {rest : List Event}

@[simp] theorem step_cons (s : State) (e : Event) (rest : List Event) :
    step { s with agenda := e :: rest } = takeEvent e { s with agenda := rest } := rfl

theorem step_of_cons (h : s.agenda = e :: rest) : step s = takeEvent e { s with agenda := rest } := by
  unfold step nextTransition; rw [h]

theorem step_of_nil (h : s.agenda = []) : step s = takeEvent .engine s := by
  unfold step nextTransition; rw [h]

/-! ### The engine's turn and the two ports -/

theorem runCurrent_idle (b : s.busy = false) : runCurrent p s = .next s.release := by
  unfold runCurrent; rw [if_neg (by rw [b]; exact Bool.false_ne_true)]

theorem runCurrent_running (h : s.Running i) : runCurrent p s = exec i { s with port := p } := by
  unfold runCurrent; rw [if_pos h.1, h.2]

theorem writeCmd_ok (h : decode w = .ok i) : writeCmd w s = exec i { s with port := .cmd } := by
  unfold writeCmd; rw [h]

theorem writeCmd_error {r : DecodeError} (h : decode w = .error r) :
    writeCmd w s = .next (if s.busy then s.release else s.release.reject .illegal) := by
  unfold writeCmd; rw [h]

theorem takeEvent_engine (s : State) : takeEvent .engine s = runCurrent .none s := rfl

theorem takeEvent_cmd (s : State) (w : Word) : takeEvent (.write 0x00 4 w) s = writeCmd w s := rfl

theorem takeEvent_din (s : State) (v : Word) :
    takeEvent (.write 0x18 4 v) s = runCurrent (.din (lowByte v)) s := rfl

theorem takeEvent_read {o n : Nat} (h : accessOk o n = true) (s : State) :
    takeEvent (.read o n) s = .next (readReg o s) := by
  show (if accessOk o n = true then _ else _) = _
  rw [if_pos h]

theorem takeEvent_write {o n : Nat} (h : accessOk o n = true) (s : State) :
    takeEvent (.write o n v) s = writeReg (hostReg o) v s := by
  show (if accessOk o n = true then _ else _) = _
  rw [if_pos h]

theorem takeEvent_write_refused {o n : Nat} (h : ¬ accessOk o n = true) (s : State) :
    takeEvent (.write o n v) s = .refused .accessShape := by
  show (if accessOk o n = true then _ else _) = _
  rw [if_neg h]

theorem takeEvent_read_refused {o n : Nat} (h : ¬ accessOk o n = true) (s : State) :
    takeEvent (.read o n) s = .refused .accessShape := by
  show (if accessOk o n = true then _ else _) = _
  rw [if_neg h]

theorem hostReg_eq_cmd {o : Nat} (h : hostReg o = some .cmd) : o = 0x00 := by
  unfold hostReg at h; repeat (split at h; first | assumption | cases h)
  cases h

theorem hostReg_eq_din {o : Nat} (h : hostReg o = some .din) : o = 0x18 := by
  unfold hostReg at h; repeat (split at h; first | assumption | cases h)
  cases h

theorem hostReg_eq_dout {o : Nat} (h : hostReg o = some .dout) : o = 0x1C := by
  unfold hostReg at h; repeat (split at h; first | assumption | cases h)
  cases h

/-- A CMD write of a command word while the engine waits, between two transitions (R81). -/
theorem writeCmd_idle {u : State} (h : decode w = .ok i) (p : u.port = .none) (b : u.busy = false) :
    writeCmd w u = .next (u.issue i) := by
  rw [writeCmd_ok h]
  have e := exec_cmd_idle i (s := { u with port := .cmd }) rfl b
  have k : State.release { u with port := .cmd } = u := by cases u; cases p; rfl
  rw [k] at e
  exact e

theorem issue_agenda (i : Instr) (s : State) : (s.issue i).agenda = s.agenda := by
  have h := issue_cases i s
  generalize s.issue i = t at h
  cases h <;> rfl

theorem outLenMax_lt (w : Word) : Config.outLenMax < w ↔ 255 < w.toNat := by rw [BitVec.lt_def]; rfl

/-! ### Everything an event can do -/

/-- The transition an event makes of a state whose agenda it has left. -/
inductive EventStep (s : State) : Event → State → Prop
  | waits (b : s.busy = false) : EventStep s .engine s.release
  | turn {t : State} (i : Instr) (h : s.Running i) (r : exec i { s with port := .none } = .next t) :
      EventStep s .engine t
  | command {t : State} (w : Word) (i : Instr) (d : decode w = .ok i) (r : exec i { s with port := .cmd } = .next t) :
      EventStep s (.write 0x00 4 w) t
  | badBusy (w : Word) (r : DecodeError) (d : decode w = .error r) (b : s.busy = true) :
      EventStep s (.write 0x00 4 w) s.release
  | badIdle (w : Word) (r : DecodeError) (d : decode w = .error r) (b : s.busy = false) :
      EventStep s (.write 0x00 4 w) (s.release.reject .illegal)
  | byte {t : State} (v : Word) (i : Instr) (h : s.Running i)
      (r : exec i { s with port := .din (lowByte v) } = .next t) : EventStep s (.write 0x18 4 v) t
  | byteLost (v : Word) (b : s.busy = false) : EventStep s (.write 0x18 4 v) s.release
  | keyLen (v : Word) : EventStep s (.write 0x08 4 v) { s with keyLen := v }
  | nonceLen (v : Word) : EventStep s (.write 0x0C 4 v) { s with nonceLen := v }
  | msgLen (v : Word) : EventStep s (.write 0x10 4 v) { s with msgLen := v }
  | outLen (v : Word) : EventStep s (.write 0x14 4 v) { s with outLen := v }
  | ignored (o : Nat) (v : Word) (hc : o ≠ 0x00) (hd : o ≠ 0x18)
      (h : hostReg o = some .status ∨ hostReg o = some .dout ∨ hostReg o = none) : EventStep s (.write o 4 v) s
  | read (o : Nat) (h : o % 4 = 0) : EventStep s (.read o 4) (readReg o s)
  | reset : EventStep s .reset s.applyReset

theorem accessOk_iff {o n : Nat} : accessOk o n = true ↔ n = 4 ∧ o % 4 = 0 := by
  simp [accessOk]

theorem runCurrent_next (h : runCurrent p s = .next t) :
    (s.busy = false ∧ t = s.release) ∨ ∃ i, s.Running i ∧ exec i { s with port := p } = .next t := by
  unfold runCurrent at h
  split at h
  · split at h
    · exact .inr ⟨_, ⟨‹_›, ‹_›⟩, h⟩
    · cases h
  · exact .inl ⟨by simpa using ‹¬ s.busy = true›, next_inj h⟩

theorem writeCmd_next (h : writeCmd w s = .next t) : EventStep s (.write 0x00 4 w) t := by
  unfold writeCmd at h
  split at h
  · exact .command _ _ ‹_› h
  · obtain rfl := next_inj h
    split
    · exact .badBusy _ _ ‹_› ‹_›
    · exact .badIdle _ _ ‹_› (by simpa using ‹¬ s.busy = true›)

theorem writeReg_next {o : Nat} (h : writeReg (hostReg o) v s = .next t) : EventStep s (.write o 4 v) t := by
  unfold hostReg at h
  by_cases e : o = 0x00
  · rw [if_pos e] at h; subst e; exact writeCmd_next h
  rw [if_neg e] at h
  by_cases e1 : o = 0x04
  · rw [if_pos e1] at h; subst e1; obtain rfl := next_inj h; exact .ignored _ _ e (by decide) (.inl rfl)
  rw [if_neg e1] at h
  by_cases e2 : o = 0x08
  · rw [if_pos e2] at h; subst e2; obtain rfl := next_inj h; exact .keyLen _
  rw [if_neg e2] at h
  by_cases e3 : o = 0x0C
  · rw [if_pos e3] at h; subst e3; obtain rfl := next_inj h; exact .nonceLen _
  rw [if_neg e3] at h
  by_cases e4 : o = 0x10
  · rw [if_pos e4] at h; subst e4; obtain rfl := next_inj h; exact .msgLen _
  rw [if_neg e4] at h
  by_cases e5 : o = 0x14
  · rw [if_pos e5] at h; subst e5; obtain rfl := next_inj h; exact .outLen _
  rw [if_neg e5] at h
  by_cases e6 : o = 0x18
  · rw [if_pos e6] at h; subst e6
    rcases runCurrent_next h with ⟨b, rfl⟩ | ⟨i, hr, h⟩
    · exact .byteLost _ b
    · exact .byte _ i hr h
  rw [if_neg e6] at h
  by_cases e7 : o = 0x1C
  · rw [if_pos e7] at h; subst e7; obtain rfl := next_inj h; exact .ignored _ _ e e6 (.inr (.inl rfl))
  rw [if_neg e7] at h
  obtain rfl := next_inj h
  refine .ignored _ _ e e6 (.inr (.inr ?_))
  unfold hostReg
  rw [if_neg e, if_neg e1, if_neg e2, if_neg e3, if_neg e4, if_neg e5, if_neg e6, if_neg e7]

theorem takeEvent_next (h : takeEvent e s = .next t) : EventStep s e t := by
  cases e with
  | engine =>
    rcases runCurrent_next h with ⟨b, rfl⟩ | ⟨i, hr, h⟩
    · exact .waits b
    · exact .turn i hr h
  | write o n v =>
    by_cases ha : accessOk o n = true
    · rw [takeEvent_write ha] at h
      obtain ⟨rfl, -⟩ := accessOk_iff.1 ha
      exact writeReg_next h
    · rw [takeEvent_write_refused ha] at h; cases h
  | read o n =>
    by_cases ha : accessOk o n = true
    · rw [takeEvent_read ha] at h
      obtain ⟨rfl, ho⟩ := accessOk_iff.1 ha
      obtain rfl := next_inj h
      exact .read o ho
    · rw [takeEvent_read_refused ha] at h; cases h
  | reset =>
    obtain rfl := next_inj h
    exact .reset

end Sys2Proof.Machine
end

