-- ==== Sys2Proof/Laws/Invariant.lean ====
section
/-! SUPPORT. The machine's invariant (`State.Inv`, Safety.lean), piece by piece: which kinds of state meet it, and that the
internal steps, the consumed bytes and acceptance keep it. -/

namespace Sys2Proof.Machine

theorem inv_completed {s : State} (h : s.Inv) {q : PermState} (hq : s.live = true → q.LiveInv) (hq' :
    s.live = false → q = PermState.erased) : (s.completed q).Inv := by
  refine ⟨hq, hq', h.port, h.dout, ?_, ?_, ?_, ?_⟩
  · intro _; exact ⟨rfl, rfl, rfl, rfl, rfl, rfl, rfl⟩
  · intro h; cases h
  · intro h; cases h
  · intro h; cases h

theorem inv_completedErased {s : State} (h : s.Inv) : s.completedErased.Inv := by
  refine ⟨?_, fun _ => rfl, h.port, h.dout, ?_, ?_, ?_, ?_⟩
  · intro h; cases h
  · intro _; exact ⟨rfl, rfl, rfl, rfl, rfl, rfl, rfl⟩
  · intro h; cases h
  · intro h; cases h
  · intro h; cases h

theorem inv_doutPut {s : State} (h : s.Inv) (v : Byte) : (s.doutPut v).Inv := by
  refine ⟨h.live, h.erased, h.port, ?_, h.idle, h.running, h.xfer, h.squeeze⟩
  intro hd; cases hd

theorem inv_errCode {s : State} (h : s.Inv) (e : ErrCode) : State.Inv { s with errCode := e } :=
  ⟨h.live, h.erased, h.port, h.dout, h.idle, h.running, h.xfer, h.squeeze⟩

/-- `OP` and `IMM` of a state whose command is `i` (R20). -/
theorem State.Running.op_imm {s : State} {i : Instr} (r : s.Running i) : s.op = i.opcode ∧ s.imm = i.imm8 := by
  have h := r.2
  rw [decode_commandWord] at h
  obtain ⟨a, b, _⟩ := decodeFields_eq_ok h
  exact ⟨a, b⟩

theorem running_unique {s : State} {i j : Instr} (h : s.Running i) (k : s.Running j) : i = j := by
  have := h.2.symm.trans k.2
  injection this

/-- What the invariant says of the command in progress. -/
theorem State.Running.inv {s : State} {i : Instr} (r : s.Running i) (h : s.Inv) : s.phase ∈ pathOf i ∧
    (s.phase = .exec → needsLive i = true → s.live = true) ∧ (s.phase ≠ .exec → s.live = true) ∧
    (checksOutLen i = true → s.cOut.toNat ≤ 255) := by
  obtain ⟨j, r', h'⟩ := h.running r.1
  obtain rfl := running_unique r r'
  exact h'

/-- A state in the middle of its command: everything the invariant asks of it, with the command it is in. -/
theorem inv_mid {s t : State} (h : s.Inv) {i : Instr} (r : s.Running i)
    (hb : t.busy = s.busy) (ho : t.op = s.op) (hi : t.imm = s.imm) (hport : t.port = s.port)
    (hl : t.live = true) (hps : t.ps.LiveInv) (hd : t.doutValid = false → t.doutByte = 0#8)
    (hph : t.phase ∈ pathOf i) (he : t.phase ≠ .exec) (hc : checksOutLen i = true → t.cOut.toNat ≤ 255)
    (hx : t.phase = .cryptXfer → t.cMsg ≠ 0#32) (hs : t.phase = .squeeze → t.ps.A = 0#8) : t.Inv := by
  refine ⟨fun _ => hps, fun h => ?_, hport.trans h.port, hd, fun h => ?_, fun _ => ⟨i, ⟨hb.trans r.1, ?_⟩, hph,
    fun e => absurd e he, fun _ => hl, hc⟩, hx, hs⟩
  · rw [hl] at h; cases h
  · rw [hb, r.1] at h; cases h
  · rw [ho, hi]; exact r.2

theorem cout_dec {c : Word} (h : c ≠ 0#32) (k : c.toNat ≤ 255) : (c - 1#32).toNat ≤ 255 := by
  have : c.toNat ≠ 0 := fun e => h (BitVec.eq_of_toNat_eq (by simpa using e))
  have := c.isLt
  rw [BitVec.toNat_sub]; simp; omega

theorem rawMix_live {i : Instr} {f} (h : rawMix i = some f) {p : PermState} (hp : p.LiveInv) : (f p).LiveInv := by
  cases i <;> simp only [rawMix, Option.some.injEq, reduceCtorEq] at h <;> subst h
  · exact hp.update
  · exact hp.crush
  · exact hp.whip
  · exact hp.shuffle
  · exact hp.absorbNibble _
  · exact hp.absorbByte _
  · exact hp.absorbStop

theorem rawEmit_live {i : Instr} {f} (h : rawEmit i = some f) {p : PermState} (hp : p.LiveInv) : (f p).LiveInv := by
  cases i <;> simp only [rawEmit, Option.some.injEq, reduceCtorEq] at h <;> subst h
  · exact hp.output
  · exact hp.drip

theorem mixStep_spec {i : Instr} {s : State} {c f p} (h : mixStep i s = some (c, f, p)) {q : PermState} (hq :
    q.LiveInv) :
    (f q).LiveInv ∧ p ∈ pathOf i ∧ p ≠ .exec ∧ p ≠ .cryptXfer ∧ (p = .squeeze → (f q).A = 0#8) := by
  unfold mixStep at h
  split at h <;> simp only [Option.some.injEq, Prod.mk.injEq, reduceCtorEq] at h <;> obtain ⟨-, rfl, rfl⟩ := h
  · exact ⟨hq.flush, by decide, by decide, by decide, fun _ => PermState.flush_A _⟩
  · exact ⟨hq.flush, by decide, by decide, by decide, fun _ => PermState.flush_A _⟩
  · exact ⟨hq.absorbStop, by decide, by decide, by decide, by intro h; cases h⟩
  · exact ⟨hq.absorbStop, by decide, by decide, by decide, by intro h; cases h⟩
  · exact ⟨hq.absorbStop, by decide, by decide, by decide, by intro h; cases h⟩
  · exact ⟨hq.sealLength _, by decide, by decide, by decide, fun _ => sealLength_A _ _⟩
  · exact ⟨hq.sealLength _, by decide, by decide, by decide, fun _ => sealLength_A _ _⟩

theorem internal_inv {i : Instr} {s t : State} (h : s.Inv) (r : s.Running i) (st : InternalStep i s t) : t.Inv := by
  obtain ⟨hph, hle, hln, hout⟩ := r.inv h
  cases st with
  | held _ => exact h
  | init e _ =>
    subst e
    have hq := PermState.LiveInv.initial
    generalize PermState.initial = q at hq
    refine ⟨fun _ => hq, fun h => ?_, h.port, h.dout, ?_, ?_, ?_, ?_⟩
    · cases h
    · intro _; exact ⟨rfl, rfl, rfl, rfl, rfl, rfl, rfl⟩
    all_goals (intro h; cases h)
  | mix f e hp l => exact inv_completed h (fun _ => rawMix_live e (h.live l)) (fun l' => by rw [l] at l'; cases l')
  | emit f e hp d l =>
    exact inv_doutPut (inv_completed h (fun _ => rawEmit_live e (h.live l)) (fun l' => by rw [l] at l'; cases l')) _
  | erase _ _ => exact inv_completedErased h
  | start p e hp =>
    have : p ∈ pathOf i ∧ p ≠ .exec ∧ p ≠ .cryptXfer ∧ p ≠ .squeeze := by
      cases i <;> simp only [startPhase, Option.some.injEq, reduceCtorEq] at e <;> subst e <;> decide
    exact inv_mid h r rfl rfl rfl rfl rfl PermState.LiveInv.initial h.dout this.1 this.2.1 hout
      (fun x => absurd x this.2.2.1) (fun x => absurd x this.2.2.2)
  | opened e hp =>
    subst e
    exact inv_mid h r rfl rfl rfl rfl (hle hp rfl) (h.live (hle hp rfl)) h.dout (by show Phase.absMsg ∈ _; decide)
      (by intro h; cases h) hout (by intro h; cases h) (by intro h; cases h)
  | mixed f p e l =>
    obtain ⟨a, b, c, d, k⟩ := mixStep_spec e (h.live l)
    exact inv_mid h r rfl rfl rfl rfl l a h.dout b c hout (fun x => absurd x d) k
  | nonceTaken e hp c =>
    have hl := hln (by rw [hp]; decide)
    refine inv_mid h r rfl rfl rfl rfl hl (h.live hl)
      h.dout (by show Phase.cryptDrip ∈ _; rcases e with rfl | rfl <;> decide)
      (by intro h; cases h) hout (by intro h; cases h) (by intro h; cases h)
  | dripped e hp c l =>
    refine inv_mid h r rfl rfl rfl rfl l (h.live l).drip h.dout (by show Phase.cryptXfer ∈ _; rcases e with rfl | rfl <;> decide)
      (by intro h; cases h) hout (fun _ => c) (by intro h; cases h)
  | cryptDone _ _ _ => exact inv_completedErased h
  | absorbDone _ _ _ => exact inv_completed h h.live h.erased
  | squeezed e hp c d l =>
    refine inv_mid h r rfl rfl rfl rfl l (h.live l).drip (by intro h; cases h) (by show s.phase ∈ _; exact hph)
      (by show s.phase ≠ _; rw [hp]; decide) (fun k => cout_dec c (hout k))
        (by show s.phase = _ → _; rw [hp]; intro h; cases h)
      (fun _ => PermState.drip_A _)
  | squeezeDone _ _ _ => exact inv_completed h h.live h.erased
  | outputDone _ _ _ => exact inv_completedErased h

theorem byte_inv {i : Instr} {b : Byte} {s t : State} (h : s.Inv) (r : s.Running i) (st : ByteStep i b s t) :
    t.Inv := by
  obtain ⟨hph, hle, hln, hout⟩ := r.inv h
  cases st with
  | key hp l =>
    exact inv_mid h r rfl rfl rfl rfl l ((h.live l).absorbByte b) h.dout hph (by show s.phase ≠ _; rw [hp]; decide)
      hout
      (by show s.phase = _ → _; rw [hp]; intro h; cases h) (by show s.phase = _ → _; rw [hp]; intro h; cases h)
  | nonce hp l =>
    exact inv_mid h r rfl rfl rfl rfl l ((h.live l).absorbByte b) h.dout hph (by show s.phase ≠ _; rw [hp]; decide)
      hout
      (by show s.phase = _ → _; rw [hp]; intro h; cases h) (by show s.phase = _ → _; rw [hp]; intro h; cases h)
  | msg hp l =>
    exact inv_mid h r rfl rfl rfl rfl l ((h.live l).absorbByte b) h.dout hph (by show s.phase ≠ _; rw [hp]; decide)
      hout
      (by show s.phase = _ → _; rw [hp]; intro h; cases h) (by show s.phase = _ → _; rw [hp]; intro h; cases h)
  | encrypted e hp l =>
    subst e
    exact inv_mid h r rfl rfl rfl rfl l (h.live l) (by intro h; cases h) (by show Phase.cryptDrip ∈ _; decide)
      (by intro h; cases h) hout (by intro h; cases h) (by intro h; cases h)
  | decrypted e hp l =>
    subst e
    exact inv_mid h r rfl rfl rfl rfl l (h.live l) (by intro h; cases h) (by show Phase.cryptDrip ∈ _; decide)
      (by intro h; cases h) hout (by intro h; cases h) (by intro h; cases h)

/-- An accepted command is in progress (R85). -/
theorem running_accept {i : Instr} (hw : i.wf = true) (s : State) : (s.accept i).Running i := by
  refine ⟨rfl, ?_⟩
  show decode (commandWord i.opcode i.imm8) = _
  rw [decode_commandWord, decodeFields_of_wf i hw]

theorem inv_accept {i : Instr} {s : State} (h : s.Inv) (hw : i.wf = true) (n : needsLive i = true → s.live = true)
      (c : checksOutLen i = true → s.outLen ≤ Config.outLenMax) : (s.accept i).Inv := by
  refine ⟨h.live, h.erased, h.port, h.dout, fun h => ?_, fun _ => ⟨i, ⟨rfl, ?_⟩, ?_, fun _ k => n k, fun k => ?_,
    fun k => ?_⟩, fun h => ?_, fun h => ?_⟩
  · cases h
  · show decode (commandWord i.opcode i.imm8) = _
    rw [decode_commandWord, decodeFields_of_wf i hw]
  · show Phase.exec ∈ _
    cases i <;> exact List.mem_cons_self
  · exact absurd rfl k
  · show s.outLen.toNat ≤ 255
    have := c k
    rw [BitVec.le_def] at this
    simpa [Config.outLenMax] using this
  · cases h
  · cases h

/-- Serving an access and then releasing the port gives the state between the transitions back. -/
theorem port_eta {s : State} (h : s.port = .none) (p : Port) : State.release { s with port := p } = s := by
  cases s; cases h; rfl

theorem port_eta' {s : State} (h : s.port = .none) : { s with port := .none } = s := by
  cases s; cases h; rfl

end Sys2Proof.Machine
end

