-- ==== Sys2Proof/Laws/Run.lean ====
section
/-! SUPPORT. Runs of several steps, one step at a time: for any machine, then for this one. -/

namespace Sys2Proof.Machine

theorem coreRun_succ (M : Host.Core) {s t : M.State} (k : Nat) (h : M.step s = .next t) :
    M.run (k + 1) s = M.run k t := by
  show (match M.step s with
    | .next u => M.run k u
    | .fault r => .fault r
    | .refused r => .refused r) = _
  rw [h]

theorem coreRun_succ_next (M : Host.Core) {s u : M.State} {k : Nat} (h : M.run (k + 1) s = .next u) :
    ∃ t, M.step s = .next t ∧ M.run k t = .next u := by
  change (match M.step s with
    | .next v => M.run k v
    | .fault r => .fault r
    | .refused r => .refused r) = _ at h
  split at h
  · exact ⟨_, ‹_›, h⟩
  · cases h
  · cases h

theorem run_zero (s : State) : Sys2Proof.core.run 0 s = .next s := rfl

theorem run_succ {s t : State} (k : Nat) (h : step s = .next t) :
    Sys2Proof.core.run (k + 1) s = Sys2Proof.core.run k t :=
  coreRun_succ Sys2Proof.core k h

/-- A run that reaches a state took a step that did. -/
theorem run_succ_next {s u : State} {k : Nat} (h : Sys2Proof.core.run (k + 1) s = .next u) :
    ∃ t, step s = .next t ∧ Sys2Proof.core.run k t = .next u :=
  coreRun_succ_next Sys2Proof.core h

end Sys2Proof.Machine
end

