-- ==== Sys2Proof/Laws/Scripts.lean ====
section
/-! SUPPORT. The big-step functions of Scripts.lean: what absorbing a list and dripping a number of bytes do to `A`, `W`
and `Z`, and that they can be cut into parts. -/

namespace Sys2Proof.Machine

/-! ### Absorbing a list (R132) -/

theorem absorb_snoc (data : List Byte) (b : Byte) (p : PermState) :
    p.absorb (data ++ [b]) = (p.absorb data).absorbByte b := by
  unfold PermState.absorb; rw [List.foldl_append]; rfl

theorem absorb_Z (data : List Byte) : ∀ p : PermState, (p.absorb data).Z = p.Z := by
  induction data with
  | nil => intro p; rfl
  | cons b r ih => intro p; rw [absorb_cons, ih, PermState.absorbByte_Z]

theorem makeRoom_W (p : PermState) : p.makeRoom.W = if p.A = Config.half then p.W + 6#8 else p.W := by
  unfold PermState.makeRoom; split
  · rw [PermState.shuffle_W]
  · rfl

/-- A byte absorbed at an even count: room for both its nibbles, or one shuffle before the first. -/
theorem absorbByte_even (p : PermState) (b : Byte) (k : Nat) (hk : p.A.toNat = 2 * k) (hle : k ≤ 64) :
    (k < 64 → (p.absorbByte b).A.toNat = 2 * k + 2 ∧ (p.absorbByte b).W = p.W) ∧
    (k = 64 → (p.absorbByte b).A.toNat = 2 ∧ (p.absorbByte b).W = p.W + 6#8) := by
  rw [PermState.absorbByte_eq, PermState.absorbNibble_A, PermState.absorbNibble_A, PermState.absorbNibble_W,
    makeRoom_W, PermState.absorbNibble_A, PermState.absorbNibble_W, makeRoom_W]
  constructor
  · intro h
    have h1 : p.A ≠ Config.half := fun e => by rw [e] at hk; simp [Config.half] at hk; omega
    have e1 : (p.A + 1#8).toNat = 2 * k + 1 := by rw [BitVec.toNat_add, hk]; simp; omega
    have h2 : p.A + 1#8 ≠ Config.half := fun e => by rw [e] at e1; simp [Config.half] at e1; omega
    rw [if_neg h1, if_neg h2, if_neg h1, if_neg h2]
    refine ⟨?_, rfl⟩
    rw [BitVec.toNat_add, e1]; simp; omega
  · intro h
    have h1 : p.A = Config.half := BitVec.eq_of_toNat_eq (by rw [hk, h]; rfl)
    rw [if_pos h1, if_pos h1, if_neg (by decide), if_neg (by decide)]
    exact ⟨rfl, rfl⟩

/-! ### Dripping a number of bytes (R141) -/

theorem drips_A (n : Nat) : ∀ p : PermState, p.A = 0#8 → (drips n p).A = 0#8 := by
  induction n with
  | zero => intro p h; exact h
  | succ n ih => intro p h; exact ih _ (PermState.drip_A p)

theorem dripBytes_add (n m : Nat) : ∀ p : PermState,
    dripBytes (n + m) p = dripBytes n p ++ dripBytes m (drips n p) := by
  induction n with
  | zero => intro p; rw [Nat.zero_add]; rfl
  | succ n ih =>
    intro p
    rw [show n + 1 + m = (n + m) + 1 by omega]
    show p.drip.Z :: dripBytes (n + m) p.drip = (p.drip.Z :: dripBytes n p.drip) ++ dripBytes m (drips n p.drip)
    rw [ih]; rfl

theorem dripBytes_length (n : Nat) : ∀ p, (dripBytes n p).length = n := by
  induction n with
  | zero => intro p; rfl
  | succ n ih => intro p; show (_ :: _).length = _; rw [List.length_cons, ih]

end Sys2Proof.Machine
end

