-- ==== Sys2Proof/Laws/Total.lean ====
section
/-! SUPPORT. When `exec` answers a next state: always for a CMD write, and for the engine's turn and a DIN write whenever
the command is at a phase of its path (spec/40_sequencer.md R100) and live where it must be. -/

namespace Sys2Proof.Machine

theorem transition_cmd_total {i consume internal} {s : State} (h : s.port = .cmd) : ∃ t,
    transition i consume internal s = .next t := by
  cases hb : s.busy
  · exact ⟨_, transition_cmd_idle h hb⟩
  · exact ⟨_, transition_cmd_busy h hb⟩

theorem transition_exec_total {i internal} {s : State} {p : Port} (hp : s.port = p) (he : s.phase = .exec) (hw : ∃ t,
    internal s = .next t) :
    ∃ t, transition i noByte (atExec internal) s = .next t := by
  cases p with
  | none => rw [transition_internal hp, atExec_of_exec he]; exact hw
  | cmd => exact transition_cmd_total hp
  | din b =>
    refine ⟨_, transition_din_lost hp ?_⟩
    cases hd : dinReq s
    · rfl
    · rw [dinReq_iff] at hd; simp [he] at hd

theorem emitAndFinish_total {f} {s : State} (l : s.live = true) : ∃ t, emitAndFinish f s = .next t := by
  cases hd : s.doutValid
  · exact ⟨_, emitAndFinish_of_empty hd l⟩
  · exact ⟨_, emitAndFinish_of_full hd⟩

theorem transition_total {i consume internal} {s : State} {p : Port} (hp : s.port = p) (hi : ∃ t,
    internal s = .next t)
    (hc : dinReq s = true → ∀ b, ∃ t, consume b s.release = .next t) :
    ∃ t, transition i consume internal s = .next t := by
  cases p with
  | none => rw [transition_internal hp]; exact hi
  | cmd => exact transition_cmd_total hp
  | din b =>
    cases hd : dinReq s
    · exact ⟨_, transition_din_lost hp hd⟩
    · rw [transition_din_taken hp hd]; exact hc hd b

theorem whenTaken_total {c : Word} {next} {s : State} (h : ∃ t, next s = Host.Outcome.next t) : ∃ t,
    whenTaken c next s = .next t := by
  by_cases hc : c = 0#32
  · rw [whenTaken_zero hc]; exact h
  · exact ⟨_, whenTaken_ne hc⟩

theorem squeezeStep_total {e} {s : State} (l : s.live = true) : ∃ t, squeezeStep e s = .next t := by
  by_cases hc : s.cOut = 0#32
  · exact ⟨_, squeezeStep_done hc⟩
  · cases hd : s.doutValid
    · exact ⟨_, squeezeStep_empty hc hd l⟩
    · exact ⟨_, squeezeStep_full hc hd⟩

theorem cryptDripStep_total {s : State} (l : s.live = true) : ∃ t, cryptDripStep s = .next t := by
  by_cases hc : s.cMsg = 0#32
  · exact ⟨_, cryptDripStep_done hc⟩
  · exact ⟨_, cryptDripStep_drips hc l⟩

theorem cryptInternal_total {s : State} (hph : s.phase ∈ pathOf .encrypt) (hl : s.phase ≠ .exec → s.live = true) :
    ∃ t, cryptInternal s = .next t := by
  simp only [pathOf, List.mem_cons, List.not_mem_nil, or_false] at hph
  rcases hph with h | h | h | h | h
  · exact ⟨_, cryptInternal_exec h⟩
  · rw [cryptInternal_absKey h]; exact whenTaken_total ⟨_, mixAndGo_of_live (hl (by rw [h]; decide))⟩
  · rw [cryptInternal_absNonce h]; exact whenTaken_total ⟨_, rfl⟩
  · rw [cryptInternal_cryptDrip h]; exact cryptDripStep_total (hl (by rw [h]; decide))
  · exact ⟨_, cryptInternal_cryptXfer h⟩

/-- A command in progress at a phase of its path never stops. -/
theorem exec_total {i : Instr} {s : State} (hph : s.phase ∈ pathOf i) (hle :
    s.phase = .exec → needsLive i = true → s.live = true)
    (hln : s.phase ≠ .exec → s.live = true) : ∃ t, exec i s = .next t := by
  have raw : pathOf i = [.exec] → needsLive i = true → s.phase = .exec ∧ s.live = true := by
    intro h n; rw [h] at hph; have := List.mem_singleton.1 hph; exact ⟨this, hle this n⟩
  have absb : ∀ b : Byte, ∀ u : State, (u.phase = .absKey ∨ u.phase = .absNonce ∨ u.phase = .absMsg)
    → u.live = true → ∃ t, absorbDin b u = .next t := by
    intro b u h l
    rcases h with h | h | h
    · exact ⟨_, absorbDin_key h l⟩
    · exact ⟨_, absorbDin_nonce h l⟩
    · exact ⟨_, absorbDin_msg h l⟩
  have cryptb : s.phase ∈ pathOf .encrypt → dinReq s = true → ∀ combine, ∀ b, ∃ t,
    cryptDin combine b s.release = .next t := by
    intro hph hd combine b
    rw [dinReq_iff] at hd
    obtain ⟨_, hd⟩ := hd
    simp only [pathOf, List.mem_cons, List.not_mem_nil, or_false] at hph
    rcases hd with ⟨h, _⟩ | ⟨h, _⟩ | ⟨h, _⟩ | ⟨h, _⟩
    · rw [cryptDin_key (s := s.release) h]; exact absb b _ (.inl h) (hln (by rw [h]; decide))
    · rw [cryptDin_nonce (s := s.release) h]; exact absb b _ (.inr (.inl h)) (hln (by rw [h]; decide))
    · simp [h] at hph
    · exact ⟨_, cryptDin_xfer (s := s.release) h (hln (by rw [h]; decide))⟩
  have absd : .cryptXfer ∉ pathOf i → dinReq s = true → ∀ b, ∃ t, absorbDin b s.release = .next t := by
    intro hx hd b
    rw [dinReq_iff] at hd
    obtain ⟨_, hd⟩ := hd
    rcases hd with ⟨h, _⟩ | ⟨h, _⟩ | ⟨h, _⟩ | ⟨h, _⟩
    · exact absb b _ (.inl h) (hln (by rw [h]; decide))
    · exact absb b _ (.inr (.inl h)) (hln (by rw [h]; decide))
    · exact absb b _ (.inr (.inr h)) (hln (by rw [h]; decide))
    · rw [h] at hph; exact absurd hph hx
  cases i with
  | init => exact transition_exec_total rfl (List.mem_singleton.1 hph) ⟨_, rfl⟩
  | erase => exact transition_exec_total rfl (List.mem_singleton.1 hph) ⟨_, rfl⟩
  | update | crush | whip | shuffle | absorbNibble | absorbByte | absorbStop =>
    obtain ⟨a, b⟩ := raw rfl rfl
    exact transition_exec_total rfl a ⟨_, mixAndFinish_of_live b⟩
  | output | drip =>
    obtain ⟨a, b⟩ := raw rfl rfl
    exact transition_exec_total rfl a (emitAndFinish_total b)
  | absorb =>
    refine transition_total rfl ?_ (absd (by decide))
    simp only [pathOf, List.mem_cons, List.not_mem_nil, or_false] at hph
    rcases hph with h | h
    · exact ⟨_, absorbInternal_exec h⟩
    · rw [absorbInternal_absMsg h]; exact whenTaken_total ⟨_, rfl⟩
  | squeeze =>
    refine transition_total rfl ?_ ?_
    · simp only [pathOf, List.mem_cons, List.not_mem_nil, or_false] at hph
      rcases hph with h | h
      · rw [squeezeInternal_exec h]; exact ⟨_, mixAndGo_of_live (hle h rfl)⟩
      · rw [squeezeInternal_squeeze h]; exact squeezeStep_total (hln (by rw [h]; decide))
    · intro hd; rw [dinReq_iff] at hd
      simp only [pathOf, List.mem_cons, List.not_mem_nil, or_false] at hph
      rcases hph with h | h <;> simp [h] at hd
  | hash =>
    refine transition_total rfl ?_ (absd (by decide))
    simp only [pathOf, List.mem_cons, List.not_mem_nil, or_false] at hph
    rcases hph with h | h | h
    · exact ⟨_, hashInternal_exec h⟩
    · rw [hashInternal_absMsg h]; exact whenTaken_total ⟨_, mixAndGo_of_live (hln (by rw [h]; decide))⟩
    · rw [hashInternal_squeeze h]; exact squeezeStep_total (hln (by rw [h]; decide))
  | stream =>
    refine transition_total rfl ?_ (absd (by decide))
    simp only [pathOf, List.mem_cons, List.not_mem_nil, or_false] at hph
    rcases hph with h | h | h
    · exact ⟨_, streamInternal_exec h⟩
    · rw [streamInternal_absKey h]; exact whenTaken_total ⟨_, mixAndGo_of_live (hln (by rw [h]; decide))⟩
    · rw [streamInternal_squeeze h]; exact squeezeStep_total (hln (by rw [h]; decide))
  | encrypt => exact transition_total rfl (cryptInternal_total hph hln) (fun hd => cryptb hph hd _)
  | decrypt => exact transition_total rfl (cryptInternal_total hph hln) (fun hd => cryptb hph hd _)
  | auth =>
    refine transition_total rfl ?_ (absd (by decide))
    simp only [pathOf, List.mem_cons, List.not_mem_nil, or_false] at hph
    rcases hph with h | h | h | h
    · exact ⟨_, authInternal_exec h⟩
    · rw [authInternal_absKey h]; exact whenTaken_total ⟨_, mixAndGo_of_live (hln (by rw [h]; decide))⟩
    · rw [authInternal_absMsg h]; exact whenTaken_total ⟨_, mixAndGo_of_live (hln (by rw [h]; decide))⟩
    · rw [authInternal_squeeze h]; exact squeezeStep_total (hln (by rw [h]; decide))

/-- A CMD write never stops. -/
theorem exec_cmd_total (i : Instr) (s : State) (h : s.port = .cmd) : ∃ t, exec i s = .next t := by
  cases i <;> exact transition_cmd_total h

/-! ### Which step it is -/

/-- In a hold, the engine's turn changes nothing. -/
theorem exec_of_holding {i : Instr} {s : State} (hp : s.port = .none) (hph : s.phase ∈ pathOf i) (h : Holding i s) :
    exec i s = .next s := by
  cases h with
  | key h c =>
    cases i <;> simp [pathOf, h] at hph <;> (refine (transition_internal hp).trans ?_)
    · rw [streamInternal_absKey h, whenTaken_ne c]
    · rw [cryptInternal_absKey h, whenTaken_ne c]
    · rw [cryptInternal_absKey h, whenTaken_ne c]
    · rw [authInternal_absKey h, whenTaken_ne c]
  | nonce h c =>
    cases i <;> simp [pathOf, h] at hph <;> (refine (transition_internal hp).trans ?_)
    · rw [cryptInternal_absNonce h, whenTaken_ne c]
    · rw [cryptInternal_absNonce h, whenTaken_ne c]
  | msg h c =>
    cases i <;> simp [pathOf, h] at hph <;> (refine (transition_internal hp).trans ?_)
    · rw [absorbInternal_absMsg h, whenTaken_ne c]
    · rw [hashInternal_absMsg h, whenTaken_ne c]
    · rw [authInternal_absMsg h, whenTaken_ne c]
  | xfer h =>
    cases i <;> simp [pathOf, h] at hph <;> (refine (transition_internal hp).trans ?_)
    · rw [cryptInternal_cryptXfer h]
    · rw [cryptInternal_cryptXfer h]
  | squeeze h c d =>
    cases i <;> simp [pathOf, h] at hph <;> (refine (transition_internal hp).trans ?_)
    · rw [squeezeInternal_squeeze h, squeezeStep_full c d]
    · rw [hashInternal_squeeze h, squeezeStep_full c d]
    · rw [streamInternal_squeeze h, squeezeStep_full c d]
    · rw [authInternal_squeeze h, squeezeStep_full c d]
  | emit h f e d =>
    cases i <;> simp only [rawEmit, reduceCtorEq] at e <;> (refine (transition_internal hp).trans ?_)
    · rw [atExec_of_exec h, emitAndFinish_of_full d]
    · rw [atExec_of_exec h, emitAndFinish_of_full d]

/-- The converse of `exec_next` for internal steps. -/
theorem exec_of_internal {i : Instr} {s t : State} (hp : s.port = .none) (hph : s.phase ∈ pathOf i)
    (r : InternalStep i s t) : exec i s = .next t := by
  cases r with
  | held h => exact exec_of_holding hp hph h
  | init e h => subst e; refine (transition_internal hp).trans ?_; rw [atExec_of_exec h]; exact congrArg _ (finish_false _)
  | mix f e h l =>
    cases i <;> simp only [rawMix, Option.some.injEq, reduceCtorEq] at e <;> subst e <;>
      (refine (transition_internal hp).trans ?_) <;> rw [atExec_of_exec h, mixAndFinish_of_live l]
  | emit f e h d l =>
    cases i <;> simp only [rawEmit, Option.some.injEq, reduceCtorEq] at e <;> subst e <;>
      (refine (transition_internal hp).trans ?_) <;> rw [atExec_of_exec h, emitAndFinish_of_empty d l]
  | erase e h => subst e; refine (transition_internal hp).trans ?_; rw [atExec_of_exec h, finish_true]
  | start p e h =>
    cases i <;> simp only [startPhase, Option.some.injEq, reduceCtorEq] at e <;> subst e <;>
      (refine (transition_internal hp).trans ?_)
    · rw [hashInternal_exec h, startHigh]
    · rw [streamInternal_exec h, startHigh]
    · rw [cryptInternal_exec h, startHigh]
    · rw [cryptInternal_exec h, startHigh]
    · rw [authInternal_exec h, startHigh]
  | opened e h => subst e; refine (transition_internal hp).trans ?_; rw [absorbInternal_exec h]
  | mixed f p e l =>
    unfold mixStep at e
    split at e <;> simp only [Option.some.injEq, Prod.mk.injEq, reduceCtorEq] at e <;> obtain ⟨c, rfl, rfl⟩ := e <;>
      rename_i h <;> (refine (transition_internal hp).trans ?_)
    · rw [squeezeInternal_exec h, mixAndGo_of_live l]
    · rw [streamInternal_absKey h, whenTaken_zero c, mixAndGo_of_live l]
    · rw [cryptInternal_absKey h, whenTaken_zero c, mixAndGo_of_live l]
    · rw [cryptInternal_absKey h, whenTaken_zero c, mixAndGo_of_live l]
    · rw [authInternal_absKey h, whenTaken_zero c, mixAndGo_of_live l]
    · rw [hashInternal_absMsg h, whenTaken_zero c, mixAndGo_of_live l]
    · rw [authInternal_absMsg h, whenTaken_zero c, mixAndGo_of_live l]
  | nonceTaken e h c =>
    rcases e with rfl | rfl <;> (refine (transition_internal hp).trans ?_) <;> rw [cryptInternal_absNonce h,
      whenTaken_zero c]
  | dripped e h c l =>
    rcases e with rfl | rfl <;> (refine (transition_internal hp).trans ?_) <;> rw [cryptInternal_cryptDrip h,
      cryptDripStep_drips c l]
  | cryptDone e h c =>
    rcases e with rfl | rfl <;> (refine (transition_internal hp).trans ?_) <;> rw [cryptInternal_cryptDrip h,
      cryptDripStep_done c]
  | absorbDone e h c =>
    subst e; refine (transition_internal hp).trans ?_; rw [absorbInternal_absMsg h, whenTaken_zero c, finish_false]
  | squeezed e h c d l =>
    rcases e with rfl | rfl | rfl | rfl <;> (refine (transition_internal hp).trans ?_)
    · rw [squeezeInternal_squeeze h, squeezeStep_empty c d l]
    · rw [hashInternal_squeeze h, squeezeStep_empty c d l]
    · rw [streamInternal_squeeze h, squeezeStep_empty c d l]
    · rw [authInternal_squeeze h, squeezeStep_empty c d l]
  | squeezeDone e h c =>
    subst e; refine (transition_internal hp).trans ?_; rw [squeezeInternal_squeeze h, squeezeStep_done c,
      finish_false]
  | outputDone e h c =>
    rcases e with rfl | rfl | rfl <;> (refine (transition_internal hp).trans ?_)
    · rw [hashInternal_squeeze h, squeezeStep_done c, finish_true]
    · rw [streamInternal_squeeze h, squeezeStep_done c, finish_true]
    · rw [authInternal_squeeze h, squeezeStep_done c, finish_true]

/-- An internal step of a command in progress: what `exec` answers, and the step it is. -/
theorem exec_internal {i : Instr} {s : State} (hp : s.port = .none) (hph : s.phase ∈ pathOf i)
    (hle : s.phase = .exec → needsLive i = true → s.live = true) (hln : s.phase ≠ .exec → s.live = true) :
    ∃ t, exec i s = .next t ∧ InternalStep i s t := by
  obtain ⟨t, ht⟩ := exec_total hph hle hln
  cases exec_next ht with
  | ignored p _ => rw [hp] at p; cases p
  | issued p _ => rw [hp] at p; cases p
  | lost b p _ => rw [hp] at p; cases p
  | taken b p _ t r => rw [hp] at p; cases p
  | internal p t st => exact ⟨t, ht, st⟩

/-! ### Which byte step it is -/

/-- What a command does with a byte it is given. -/
def consumeOf : Instr → Byte → State → Result
  | .absorb => absorbDin
  | .hash => absorbDin
  | .stream => absorbDin
  | .auth => absorbDin
  | .encrypt => cryptDin fun m z => m + z
  | .decrypt => cryptDin fun m z => m - z
  | _ => noByte

theorem exec_din_taken (i : Instr) {s : State} {b : Byte} (hp : s.port = .din b) (d : dinReq s = true) :
    exec i s = consumeOf i b s.release := by
  cases i <;> simp only [exec, consumeOf, execInit, execUpdate, execOutput, execCrush, execWhip, execShuffle,
    execAbsorbNibble, execAbsorbByte,
    execAbsorb, execAbsorbStop, execDrip, execSqueeze, execHash, execStream, execEncrypt, execDecrypt,
    execAuth, execErase] <;>
    rw [transition_din_taken hp d]

/-- The converse of `exec_next` for a DIN write that is consumed. -/
theorem exec_of_byte {i : Instr} {s t : State} {b : Byte} (hp : s.port = .din b) (d : dinReq s = true)
    (hph : s.phase ∈ pathOf i) (r : ByteStep i b s.release t) : exec i s = .next t := by
  rw [exec_din_taken i hp d]
  have hph : s.release.phase ∈ pathOf i := hph
  generalize s.release = u at hph r
  cases r with
  | key h l =>
    cases i <;> simp [pathOf, h] at hph
    · exact absorbDin_key h l
    · exact (cryptDin_key h).trans (absorbDin_key h l)
    · exact (cryptDin_key h).trans (absorbDin_key h l)
    · exact absorbDin_key h l
  | nonce h l =>
    cases i <;> simp [pathOf, h] at hph
    · exact (cryptDin_nonce h).trans (absorbDin_nonce h l)
    · exact (cryptDin_nonce h).trans (absorbDin_nonce h l)
  | msg h l =>
    cases i <;> simp [pathOf, h] at hph
    · exact absorbDin_msg h l
    · exact absorbDin_msg h l
    · exact absorbDin_msg h l
  | encrypted e h l => subst e; exact cryptDin_xfer h l
  | decrypted e h l => subst e; exact cryptDin_xfer h l

end Sys2Proof.Machine
end

