-- ==== Sys2Proof/Laws/Delivery.lean ====
section
/-! SUPPORT. What a streaming command in progress will still take, deliver and leave (`need`, `owed`, `leaves`: the
big-step functions of Scripts.lean, cut at every phase), that each of its steps conserves it, and, by one induction over
a run of a host that meets its duties (`run_ends`), what the whole run delivers in any interleaving
(spec/40_sequencer.md R99). -/

namespace Sys2Proof.Machine

/-- The commands that move a stream (R87). -/
def streaming : Instr → Bool
  | .absorb => true
  | .squeeze => true
  | .hash => true
  | .stream => true
  | .encrypt => true
  | .decrypt => true
  | .auth => true
  | _ => false

/-- How many bytes a command takes from the key field on (R44). -/
def keyNeed (i : Instr) (s : State) : Nat :=
  match i with
  | .stream => s.cKey.toNat
  | .encrypt => s.cKey.toNat + (s.cNonce.toNat + s.cMsg.toNat)
  | .decrypt => s.cKey.toNat + (s.cNonce.toNat + s.cMsg.toNat)
  | .auth => s.cKey.toNat + s.cMsg.toNat
  | _ => 0

/-- How many bytes a command takes in all (R44, R48). -/
def wholeNeed (i : Instr) (s : State) : Nat :=
  match i with
  | .absorb => s.cMsg.toNat
  | .hash => s.cMsg.toNat
  | _ => keyNeed i s

/-- How many bytes a command in progress will still take (R48). -/
def need (i : Instr) (s : State) : Nat :=
  match s.phase with
  | .idle => 0
  | .exec => wholeNeed i s
  | .absKey => keyNeed i s
  | .absNonce => s.cNonce.toNat + s.cMsg.toNat
  | .absMsg => s.cMsg.toNat
  | .cryptDrip => s.cMsg.toNat
  | .cryptXfer => s.cMsg.toNat
  | .squeeze => 0

/-- The bytes that combine with the keystream from here on, when the keystream byte of the first is already in `Z`. -/
def transferBytes (combine : Byte → Byte → Byte) : List Byte → PermState → List Byte
  | [], _ => []
  | b :: rest, p => combine b p.Z :: combineBytes combine rest p

/-- `owed` of ENCRYPT and DECRYPT (R152, R153). -/
def cryptOwed (combine : Byte → Byte → Byte) (s : State) (d : List Byte) : List Byte :=
  let k := s.cKey.toNat
  let n := s.cNonce.toNat
  match s.phase with
  | .exec => combineBytes combine ((d.drop k).drop n) (cryptSetup (d.take k) ((d.drop k).take n))
  | .absKey => combineBytes combine ((d.drop k).drop n)
    ((s.ps.absorb (d.take k)).absorbStop.absorb ((d.drop k).take n))
  | .absNonce => combineBytes combine (d.drop n) (s.ps.absorb (d.take n))
  | .cryptDrip => combineBytes combine d s.ps
  | .cryptXfer => transferBytes combine d s.ps
  | _ => []

/-- The bytes of HASH and AUTH from the end of the message on (R93, R95). -/
def sealedBytes (len : Word) (p : PermState) : List Byte := dripBytes len.toNat (sealLength (lowByte len) p)

/-- The bytes a streaming command in progress will still put to DOUT, when the bytes it will still take are `d`. -/
def owed (i : Instr) (s : State) (d : List Byte) : List Byte :=
  match i with
  | .squeeze =>
    match s.phase with
    | .exec => dripBytes s.cOut.toNat s.ps.flush
    | .squeeze => dripBytes s.cOut.toNat s.ps
    | _ => []
  | .hash =>
    match s.phase with
    | .exec => sealedBytes s.cOut (PermState.initial.absorb d)
    | .absMsg => sealedBytes s.cOut (s.ps.absorb d)
    | .squeeze => dripBytes s.cOut.toNat s.ps
    | _ => []
  | .stream =>
    match s.phase with
    | .exec => dripBytes s.cOut.toNat (PermState.initial.absorb d).flush
    | .absKey => dripBytes s.cOut.toNat (s.ps.absorb d).flush
    | .squeeze => dripBytes s.cOut.toNat s.ps
    | _ => []
  | .auth =>
    let k := s.cKey.toNat
    match s.phase with
    | .exec => sealedBytes s.cOut ((PermState.initial.absorb (d.take k)).absorbStop.absorb (d.drop k))
    | .absKey => sealedBytes s.cOut ((s.ps.absorb (d.take k)).absorbStop.absorb (d.drop k))
    | .absMsg => sealedBytes s.cOut (s.ps.absorb d)
    | .squeeze => dripBytes s.cOut.toNat s.ps
    | _ => []
  | .encrypt => cryptOwed (fun m z => m + z) s d
  | .decrypt => cryptOwed (fun m z => m - z) s d
  | _ => []

/-- The permutation state a streaming command will leave behind. -/
def leaves (i : Instr) (s : State) (d : List Byte) : PermState :=
  match i with
  | .absorb => s.ps.absorb d
  | .squeeze =>
    match s.phase with
    | .exec => drips s.cOut.toNat s.ps.flush
    | _ => drips s.cOut.toNat s.ps
  | _ => PermState.erased

/-- The output byte waiting in DOUT. -/
def pending (s : State) : List Byte := if s.doutValid then [s.doutByte] else []

theorem pred_toNat {c : Word} (h : c ≠ 0#32) : c.toNat = (c - 1#32).toNat + 1 := by
  have : c.toNat ≠ 0 := fun e => h (BitVec.eq_of_toNat_eq (by simpa using e))
  have := c.isLt
  rw [BitVec.toNat_sub]; simp; omega

theorem dripBytes_pos {c : Word} (h : c ≠ 0#32) (p : PermState) :
    dripBytes c.toNat p = p.drip.Z :: dripBytes (c - 1#32).toNat p.drip := by
  rw [pred_toNat h]; rfl
theorem drips_pos {c : Word} (h : c ≠ 0#32) (p : PermState) : drips c.toNat p = drips (c - 1#32).toNat p.drip := by
  rw [pred_toNat h]; rfl

/-- What a step in the middle of a command conserves. -/
structure Conserves (i : Instr) (d : List Byte) (s t : State) : Prop where
  needEq : need i t = need i s
  owedEq : pending s ++ owed i s d = pending t ++ owed i t d
  leavesEq : leaves i t d = leaves i s d

theorem conserves_same {i : Instr} {d : List Byte} {s t : State} (hn : need i t = need i s) (hv :
    t.doutValid = s.doutValid)
    (hb : t.doutByte = s.doutByte) (ho : owed i s d = owed i t d) (hl : leaves i t d = leaves i s d) :
      Conserves i d s t :=
  ⟨hn, by unfold pending; rw [hv, hb, ho], hl⟩

theorem no_bytes {i : Instr} {s : State} {d : List Byte} (hd : d.length = need i s) (h : need i s = 0) : d = [] :=
  List.length_eq_zero_iff.1 (hd.trans h)

theorem conserve_mixed {i : Instr} {s : State} {f : PermState → PermState} {p : Phase} (e : mixStep i s = some (0#32,
    f, p))
    (d : List Byte) (hd : d.length = need i { s with ps := f s.ps, phase := p }) :
    Conserves i d s { s with ps := f s.ps, phase := p } := by
  unfold mixStep at e
  split at e <;> simp only [Option.some.injEq, Prod.mk.injEq, reduceCtorEq] at e <;> obtain ⟨c, rfl, rfl⟩ := e <;>
    rename_i h
  · exact conserves_same (by simp only [need, wholeNeed, keyNeed, h]) rfl rfl (by simp only [owed, h])
      (by simp only [leaves, h])
  · obtain rfl := no_bytes hd rfl
    exact conserves_same (by simp only [need, keyNeed, h, c]; rfl) rfl rfl (by simp only [owed, h, absorb_nil])
      (by simp only [leaves])
  · exact conserves_same (by simp only [need, keyNeed, h, c]; simp) rfl rfl (by simp only [owed, cryptOwed, h, c,
      BitVec.toNat_ofNat, Nat.zero_mod, List.take_zero, List.drop_zero, absorb_nil]) (by simp only [leaves])
  · exact conserves_same (by simp only [need, keyNeed, h, c]; simp) rfl rfl (by simp only [owed, cryptOwed, h, c,
      BitVec.toNat_ofNat, Nat.zero_mod, List.take_zero, List.drop_zero, absorb_nil]) (by simp only [leaves])
  · exact conserves_same (by simp only [need, keyNeed, h, c]; simp) rfl rfl (by simp only [owed, h, c,
      BitVec.toNat_ofNat, Nat.zero_mod, List.take_zero, List.drop_zero, absorb_nil]) (by simp only [leaves])
  · obtain rfl := no_bytes hd rfl
    exact conserves_same (by simp only [need, h, c]; rfl) rfl rfl (by simp only [owed, h, absorb_nil, sealedBytes])
      (by simp only [leaves])
  · obtain rfl := no_bytes hd rfl
    exact conserves_same (by simp only [need, h, c]; rfl) rfl rfl (by simp only [owed, h, absorb_nil, sealedBytes])
      (by simp only [leaves])

theorem conserve_mid {i : Instr} {s t : State} (hi : streaming i = true) (r : InternalStep i s t)
    (hbusy : t.busy = true) (d : List Byte) (hd : d.length = need i t) : Conserves i d s t := by
  cases r with
  | held => exact ⟨rfl, rfl, rfl⟩
  | init e h => subst e; cases hi
  | mix f e h l => cases i <;> simp only [rawMix, streaming, reduceCtorEq] at e hi
  | emit f e h l => cases i <;> simp only [rawEmit, streaming, reduceCtorEq] at e hi
  | erase e h => subst e; cases hi
  | start p e h =>
    cases i <;> simp only [startPhase, Option.some.injEq, reduceCtorEq] at e <;> subst e
    · exact conserves_same (by simp only [need, wholeNeed, h]) rfl rfl (by simp only [owed, h])
        (by simp only [leaves])
    · exact conserves_same (by simp only [need, wholeNeed, keyNeed, h]) rfl rfl (by simp only [owed, h])
        (by simp only [leaves])
    · exact conserves_same (by simp only [need, wholeNeed, keyNeed, h]) rfl rfl (by simp only [owed, cryptOwed,
        cryptSetup, h]) (by simp only [leaves])
    · exact conserves_same (by simp only [need, wholeNeed, keyNeed, h]) rfl rfl (by simp only [owed, cryptOwed,
        cryptSetup, h]) (by simp only [leaves])
    · exact conserves_same (by simp only [need, wholeNeed, keyNeed, h]) rfl rfl (by simp only [owed, h])
        (by simp only [leaves])
  | opened e h =>
    subst e
    exact conserves_same (by simp only [need, wholeNeed, h]) rfl rfl (by simp only [owed])
      (by simp only [leaves])
  | mixed f p e l => exact conserve_mixed e d hd
  | nonceTaken e h c =>
    rcases e with rfl | rfl
    · exact conserves_same (by simp only [need, h, c]; simp) rfl rfl (by simp only [owed, cryptOwed, h, c,
        BitVec.toNat_ofNat, Nat.zero_mod, List.take_zero, List.drop_zero, absorb_nil]) (by simp only [leaves])
    · exact conserves_same (by simp only [need, h, c]; simp) rfl rfl (by simp only [owed, cryptOwed, h, c,
        BitVec.toNat_ofNat, Nat.zero_mod, List.take_zero, List.drop_zero, absorb_nil]) (by simp only [leaves])
  | dripped e h c l =>
    rcases e with rfl | rfl
    · refine conserves_same (by simp only [need, h]) rfl rfl ?_ (by simp only [leaves])
      simp only [owed, cryptOwed, h]; cases d <;> rfl
    · refine conserves_same (by simp only [need, h]) rfl rfl ?_ (by simp only [leaves])
      simp only [owed, cryptOwed, h]; cases d <;> rfl
  | squeezed e h c dd l =>
    have p1 : pending s = [] := by unfold pending; rw [dd]; rfl
    have hb := dripBytes_pos c s.ps
    have hp := drips_pos c s.ps
    generalize s.ps.drip = q at hb hp
    have p2 : pending (State.doutPut q.Z { s with ps := q, cOut := s.cOut - 1#32 }) = [q.Z] := rfl
    rcases e with rfl | rfl | rfl | rfl
    · refine ⟨rfl, ?_, ?_⟩
      · rw [p1, p2]; simp only [owed, State.doutPut_phase, State.doutPut_cOut, State.doutPut_ps, h, hb,
          List.nil_append, List.cons_append]
      · simp only [leaves, State.doutPut_phase, State.doutPut_cOut, State.doutPut_ps, h, hp]
    all_goals
      refine ⟨rfl, ?_, by simp only [leaves]⟩
      rw [p1, p2]; simp only [owed, State.doutPut_phase, State.doutPut_cOut, State.doutPut_ps, h, hb,
        List.nil_append, List.cons_append]
  | _ => cases hbusy

/-- When the command ends there is nothing left to take or to put, and the state is what was promised. -/
theorem conserve_end {i : Instr} {s t : State} (hi : streaming i = true) (r : InternalStep i s t) (hs : s.busy = true)
    (hbusy : t.busy = false) : need i s = 0 ∧ owed i s [] = [] ∧ pending t = pending s ∧ t.ps = leaves i s [] ∧ t.live = (if highLevel i then false else s.live) := by
  cases r with
  | init e h => subst e; cases hi
  | mix f e h l => cases i <;> simp only [rawMix, streaming, reduceCtorEq] at e hi
  | emit f e h l => cases i <;> simp only [rawEmit, streaming, reduceCtorEq] at e hi
  | erase e h => subst e; cases hi
  | cryptDone e h c =>
    rcases e with rfl | rfl
    · exact ⟨by simp only [need, h, c]; rfl, by simp only [owed, cryptOwed, h]; rfl, rfl, rfl, rfl⟩
    · exact ⟨by simp only [need, h, c]; rfl, by simp only [owed, cryptOwed, h]; rfl, rfl, rfl, rfl⟩
  | absorbDone e h c => subst e; exact ⟨by simp only [need, h, c]; rfl, rfl, rfl, rfl, rfl⟩
  | squeezeDone e h c => subst e; exact ⟨by simp only [need, h], by simp only [owed, h, c]; rfl,
    rfl, by simp only [leaves, h, c]; rfl, rfl⟩
  | outputDone e h c =>
    rcases e with rfl | rfl | rfl
    · exact ⟨by simp only [need, h], by simp only [owed, h, c]; rfl, rfl, rfl, rfl⟩
    · exact ⟨by simp only [need, h], by simp only [owed, h, c]; rfl, rfl, rfl, rfl⟩
    · exact ⟨by simp only [need, h], by simp only [owed, h, c]; rfl, rfl, rfl, rfl⟩
  | held => rw [hs] at hbusy; cases hbusy
  | start =>
    generalize PermState.initial = q at hbusy
    have hbusy : s.busy = false := hbusy
    rw [hs] at hbusy
    cases hbusy
  | _ =>
    have hbusy : s.busy = false := hbusy
    rw [hs] at hbusy
    cases hbusy

theorem combine_transfer (comb : Byte → Byte → Byte) (d : List Byte) (p : PermState) :
    combineBytes comb d p = transferBytes comb d p.drip := by
  cases d <;> rfl

/-- A consumed byte leaves one byte fewer to take, and the rest as promised. -/
theorem conserve_byte {i : Instr} {b : Byte} {s t : State} (hph : s.phase ∈ pathOf i) (hd : dinReq s = true) (hx :
    s.phase = .cryptXfer → s.cMsg ≠ 0#32)
    (r : ByteStep i b s t) (d : List Byte) :
    need i s = need i t + 1 ∧ pending s ++ owed i s (b :: d)
      = pending t ++ owed i t d ∧ leaves i t d = leaves i s (b :: d) := by
  have hdd := ((dinReq_iff s).1 hd).2
  cases r with
  | key h l =>
    have c : s.cKey ≠ 0#32 := by simpa [h] using hdd
    have e := pred_toNat c
    cases i <;> simp [pathOf, h] at hph
    · refine ⟨by simp only [need, keyNeed, h, e], ?_, rfl⟩
      show pending s ++ _ = pending s ++ _
      simp only [owed, h, absorb_cons]
    · refine ⟨by simp only [need, keyNeed, h, e]; omega, ?_, rfl⟩
      show pending s ++ _ = pending s ++ _
      simp only [owed, cryptOwed, h, e, List.take_succ_cons, List.drop_succ_cons, absorb_cons]
    · refine ⟨by simp only [need, keyNeed, h, e]; omega, ?_, rfl⟩
      show pending s ++ _ = pending s ++ _
      simp only [owed, cryptOwed, h, e, List.take_succ_cons, List.drop_succ_cons, absorb_cons]
    · refine ⟨by simp only [need, keyNeed, h, e]; omega, ?_, rfl⟩
      show pending s ++ _ = pending s ++ _
      simp only [owed, h, e, List.take_succ_cons, List.drop_succ_cons, absorb_cons]
  | nonce h l =>
    have c : s.cNonce ≠ 0#32 := by simpa [h] using hdd
    have e := pred_toNat c
    cases i <;> simp [pathOf, h] at hph
    · refine ⟨by simp only [need, h, e]; omega, ?_, rfl⟩
      show pending s ++ _ = pending s ++ _
      simp only [owed, cryptOwed, h, e, List.take_succ_cons, List.drop_succ_cons, absorb_cons]
    · refine ⟨by simp only [need, h, e]; omega, ?_, rfl⟩
      show pending s ++ _ = pending s ++ _
      simp only [owed, cryptOwed, h, e, List.take_succ_cons, List.drop_succ_cons, absorb_cons]
  | msg h l =>
    have c : s.cMsg ≠ 0#32 := by simpa [h] using hdd
    have e := pred_toNat c
    cases i <;> simp [pathOf, h] at hph
    · refine ⟨by simp only [need, h, e], rfl, rfl⟩
    · refine ⟨by simp only [need, h, e], ?_, rfl⟩
      show pending s ++ _ = pending s ++ _
      simp only [owed, h, absorb_cons]
    · refine ⟨by simp only [need, h, e], ?_, rfl⟩
      show pending s ++ _ = pending s ++ _
      simp only [owed, h, absorb_cons]
  | encrypted e h l =>
    subst e
    have dv : s.doutValid = false := by simpa [h] using hdd
    have e := pred_toNat (hx h)
    refine ⟨by simp only [need, State.doutPut_phase, State.doutPut_cMsg, h, e], ?_, rfl⟩
    have p1 : pending s = [] := by unfold pending; rw [dv]; rfl
    have p2 : pending (State.doutPut (b + s.ps.Z) { s with cMsg := s.cMsg - 1#32, phase := .cryptDrip })
      = [b + s.ps.Z] := rfl
    rw [p1, p2]
    simp only [owed, cryptOwed, State.doutPut_phase, State.doutPut_ps, h, transferBytes, List.nil_append,
      List.cons_append]
  | decrypted e h l =>
    subst e
    have dv : s.doutValid = false := by simpa [h] using hdd
    have e := pred_toNat (hx h)
    refine ⟨by simp only [need, State.doutPut_phase, State.doutPut_cMsg, h, e], ?_, rfl⟩
    have p1 : pending s = [] := by unfold pending; rw [dv]; rfl
    have p2 : pending (State.doutPut (b - s.ps.Z) { s with cMsg := s.cMsg - 1#32, phase := .cryptDrip })
      = [b - s.ps.Z] := rfl
    rw [p1, p2]
    simp only [owed, cryptOwed, State.doutPut_phase, State.doutPut_ps, h, transferBytes, List.nil_append,
      List.cons_append]

/-- The two states agree on everything but the length registers, DOUT, the agenda and the reads. -/
structure SameCore (s t : State) : Prop where
  ps : t.ps = s.ps
  live : t.live = s.live
  busy : t.busy = s.busy
  op : t.op = s.op
  imm : t.imm = s.imm
  phase : t.phase = s.phase
  cKey : t.cKey = s.cKey
  cNonce : t.cNonce = s.cNonce
  cMsg : t.cMsg = s.cMsg
  cOut : t.cOut = s.cOut
  errCode : t.errCode = s.errCode

theorem SameCore.needEq {s t : State} (h : SameCore s t) (i : Instr) : need i t = need i s := by
  unfold need wholeNeed keyNeed; rw [h.phase, h.cKey, h.cNonce, h.cMsg]
theorem SameCore.owedEq {s t : State} (h : SameCore s t) (i : Instr) (d) : owed i t d = owed i s d := by
  unfold owed cryptOwed; rw [h.phase, h.cKey, h.cNonce, h.cOut, h.ps]
theorem SameCore.leavesEq {s t : State} (h : SameCore s t) (i : Instr) (d) : leaves i t d = leaves i s d := by
  unfold leaves; rw [h.phase, h.cOut, h.ps]
theorem SameCore.running {s t : State} (h : SameCore s t) {i : Instr} (r : s.Running i) : t.Running i := by
  unfold State.Running; rw [h.busy, h.op, h.imm]; exact r

/-- What one event of a host that meets its duties does, apart from the engine's turn and a byte taken. -/
theorem quiet_event {e : Event} {u u' : State} (hc : cooperative e u = true) (hn : noCommand e = true) (st :
    EventStep { u with agenda := rest } e u')
    (he : e ≠ .engine) (hd : ∀ v, e ≠ .write 0x18 4 v) :
      SameCore u u' ∧ dinBytes [e] = [] ∧ doutBytes u'.reads ++ pending u' = doutBytes u.reads ++ pending u := by
  cases st with
  | waits => exact absurd rfl he
  | turn => exact absurd rfl he
  | command w i d r => cases hn
  | badBusy => cases hn
  | badIdle => cases hn
  | byte v => exact absurd rfl (hd v)
  | byteLost v => exact absurd rfl (hd v)
  | keyLen v => exact ⟨⟨rfl, rfl, rfl, rfl, rfl, rfl, rfl, rfl, rfl, rfl, rfl⟩, rfl, rfl⟩
  | nonceLen v => exact ⟨⟨rfl, rfl, rfl, rfl, rfl, rfl, rfl, rfl, rfl, rfl, rfl⟩, rfl, rfl⟩
  | msgLen v => exact ⟨⟨rfl, rfl, rfl, rfl, rfl, rfl, rfl, rfl, rfl, rfl, rfl⟩, rfl, rfl⟩
  | outLen v => exact ⟨⟨rfl, rfl, rfl, rfl, rfl, rfl, rfl, rfl, rfl, rfl, rfl⟩, rfl, rfl⟩
  | ignored o v hc0 hd0 h =>
    refine ⟨⟨rfl, rfl, rfl, rfl, rfl, rfl, rfl, rfl, rfl, rfl, rfl⟩, ?_, rfl⟩
    simp [dinBytes, hd0]
  | reset => cases hc
  | read o ho =>
    refine ⟨?_, rfl, ?_⟩
    · unfold readReg readEffect
      split <;> first | exact ⟨rfl, rfl, rfl, rfl, rfl, rfl, rfl, rfl, rfl, rfl, rfl⟩ | (split <;> exact ⟨rfl, rfl,
        rfl, rfl, rfl, rfl, rfl, rfl, rfl, rfl, rfl⟩)
    · by_cases h1C : o = 0x1C
      · subst h1C
        have dv : u.doutValid = true := by
          simpa [cooperative, accessOk, hostReg] using hc
        unfold readReg readEffect readValue hostReg pending doutBytes
        simp [dv, lowByte, zext32]
        apply BitVec.eq_of_getLsbD_eq; intro i hi; simp [hi]; omega
      · have hr : hostReg o ≠ some .dout := fun h => h1C (hostReg_eq_dout h)
        have e1 : readEffect (hostReg o) { u with agenda := rest } = { u with agenda := rest } := by
          unfold readEffect; split <;> first | rfl | (rename_i h; exact absurd h hr)
        unfold readReg; rw [e1]
        unfold pending doutBytes
        simp [h1C]

theorem streaming_low {i : Instr} (hi : streaming i = true) (h : highLevel i = false) : needsLive i = true := by
  cases i <;> simp_all [streaming, highLevel, needsLive]

theorem internal_op {i : Instr} {s t : State} (r : InternalStep i s t) (hb : t.busy = true) :
    t.op = s.op ∧ t.imm = s.imm := by
  cases r with
  | held => exact ⟨rfl, rfl⟩
  | start => generalize PermState.initial = q; exact ⟨rfl, rfl⟩
  | opened | mixed | nonceTaken | dripped | squeezed => exact ⟨rfl, rfl⟩
  | _ => cases hb

theorem byte_op {i : Instr} {b} {s t : State} (r : ByteStep i b s t) :
    t.op = s.op ∧ t.imm = s.imm ∧ t.busy = s.busy ∧ t.live = s.live := by
  cases r <;> exact ⟨rfl, rfl, rfl, rfl⟩

theorem internal_live {i : Instr} {s t : State} (r : InternalStep i s t) (hi : streaming i = true) (hb :
    t.busy = true) (hn : needsLive i = true) : t.live = s.live := by
  cases r with
  | held => rfl
  | start p e => cases i <;> simp only [startPhase, needsLive, reduceCtorEq] at e hn
  | opened | mixed | nonceTaken | dripped | squeezed => rfl
  | _ => cases hb

/-- What a complete command has delivered, from a state in the middle of it. -/
structure Ends (i : Instr) (d : List Byte) (s t : State) : Prop where
  taken : d.length = need i s
  out : doutBytes t.reads = doutBytes s.reads ++ (pending s ++ owed i s d)
  ps : t.ps = leaves i s d
  live : t.live = (if highLevel i then false else s.live)
  err : t.errCode = s.errCode

/-- What a run has delivered from a state in which no command is in progress: what DOUT held. -/
structure Rests (d : List Byte) (s t : State) : Prop where
  taken : d = []
  out : doutBytes t.reads = doutBytes s.reads ++ pending s
  ps : t.ps = s.ps
  live : t.live = s.live
  err : t.errCode = s.errCode

theorem dinBytes_cons (e : Event) (es : List Event) : dinBytes (e :: es) = dinBytes [e] ++ dinBytes es := by
  cases e with
  | write o n v => simp only [dinBytes]; split <;> rfl
  | _ => rfl

theorem cooperative_din {o n v} {u : State} (hc : cooperative (.write o n v) u = true) (ho : hostReg o = some .din) :
    dinReq u = true := by
  simp [cooperative, ho] at hc; exact hc.2

theorem pending_nil {s : State} (h : s.doutValid = false) : pending s = [] := by unfold pending; rw [h]; rfl

/-- What the rest of a run delivers, at every point of it. The two hypotheses are facts of the machine stated as
obligations (EveryStepKeepsTheInvariant, and a part of CommandsLeaveLengthsAndUnreadOutputAlone). -/
theorem run_ends (step_inv : ∀ s t : State, s.Inv → step s = .next t → t.Inv)
    (q_leave : ∀ (i : Instr) (s t : State), exec i s = .next t →
      t.agenda = s.agenda ∧ t.reads = s.reads ∧ (s.port ≠ .cmd → t.errCode = s.errCode)) (i : Instr) (hi :
        streaming i = true) : ∀ (es : List Event) (u t : State), u.Inv → u.agenda = es → es.all noCommand = true →
    dutiful es.length u = true → Sys2Proof.core.run es.length u = .next t → t.busy = false → t.doutValid = false →
    (u.busy = false → Rests (dinBytes es) u t) ∧ (u.Running i → Ends i (dinBytes es) u t) := by
  intro es
  induction es with
  | nil =>
    intro u t hinv ha hall hd hrun hb hv
    have : u = t := by injection hrun
    subst this
    refine ⟨fun _ => ⟨rfl, by rw [pending_nil hv, List.append_nil], rfl, rfl, rfl⟩, fun r => ?_⟩
    rw [r.1] at hb; cases hb
  | cons e rest ih =>
    intro u t hinv ha hall hd hrun hb hv
    obtain ⟨v, hstep, hrun'⟩ := run_succ_next hrun
    have hall' : rest.all noCommand = true := by rw [List.all_cons, Bool.and_eq_true] at hall; exact hall.2
    have hne : noCommand e = true := by rw [List.all_cons, Bool.and_eq_true] at hall; exact hall.1
    have hinv' := step_inv u v hinv hstep
    have hd2 : cooperative e u = true ∧ dutiful rest.length v = true := by
      rw [List.length_cons, dutiful, ha, hstep] at hd
      simpa using hd
    have hev : takeEvent e { u with agenda := rest } = .next v := by rw [← step_of_cons ha]; exact hstep
    have st := takeEvent_next hev
    have hag : v.agenda = rest := by
      cases st with
      | turn j r ex => exact (q_leave j _ _ ex).1
      | byte w j r ex => exact (q_leave j _ _ ex).1
      | command w j d ex => exact (q_leave j _ _ ex).1
      | read o ho =>
        unfold readReg readEffect
        split <;> first | rfl | (split <;> rfl)
      | _ => rfl
    obtain ⟨ih1, ih2⟩ := ih v t hinv' hag hall' hd2.2 hrun' hb hv
    rw [dinBytes_cons]
    have quiet : ∀ (c : SameCore u v) (n : dinBytes [e] = []) (o :
      doutBytes v.reads ++ pending v = doutBytes u.reads ++ pending u),
        (u.busy = false → Rests (dinBytes [e] ++ dinBytes rest) u t)
          ∧ (u.Running i → Ends i (dinBytes [e] ++ dinBytes rest) u t) := by
      intro c n o
      rw [n, List.nil_append]
      refine ⟨fun hb => ?_, fun r => ?_⟩
      · have := ih1 (c.busy.trans hb)
        exact ⟨this.taken, by rw [this.out, o], this.ps.trans c.ps, this.live.trans c.live, this.err.trans c.errCode⟩
      · have := ih2 (c.running r)
        exact ⟨by rw [this.taken, c.needEq], by rw [this.out, c.owedEq, ← List.append_assoc, o,
          List.append_assoc], by rw [this.ps, c.leavesEq], by rw [this.live, c.live], this.err.trans c.errCode⟩
    have notCmd : ∀ (p : Port), p ≠ .cmd → ∀ j, exec j { u with agenda := rest, port := p } = .next v →
        v.reads = u.reads ∧ v.errCode = u.errCode := fun p hp j hj =>
      ⟨(q_leave j _ _ hj).2.1, (q_leave j _ _ hj).2.2 hp⟩
    have idle : v = { u with agenda := rest } →
        (u.busy = false → Rests (dinBytes rest) u t) := by
      intro hv' hb
      subst hv'
      have := ih1 hb
      exact ⟨this.taken, this.out, this.ps, this.live, this.err⟩
    by_cases he : e = .engine
    · subst he
      show (u.busy = false → Rests (dinBytes rest) u t) ∧ (u.Running i → Ends i (dinBytes rest) u t)
      refine ⟨fun hbu => ?_, fun r => ?_⟩
      · rw [takeEvent_engine, runCurrent_idle (s := { u with agenda := rest }) hbu,
          release_of_none (s := { u with agenda := rest }) hinv.port] at hev
        exact idle (next_inj hev) hbu
      · rw [takeEvent_engine, runCurrent_running (s := { u with agenda := rest }) (i := i) r] at hev
        obtain ⟨hreads, herr⟩ := notCmd .none (by decide) i hev
        rw [port_eta' (s := { u with agenda := rest }) hinv.port] at hev
        have hst : InternalStep i { u with agenda := rest } v := by
          cases exec_next hev with
          | ignored p _ => have p : u.port = _ := p; rw [hinv.port] at p; cases p
          | issued p _ => have p : u.port = _ := p; rw [hinv.port] at p; cases p
          | lost b p _ => have p : u.port = _ := p; rw [hinv.port] at p; cases p
          | taken b p _ t r => have p : u.port = _ := p; rw [hinv.port] at p; cases p
          | internal p t st => exact st
        cases hbv : v.busy
        · obtain ⟨a, b, c, e1, e2⟩ := conserve_end hi hst r.1 hbv
          have R := ih1 hbv
          rw [R.taken]
          exact ⟨a.symm, by rw [R.out, hreads, c]; exact congrArg _ ((congrArg (pending u ++ ·)
            b).trans (List.append_nil _)).symm,
            R.ps.trans e1, R.live.trans e2, R.err.trans herr⟩
        · obtain ⟨a, b⟩ := internal_op hst hbv
          have E := ih2 ⟨hbv, by rw [a, b]; exact r.2⟩
          have C := conserve_mid hi hst hbv _ E.taken
          refine ⟨E.taken.trans C.needEq, by rw [E.out, hreads, ← C.owedEq]; rfl, E.ps.trans C.leavesEq, ?_,
            E.err.trans herr⟩
          rw [E.live]
          cases hh : highLevel i
          · have hn : needsLive i = true := streaming_low hi hh
            exact (internal_live hst hi hbv hn).trans rfl
          · rfl
    · by_cases hdin : ∃ w, e = .write 0x18 4 w
      · obtain ⟨w, rfl⟩ := hdin
        have hreq : dinReq u = true := cooperative_din hd2.1 rfl
        show (u.busy = false → Rests (lowByte w :: dinBytes rest) u t) ∧
          (u.Running i → Ends i (lowByte w :: dinBytes rest) u t)
        refine ⟨fun hbu => ?_, fun r => ?_⟩
        · rw [dinReq_false_of_idle hbu] at hreq; cases hreq
        · rw [takeEvent_din, runCurrent_running (s := { u with agenda := rest }) (i := i) r] at hev
          obtain ⟨hreads, herr⟩ := notCmd _ (by intro h; cases h) i hev
          have hst : ByteStep i (lowByte w) { u with agenda := rest } v := by
            cases exec_next hev with
            | ignored p _ => cases p
            | issued p _ => cases p
            | internal p t st => cases p
            | lost b p d => have d : dinReq u = false := d; rw [hreq] at d; cases d
            | taken b p _ t st =>
              have p : Port.din (lowByte w) = .din b := p
              injection p with p
              subst p
              rw [port_eta (s := { u with agenda := rest }) hinv.port] at st
              exact st
          obtain ⟨a, b, hbb, hll⟩ := byte_op hst
          have E := ih2 ⟨hbb.trans r.1, by rw [a, b]; exact r.2⟩
          obtain ⟨n, o, l⟩ := conserve_byte (s := { u with agenda := rest })
            (r.inv hinv).1 hreq hinv.xfer hst (dinBytes rest)
          refine ⟨?_, by rw [E.out, hreads, ← o]; rfl, E.ps.trans l, by rw [E.live, hll], E.err.trans herr⟩
          rw [List.length_cons, E.taken]
          exact n.symm
      · obtain ⟨c, n, o⟩ := quiet_event (rest := rest) hd2.1 hne st he (fun v h => hdin ⟨v, h⟩)
        exact quiet c n o

end Sys2Proof.Machine
end

