-- ==== Sys2Proof/Laws/PerInstr.lean ====
section
/-! SUPPORT. Facts about a command as syntax, one lemma per constructor (spec/30_encoding.md R60 to R62). -/

namespace Sys2Proof.Laws.EncodeFields

/-- The three fields of the word of a command are its opcode, its immediate and zero (R60, R61). -/
def Statement (i : Instr) : Prop :=
  opcodeField (encode i) = i.opcode ∧ immField (encode i) = i.imm8 ∧ zeroField (encode i) = 0#16

theorem of_fields (i : Instr) : Statement i :=
  ⟨opcodeField_commandWord _ _, immField_commandWord _ _, zeroField_commandWord _ _⟩

theorem init : Statement .init := of_fields _

theorem update : Statement .update := of_fields _

theorem output : Statement .output := of_fields _

theorem crush : Statement .crush := of_fields _

theorem whip : Statement .whip := of_fields _

theorem shuffle : Statement .shuffle := of_fields _

theorem absorbNibble (imm8 : Byte) : Statement (.absorbNibble imm8) := of_fields _

theorem absorbByte (b : Byte) : Statement (.absorbByte b) := of_fields _

theorem absorb : Statement .absorb := of_fields _

theorem absorbStop : Statement .absorbStop := of_fields _

theorem drip : Statement .drip := of_fields _

theorem squeeze : Statement .squeeze := of_fields _

theorem hash : Statement .hash := of_fields _

theorem stream : Statement .stream := of_fields _

theorem encrypt : Statement .encrypt := of_fields _

theorem decrypt : Statement .decrypt := of_fields _

theorem auth : Statement .auth := of_fields _

theorem erase : Statement .erase := of_fields _

end Sys2Proof.Laws.EncodeFields
end

