-- ==== Sys2Proof/Laws/Public.lean ====
section
/-! SUPPORT. What of a state is public (`State.public`, Safety.lean), field by field: every shared operation, every command
and every event take states that agree on it to states that agree on it, because control never looks at the table,
  at a
register other than `A` or at a byte that passes through (spec/40_sequencer.md R100). -/

namespace Sys2Proof.Machine

/-- Two states agree on their public part (R21, R100), field by field. -/
structure Same (s t : State) : Prop where
  a : s.ps.A = t.ps.A
  live : s.live = t.live
  busy : s.busy = t.busy
  op : s.op = t.op
  imm : s.imm = t.imm
  phase : s.phase = t.phase
  cKey : s.cKey = t.cKey
  cNonce : s.cNonce = t.cNonce
  cMsg : s.cMsg = t.cMsg
  cOut : s.cOut = t.cOut
  keyLen : s.keyLen = t.keyLen
  nonceLen : s.nonceLen = t.nonceLen
  msgLen : s.msgLen = t.msgLen
  outLen : s.outLen = t.outLen
  errCode : s.errCode = t.errCode
  doutValid : s.doutValid = t.doutValid
  port : s.public.port = t.public.port
  agenda : s.agenda.map Event.public = t.agenda.map Event.public
  reads : s.public.reads = t.public.reads

/-- `Same` is equality of the public parts. -/
theorem same_iff (s t : State) : s.public = t.public ↔ Same s t := by
  constructor
  · intro h
    exact ⟨congrArg (fun u => u.ps.A) h, congrArg (·.live) h, congrArg (·.busy) h, congrArg (·.op) h,
      congrArg (·.imm) h, congrArg (·.phase) h,
      congrArg (·.cKey) h, congrArg (·.cNonce) h, congrArg (·.cMsg) h, congrArg (·.cOut) h, congrArg (·.keyLen) h,
        congrArg (·.nonceLen) h,
      congrArg (·.msgLen) h, congrArg (·.outLen) h, congrArg (·.errCode) h, congrArg (·.doutValid) h,
        congrArg (·.port) h, congrArg (·.agenda) h, congrArg (·.reads) h⟩
  · intro h
    have h1 := h.port; have h2 := h.reads
    unfold State.public at h1 h2 ⊢
    simp only at h1 h2
    rw [h.a, h.live, h.busy, h.op, h.imm, h.phase, h.cKey, h.cNonce, h.cMsg, h.cOut, h.keyLen, h.nonceLen, h.msgLen,
      h.outLen, h.errCode, h.doutValid, h1, h.agenda, h2]

/-- Two answers agree on their public part. -/
def SameR (r r' : Result) : Prop := publicOutcome r = publicOutcome r'

theorem SameR.next {s t} (h : Same s t) : SameR (.next s) (.next t) := congrArg Host.Outcome.next ((same_iff s t).2 h)

theorem sameR_onLive {s t u v : State} (h : s.live = t.live) (k : Same u v) : SameR (onLive s u) (onLive t v) := by
  unfold onLive; rw [h]; split
  · exact .next k
  · rfl

theorem Same.ps {s t : State} (h : Same s t) {p q : PermState} (k : p.A = q.A) : Same { s with ps := p }
    { t with ps := q } :=
  { h with a := k }

theorem Same.withPhase {s t : State} (h : Same s t) (p : Phase) : Same { s with phase := p } { t with phase := p } :=
  { h with phase := rfl }

theorem Same.withLive {s t : State} (h : Same s t) (b : Bool) : Same { s with live := b } { t with live := b } :=
  { h with live := rfl }

theorem Same.withErr {s t : State} (h : Same s t) (b : ErrCode) : Same { s with errCode := b } { t with errCode :=
    b } :=
  { h with errCode := rfl }

theorem Same.withDout {s t : State} (h : Same s t) (b c : Byte) : Same (s.doutPut b) (t.doutPut c) :=
  { h with doutValid := rfl }

theorem Same.erase {s t : State} (h : Same s t) : Same s.eraseState t.eraseState := (h.ps rfl).withLive false

theorem Same.toIdle {s t : State} (h : Same s t) : Same s.toIdle t.toIdle :=
  { h with busy := rfl, op := rfl, imm := rfl, phase := rfl, cKey := rfl, cNonce := rfl, cMsg := rfl, cOut := rfl }

theorem Same.finish {s t : State} (h : Same s t) (e : Bool) : Same (s.finish e) (t.finish e) := by
  cases e
  · exact h.toIdle
  · exact h.erase.toIdle

/-- What is public of a port: which access it is, not the byte. -/
def portKind : Port → Port
  | .none => .none
  | .cmd => .cmd
  | .din _ => .din 0#8

theorem Same.withPort {s t : State} (h : Same s t) {p q : Port} (k : portKind p = portKind q) :
    Same { s with port := p } { t with port := q } :=
  { h with port := k }

theorem Same.release {s t : State} (h : Same s t) : Same s.release t.release := h.withPort rfl

/-- `f` gives `A` a value that depends on `A` alone. -/
def SameA (f : PermState → PermState) : Prop := ∀ p q : PermState, p.A = q.A → (f p).A = (f q).A

theorem sameA_update : SameA PermState.update := fun p q h => by rw [PermState.update_A, PermState.update_A, h]

theorem sameA_output : SameA PermState.output := fun p q h => by rw [PermState.output_A, PermState.output_A, h]

theorem sameA_crush : SameA PermState.crush := fun p q h => by rw [PermState.crush_A, PermState.crush_A, h]

theorem sameA_whip : SameA PermState.whip := fun p q h => by rw [PermState.whip_A, PermState.whip_A, h]

theorem sameA_shuffle : SameA PermState.shuffle := fun p q h => by rw [PermState.shuffle_A, PermState.shuffle_A]

theorem sameA_flush : SameA PermState.flush := fun p q h => by rw [PermState.flush_A, PermState.flush_A]

theorem sameA_drip : SameA PermState.drip := fun p q h => by rw [PermState.drip_A, PermState.drip_A]

theorem nibble_A (x y : Nibble) (p q : PermState) (h : p.A = q.A) : (p.absorbNibble x).A = (q.absorbNibble y).A := by
  rw [PermState.absorbNibble_A, PermState.absorbNibble_A, h]

theorem byte_A (x y : Byte) (p q : PermState) (h : p.A = q.A) : (p.absorbByte x).A = (q.absorbByte y).A := by
  rw [PermState.absorbByte_eq, PermState.absorbByte_eq]; exact nibble_A _ _ _ _ (nibble_A _ _ _ _ h)

theorem sameA_stop : SameA PermState.absorbStop := fun p q h => by rw [PermState.absorbStop_A,
    PermState.absorbStop_A, h]

theorem sameA_seal (b c : Byte) (p q : PermState) : (sealLength b p).A = (sealLength c q).A := by rw [sealLength_A,
    sealLength_A]

theorem same_atExec {w : State → Result} {s t : State} (h : Same s t) (k : SameR (w s) (w t)) : SameR (atExec w s)
    (atExec w t) := by
  unfold atExec; rw [h.phase]; split <;> first | exact k | rfl

theorem same_mix {f : PermState → PermState} (hf : SameA f) {s t : State} (h : Same s t) : SameR (mixAndFinish f s)
    (mixAndFinish f t) :=
  sameR_onLive h.live ((h.ps (hf _ _ h.a)).finish false)

theorem same_emit {f : PermState → PermState} (hf : SameA f) {s t : State} (h : Same s t) : SameR (emitAndFinish f s)
    (emitAndFinish f t) := by
  unfold emitAndFinish; rw [h.doutValid]; split
  · exact .next h
  · exact sameR_onLive h.live (((h.ps (hf _ _ h.a)).withDout _ _).finish false)

theorem same_mixGo {f g : PermState → PermState} {p : Phase} {s t : State} (h : Same s t) (k :
    (f s.ps).A = (g t.ps).A) : SameR (mixAndGo f p s) (mixAndGo g p t) :=
  sameR_onLive h.live ((h.ps k).withPhase p)

theorem same_when {c d : Word} (e : c = d) {f g : State → Result} {s t : State} (h : Same s t) (k : SameR (f s)
    (g t)) : SameR (whenTaken c f s) (whenTaken d g t) := by
  unfold whenTaken; rw [e]; split
  · exact k
  · exact .next h

theorem same_squeeze (e : Bool) {s t : State} (h : Same s t) : SameR (squeezeStep e s) (squeezeStep e t) := by
  unfold squeezeStep; rw [h.cOut, h.doutValid]
  split
  · exact .next (h.finish e)
  · split
    · exact .next h
    · refine sameR_onLive h.live (Same.withDout ?_ _ _)
      have := h.ps (sameA_drip _ _ h.a)
      exact { this with cOut := rfl, doutValid := rfl }

theorem same_din {b c : Byte} {s t : State} (h : Same s t) : SameR (absorbDin b s) (absorbDin c t) := by
  unfold absorbDin; rw [h.phase, h.cKey, h.cNonce, h.cMsg]
  have := h.ps (byte_A b c _ _ h.a)
  split
  · exact sameR_onLive h.live { this with phase := rfl, cKey := rfl, cNonce := rfl, cMsg := rfl }
  · exact sameR_onLive h.live { this with phase := rfl, cKey := rfl, cNonce := rfl, cMsg := rfl }
  · exact sameR_onLive h.live { this with phase := rfl, cKey := rfl, cNonce := rfl, cMsg := rfl }
  all_goals rfl

theorem same_cryptDin {f g : Byte → Byte → Byte} {b c : Byte} {s t : State} (h : Same s t) : SameR (cryptDin f b s)
    (cryptDin g c t) := by
  unfold cryptDin; rw [h.phase, h.cMsg]
  split
  · refine sameR_onLive h.live (Same.withDout ?_ _ _)
    exact { h with cMsg := rfl, phase := rfl }
  · exact same_din h
  · exact same_din h
  all_goals rfl

theorem same_start (p : Phase) {s t : State} (h : Same s t) : SameR (startHigh p s) (startHigh p t) :=
  .next (((h.ps rfl).withLive true).withPhase p)

theorem same_dripStep {s t : State} (h : Same s t) : SameR (cryptDripStep s) (cryptDripStep t) := by
  unfold cryptDripStep; rw [h.cMsg]; split
  · exact .next (h.finish true)
  · refine sameR_onLive h.live ?_
    have := (h.ps (sameA_drip _ _ h.a)).withPhase .cryptXfer
    exact { this with cMsg := rfl }

theorem same_cryptInternal {s t : State} (h : Same s t) : SameR (cryptInternal s) (cryptInternal t) := by
  unfold cryptInternal; rw [h.phase]
  split
  · exact same_start _ h
  · exact same_when h.cKey h (same_mixGo h (sameA_stop _ _ h.a))
  · exact same_when h.cNonce h (.next (h.withPhase _))
  · exact same_dripStep h
  · exact .next h
  all_goals rfl

theorem same_dinReq {s t : State} (h : Same s t) : dinReq s = dinReq t := by
  unfold dinReq; rw [h.busy, h.phase, h.cKey, h.cNonce, h.cMsg, h.doutValid]

theorem same_issue (i : Instr) {s t : State} (h : Same s t) : Same (s.issue i) (t.issue i) := by
  unfold State.issue; rw [h.live, h.outLen]
  split
  · exact h.withErr _
  · split
    · exact h.withErr _
    · split
      · exact h.erase.withErr _
      · unfold State.accept
        have k : Same s t := h
        exact ⟨k.a, k.live, rfl, rfl, rfl, rfl, k.keyLen, k.nonceLen, k.msgLen, k.outLen, k.keyLen, k.nonceLen,
          k.msgLen, k.outLen, rfl, k.doutValid, k.port, k.agenda, k.reads⟩

theorem same_transition {i : Instr} {c : Byte → State → Result} {n : State → Result} (hc : ∀ a b s t,
    Same s t → SameR (c a s) (c b t))
    (hn : ∀ s t, Same s t → SameR (n s) (n t)) {s t : State} (h : Same s t) : SameR (transition i c n s)
      (transition i c n t) := by
  have hp := h.port
  unfold State.public at hp
  simp only at hp
  unfold transition
  cases hs : s.port <;> cases ht : t.port <;> rw [hs, ht] at hp <;> first | (cases hp; done) | skip
  · exact hn _ _ h
  · refine .next ?_
    rw [h.busy]; split
    · exact h.release
    · exact same_issue i h.release
  · simp only; rw [same_dinReq h]; split
    · exact hc _ _ _ _ h.release
    · exact .next h.release

theorem same_noByte (a b : Byte) (s t : State) (_ : Same s t) : SameR (noByte a s) (noByte b t) := rfl

theorem same_exec (i : Instr) {s t : State} (h : Same s t) : SameR (exec i s) (exec i t) := by
  cases i with
  | init => exact same_transition same_noByte (fun s t h =>
    same_atExec h (.next (((h.ps rfl).withLive true).finish false))) h
  | update => exact same_transition same_noByte (fun s t h => same_atExec h (same_mix sameA_update h)) h
  | output => exact same_transition same_noByte (fun s t h => same_atExec h (same_emit sameA_output h)) h
  | crush => exact same_transition same_noByte (fun s t h => same_atExec h (same_mix sameA_crush h)) h
  | whip => exact same_transition same_noByte (fun s t h => same_atExec h (same_mix sameA_whip h)) h
  | shuffle => exact same_transition same_noByte (fun s t h => same_atExec h (same_mix sameA_shuffle h)) h
  | absorbNibble x => exact same_transition same_noByte (fun s t h => same_atExec h (same_mix (nibble_A _ _) h)) h
  | absorbByte x => exact same_transition same_noByte (fun s t h => same_atExec h (same_mix (byte_A _ _) h)) h
  | absorbStop => exact same_transition same_noByte (fun s t h => same_atExec h (same_mix sameA_stop h)) h
  | drip => exact same_transition same_noByte (fun s t h => same_atExec h (same_emit sameA_drip h)) h
  | erase => exact same_transition same_noByte (fun s t h => same_atExec h (.next (h.finish true))) h
  | absorb =>
    refine same_transition (fun _ _ _ _ h => same_din h) (fun s t h => ?_) h
    unfold absorbInternal; rw [h.phase]; split <;> try rfl
    · exact .next (h.withPhase _)
    · exact same_when h.cMsg h (.next (h.finish false))
  | squeeze =>
    refine same_transition same_noByte (fun s t h => ?_) h
    unfold squeezeInternal; rw [h.phase]; split <;> try rfl
    · exact same_mixGo h (sameA_flush _ _ h.a)
    · exact same_squeeze _ h
  | hash =>
    refine same_transition (fun _ _ _ _ h => same_din h) (fun s t h => ?_) h
    unfold hashInternal; rw [h.phase]; split <;> try rfl
    · exact same_start _ h
    · exact same_when h.cMsg h (same_mixGo h (sameA_seal _ _ _ _))
    · exact same_squeeze _ h
  | stream =>
    refine same_transition (fun _ _ _ _ h => same_din h) (fun s t h => ?_) h
    unfold streamInternal; rw [h.phase]; split <;> try rfl
    · exact same_start _ h
    · exact same_when h.cKey h (same_mixGo h (sameA_flush _ _ h.a))
    · exact same_squeeze _ h
  | encrypt => exact same_transition (fun _ _ _ _ h => same_cryptDin h) (fun s t h => same_cryptInternal h) h
  | decrypt => exact same_transition (fun _ _ _ _ h => same_cryptDin h) (fun s t h => same_cryptInternal h) h
  | auth =>
    refine same_transition (fun _ _ _ _ h => same_din h) (fun s t h => ?_) h
    unfold authInternal; rw [h.phase]; split <;> try rfl
    · exact same_start _ h
    · exact same_when h.cKey h (same_mixGo h (sameA_stop _ _ h.a))
    · exact same_when h.cMsg h (same_mixGo h (sameA_seal _ _ _ _))
    · exact same_squeeze _ h

theorem same_run {p q : Port} (k : portKind p = portKind q) {s t : State} (h : Same s t) :
      SameR (runCurrent p s) (runCurrent q t) := by
  have this := h.withPort k
  unfold runCurrent; rw [h.busy, h.op, h.imm]; split
  · split
    · exact same_exec _ { this with busy := rfl, op := rfl, imm := rfl }
    · rfl
  · exact .next h.release

theorem same_status {s t : State} (h : Same s t) : statusWord s = statusWord t := by
  unfold statusWord; rw [h.busy, h.live, h.doutValid, h.errCode, h.phase, same_dinReq h]

theorem same_read (o : Nat) {s t : State} (h : Same s t) : Same (readReg o s) (readReg o t) := by
  have e : Same (readEffect (hostReg o) s) (readEffect (hostReg o) t) := by
    unfold readEffect; rw [h.doutValid]; split
    · split
      · exact { h with doutValid := rfl }
      · exact h
    all_goals exact h
  have hv : o ≠ 0x1C → readValue (hostReg o) s = readValue (hostReg o) t := by
    intro ho; unfold readValue
    split <;> try rfl
    · exact same_status h
    · exact h.keyLen
    · exact h.nonceLen
    · exact h.msgLen
    · exact h.outLen
    · rename_i hh; exact absurd (hostReg_eq_dout hh) ho
  refine { e with reads := ?_ }
  have hr := h.reads
  unfold State.public at hr ⊢
  simp only at hr ⊢
  unfold readReg
  simp only [List.map_cons, hr]
  by_cases ho : o = 0x1C
  · simp [ho]
  · simp [ho, hv ho]

theorem same_event {e f : Event} (k : e.public = f.public) {s t : State} (h : Same s t) : SameR (takeEvent e s)
    (takeEvent f t) := by
  cases e with
  | engine =>
    cases f <;> simp only [Event.public, reduceCtorEq] at k
    · exact same_run rfl h
    · split at k <;> cases k
  | reset =>
    cases f <;> simp only [Event.public, reduceCtorEq] at k
    · split at k <;> cases k
    · refine .next ?_
      unfold State.applyReset
      exact ⟨rfl, rfl, rfl, rfl, rfl, rfl, rfl, rfl, rfl, rfl, rfl, rfl, rfl, rfl, rfl, rfl, rfl, h.agenda, h.reads⟩
  | read o n =>
    cases f <;> simp only [Event.public, reduceCtorEq] at k
    · split at k <;> cases k
    · injection k with k1 k2; subst k1; subst k2
      unfold takeEvent; simp only; split
      · exact .next (same_read _ h)
      · rfl
  | write o n v =>
    cases f with
    | write o' n' v' =>
      have key : o = o' ∧ n = n' ∧ (o ≠ 0x18 → v = v') := by
        unfold Event.public at k; simp only at k
        split at k <;> split at k <;> injection k with k1 k2 k3 <;> simp_all
      obtain ⟨rfl, rfl, kv⟩ := key
      unfold takeEvent; simp only; split
      · unfold writeReg
        split
        · rename_i hh
          have := kv (by rw [hostReg_eq_cmd hh]; decide)
          subst this
          unfold writeCmd; split
          · exact same_exec _ (h.withPort rfl)
          · refine .next ?_
            rw [h.busy]; split
            · exact h.release
            · exact h.release.withErr _
        · exact same_run (p := .din (lowByte v)) (q := .din (lowByte v')) rfl h
        all_goals (first | exact .next h | skip)
        all_goals
          rename_i hh
          have := kv (by rintro rfl; cases hh)
          subst this
          refine .next ?_
        · exact { h with keyLen := rfl }
        · exact { h with nonceLen := rfl }
        · exact { h with msgLen := rfl }
        · exact { h with outLen := rfl }
      · rfl
    | _ => unfold Event.public at k; simp only at k; split at k <;> cases k

end Sys2Proof.Machine
end

