-- ==== Sys2Proof/Tests/Slice0.lean ====
section
/-! SUPPORT. Tests: the WellFormed smoke test, the decoding of every command from a word written out from
spec/30_encoding.md R60 to R62, one step of each command against spec/95_test_vectors.md, and a witness for the
hypotheses of every statement that has some. Expected values come from the spec's tables, never from the model. A test evaluates the
few entries it names; none evaluates a `whip` or a `shuffle`. -/

namespace Sys2Proof.Tests

open Sys2Proof.Machine

/-! ### Helpers -/

def nextState : Result → Option State
  | .next s => some s
  | .fault _ => none
  | .refused _ => none

theorem next_of_isSome {r : Result} (h : (nextState r).isSome = true) : ∃ t, r = .next t ∧ nextState r = some t := by
  cases r with
  | next t => exact ⟨t, rfl, rfl⟩
  | fault _ => cases h
  | refused _ => cases h

/-- The state after INIT: live, nothing in progress. -/
def liveState : State := { State.reset with ps := PermState.initial, live := true }

/-- The command `i` in progress at phase `p`, every counter at `n`. -/
def during (i : Instr) (p : Phase) (n : Word) : State :=
  { liveState with busy := true, op := i.opcode, imm := i.imm8, phase := p, cKey := n, cNonce := n, cMsg := n, cOut := n }

theorem during_running (i : Instr) (p : Phase) (n : Word) (h : i.wf = true) : (during i p n).Running i := by
  refine ⟨rfl, ?_⟩
  show decode (commandWord i.opcode i.imm8) = _
  rw [decode_commandWord, decodeFields_of_wf i h]

theorem during_inv (i : Instr) (p : Phase) (n : Word) (h : i.wf = true) (hp : p ∈ pathOf i) (hn : n.toNat ≤ 255)
    (hx : p = .cryptXfer → n ≠ 0#32) : (during i p n).Inv where
  live := fun _ => PermState.LiveInv.initial
  erased := fun h => by cases h
  port := rfl
  dout := fun _ => rfl
  idle := fun h => by cases h
  running := fun _ => ⟨i, during_running i p n h, hp, fun _ _ => rfl, fun _ => rfl, fun _ => hn⟩
  xfer := hx
  squeeze := fun _ => rfl

theorem reset_inv : State.reset.Inv where
  live := fun h => by cases h
  erased := fun _ => rfl
  port := rfl
  dout := fun _ => rfl
  idle := fun _ => ⟨rfl, rfl, rfl, rfl, rfl, rfl, rfl⟩
  running := fun h => by cases h
  xfer := fun h => by cases h
  squeeze := fun h => by cases h

theorem live_inv : liveState.Inv where
  live := fun _ => PermState.LiveInv.initial
  erased := fun h => by cases h
  port := rfl
  dout := fun _ => rfl
  idle := fun _ => ⟨rfl, rfl, rfl, rfl, rfl, rfl, rfl⟩
  running := fun h => by cases h
  xfer := fun h => by cases h
  squeeze := fun h => by cases h

/-- The host's side, the lengths and the waiting byte are the invariant's business only as far as R26 goes. -/
theorem inv_host {s : State} (h : s.Inv) (a : List Event) (k n m o : Word) :
    State.Inv { s with agenda := a, keyLen := k, nonceLen := n, msgLen := m, outLen := o } :=
  ⟨h.live, h.erased, h.port, h.dout, h.idle, h.running, h.xfer, h.squeeze⟩

/-- One step, seen through `f`. -/
def seen {α : Type} (f : State → α) (r : Result) : Option α := (nextState r).map f

/-! ### WellFormed -/

/-- R61, format N: `imm8[7:4]` must be 0. -/
theorem test_illFormed_nibble : (Instr.absorbNibble 0x10#8).wf = false := by decide

theorem test_wellFormed_nibble : (Instr.absorbNibble 0x0F#8).wf = true := by decide

/-! ### Decoding (R60 to R62, R64): opcode in bits 7:0, `imm8` in bits 15:8, zero above -/

theorem test_decode_init : decode 0b00000000000000000000000000000001#32 = .ok .init := by decide

theorem test_decode_update : decode 0b00000000000000000000000000000010#32 = .ok .update := by decide

theorem test_decode_output : decode 0b00000000000000000000000000000011#32 = .ok .output := by decide

theorem test_decode_crush : decode 0b00000000000000000000000000000100#32 = .ok .crush := by decide

theorem test_decode_whip : decode 0b00000000000000000000000000000101#32 = .ok .whip := by decide

theorem test_decode_shuffle : decode 0b00000000000000000000000000000110#32 = .ok .shuffle := by decide

theorem test_decode_absorb : decode 0b00000000000000000000000000010010#32 = .ok .absorb := by decide

theorem test_decode_absorbStop : decode 0b00000000000000000000000000010011#32 = .ok .absorbStop := by decide

theorem test_decode_drip : decode 0b00000000000000000000000000011000#32 = .ok .drip := by decide

theorem test_decode_squeeze : decode 0b00000000000000000000000000011001#32 = .ok .squeeze := by decide

theorem test_decode_hash : decode 0b00000000000000000000000000100000#32 = .ok .hash := by decide

theorem test_decode_stream : decode 0b00000000000000000000000000100001#32 = .ok .stream := by decide

theorem test_decode_encrypt : decode 0b00000000000000000000000000100010#32 = .ok .encrypt := by decide

theorem test_decode_decrypt : decode 0b00000000000000000000000000100011#32 = .ok .decrypt := by decide

theorem test_decode_auth : decode 0b00000000000000000000000000100100#32 = .ok .auth := by decide

theorem test_decode_erase : decode 0b00000000000000000000000000111111#32 = .ok .erase := by decide

theorem test_decode_absorbNibble : decode 0b00000000000000000000111100010000#32 = .ok (.absorbNibble 0x0F#8) := by decide

theorem test_decode_absorbByte : decode 0b00000000000000001010010100010001#32 = .ok (.absorbByte 0xA5#8) := by decide

theorem test_decode_reserved : decode 0x00000007#32 = .error .reservedOpcode := by decide

theorem test_decode_immediate : decode 0x00000120#32 = .error .immediateNotZero := by decide

theorem test_decode_table_row : decodeTableWord 32 0x4111 = some (.absorbByte 0x41#8) := by decide

/-! ### The shell (spec/95_test_vectors.md 3.1, 3.5): STATUS after one step -/

theorem test_init_accepted : seen statusWord (step (State.reset.withFetchWord 32 0x1)) = some 0x00000101#32 := by decide

theorem test_update_noState : seen statusWord (step (State.reset.withFetchWord 32 0x2)) = some 0x00000030#32 := by decide

theorem test_nibble_noState :
    seen statusWord (step (State.reset.withFetchWord 32 0xF10)) = some 0x00000030#32 := by decide

theorem test_reserved_illegal : seen statusWord (step (State.reset.withFetchWord 32 0)) = some 0x00000020#32 := by decide

theorem test_bit31_illegal :
    seen statusWord (step (State.reset.withFetchWord 32 0x80000001)) = some 0x00000020#32 := by decide

/-- HASH with OUTLEN 256 on a live state: LEN, and erased. -/
theorem test_hash_len :
    seen (fun t => (statusWord t, tableRead t.ps.S 255#8, t.ps.W))
      (step (State.withFetchWord { liveState with outLen := 256#32 } 32 0x20)) = some (0x00000010#32, 0#8, 0#8) := by
  decide +kernel

/-- OUTLEN 300 and the word 0x120: ILLEGAL wins over LEN and nothing is erased. -/
theorem test_illegal_before_len :
    seen (fun t => (statusWord t, t.ps.W)) (step (State.withFetchWord { liveState with outLen := 300#32 } 32 0x120)) =
      some (0x00000022#32, 1#8) := by decide +kernel

theorem test_stream_accepted_any_length :
    seen statusWord (step (State.withFetchWord { State.reset with outLen := 0xFFFFFFFF#32 } 32 0x21)) =
      some 0x00000101#32 := by decide

/-- A CMD write while BUSY is ignored. -/
theorem test_cmd_busy :
    seen statusWord (step (State.withFetchWord { State.reset with
      busy := true, op := 0x20#8, phase := .exec, cMsg := 3#32, cOut := 32#32 } 32 0x3F)) =
      some 0x00000101#32 := by decide

/-- A read of an empty DOUT returns 0. -/
theorem test_dout_empty :
    seen (fun t => t.reads) (step { State.reset with agenda := [.read 0x1C 4] }) = some [(0x1C, 0#32)] := by decide

theorem test_access_shape : step { State.reset with agenda := [.read 0x1D 4] } = .refused .accessShape := by rfl

/-- Mid-command STATUS of `ENCRYPT`: CRYPT_XFER, DIN_REQ, LIVE, BUSY. -/
theorem test_status_xfer : statusWord (during .encrypt .cryptXfer 1#32) = 0x00000607#32 := by decide +kernel

/-! ### One step of each command (spec/95_test_vectors.md 3.1 to 3.4) -/

theorem test_init :
    seen (fun t => (tableRead t.ps.S 0#8, tableRead t.ps.S 255#8, t.ps.W, statusWord t))
      (exec .init { State.reset with busy := true, op := 0x01#8, phase := .exec }) =
      some (0#8, 255#8, 1#8, 0x00000002#32) := by decide +kernel

/-- From row 2 to row 3 of the table of UPDATEs. -/
theorem test_update :
    seen (fun t => (t.ps.I, t.ps.J, t.ps.K, tableRead t.ps.S 2#8, tableRead t.ps.S 3#8, tableRead t.ps.S 17#8))
      (exec .update { during .update .exec 0#32 with
        ps := { PermState.initial with S := tableSwap identityTable 2#8 5#8, I := 2#8, J := 5#8, K := 9#8 } }) =
      some (3#8, 17#8, 29#8, 5#8, 17#8, 3#8) := by decide +kernel

/-- The table after five UPDATEs: `J = 135`, `K = 223`. -/
def fiveUpdates : PermState :=
  { S := tableSwap (tableSwap (tableSwap (tableSwap identityTable 2#8 5#8) 3#8 17#8) 4#8 50#8) 5#8 135#8
    I := 5#8, J := 135#8, K := 223#8, Z := 0#8, A := 0#8, W := 1#8 }

theorem test_output :
    seen (fun t => (t.ps.Z, t.doutByte, statusWord t)) (exec .output { during .output .exec 0#32 with ps := fiveUpdates }) =
      some (0x6B#8, 0x6B#8, 0x0000000A#32) := by decide +kernel

theorem test_output_held :
    seen (fun t => (statusWord t, t.doutByte)) (exec .output { during .output .exec 0#32 with
      doutValid := true, doutByte := 4#8 }) = some (0x0000010B#32, 4#8) := by decide +kernel

/-- A pair out of order is exchanged; `0x7F` before `0x80` is in order: the comparison is unsigned. -/
theorem test_crush_pair :
    tableRead (crushPair 0 (tableSwap identityTable 0#8 255#8)) 0#8 = 0#8 ∧
      tableRead (crushPair 127 identityTable) 127#8 = 127#8 := by decide +kernel

/-- From the INIT state: `I = 0`, `Z = 0`, `A = 0`, `W = 3`. -/
theorem test_whip :
    PermState.initial.whip.I = 0#8 ∧ PermState.initial.whip.Z = 0#8 ∧ PermState.initial.whip.A = 0#8 ∧
      PermState.initial.whip.W = 3#8 := by
  rw [PermState.whip_I, PermState.whip_Z, PermState.whip_A, PermState.whip_W]; decide

/-- The stride wraps from 255 to 1. -/
theorem test_whip_wraps (p : PermState) (h : p.W = 255#8) : p.whip.W = 1#8 := by rw [PermState.whip_W, h]; decide

/-- From the INIT state: `I = 0`, `Z = 0`, `A = 0`, `W = 7`. -/
theorem test_shuffle :
    PermState.initial.shuffle.I = 0#8 ∧ PermState.initial.shuffle.Z = 0#8 ∧ PermState.initial.shuffle.A = 0#8 ∧
      PermState.initial.shuffle.W = 7#8 := by
  rw [PermState.shuffle_I, PermState.shuffle_Z, PermState.shuffle_A, PermState.shuffle_W]; decide

theorem test_absorbNibble :
    seen (fun t => (tableRead t.ps.S 0#8, tableRead t.ps.S 133#8, t.ps.A))
      (exec (.absorbNibble 5#8) (during (.absorbNibble 5#8) .exec 0#32)) = some (133#8, 0#8, 1#8) := by decide +kernel

theorem test_absorbByte :
    seen (fun t => (tableRead t.ps.S 0#8, tableRead t.ps.S 1#8, tableRead t.ps.S 129#8, tableRead t.ps.S 132#8, t.ps.A))
      (exec (.absorbByte 0x41#8) (during (.absorbByte 0x41#8) .exec 0#32)) =
      some (129#8, 132#8, 0#8, 1#8, 2#8) := by decide +kernel

theorem test_absorb_byte_taken :
    seen (fun t => (tableRead t.ps.S 0#8, t.ps.A, t.cMsg)) (exec .absorb { during .absorb .absMsg 3#32 with
      port := .din 0x41#8 }) = some (129#8, 2#8, 2#32) := by decide +kernel

theorem test_absorb_of_nothing :
    seen (fun t => (statusWord t, t.ps.A)) (exec .absorb (during .absorb .absMsg 0#32)) =
      some (0x00000002#32, 0#8) := by decide +kernel

theorem test_absorbStop :
    seen (fun t => (t.ps.A, tableRead t.ps.S 2#8)) (exec .absorbStop { during .absorbStop .exec 0#32 with
      ps := { PermState.initial with A := 2#8 } }) = some (3#8, 2#8) := by decide +kernel

theorem test_drip :
    seen (fun t => (t.ps.I, t.ps.J, t.ps.K, t.doutByte)) (exec .drip (during .drip .exec 0#32)) =
      some (1#8, 1#8, 2#8, 0x04#8) := by decide +kernel

theorem test_squeeze :
    seen (fun t => (t.doutByte, t.cOut)) (exec .squeeze (during .squeeze .squeeze 8#32)) =
      some (0x04#8, 7#32) := by decide +kernel

theorem test_hash_starts :
    seen (fun t => (statusWord t, t.ps.W)) (exec .hash { State.reset with
      busy := true, op := 0x20#8, phase := .exec, cMsg := 3#32, cOut := 32#32 }) = some (0x00000407#32, 1#8) := by
  decide +kernel

theorem test_hash_ends_erased :
    seen (fun t => (statusWord t, tableRead t.ps.S 7#8)) (exec .hash { during .hash .squeeze 0#32 with
      doutValid := true, doutByte := 0x4A#8 }) = some (0x00000008#32, 0#8) := by decide +kernel

/-- STREAM with an empty key never shuffles: its first byte is that of the INIT state. -/
theorem test_stream :
    seen (fun t => (t.doutByte, t.cOut)) (exec .stream (during .stream .squeeze 8#32)) = some (0x04#8, 7#32) := by
  decide +kernel

/-- 0x68 + 0xD6 = 0x3E modulo 256. -/
theorem test_encrypt :
    seen (fun t => (t.doutByte, t.cMsg, t.phase)) (exec .encrypt { during .encrypt .cryptXfer 11#32 with
      ps := { PermState.initial with Z := 0xD6#8 }, port := .din 0x68#8 }) =
      some (0x3E#8, 10#32, .cryptDrip) := by decide +kernel

/-- 0x3E - 0xD6 = 0x68 modulo 256. -/
theorem test_decrypt :
    seen (fun t => (t.doutByte, t.cMsg, t.phase)) (exec .decrypt { during .decrypt .cryptXfer 11#32 with
      ps := { PermState.initial with Z := 0xD6#8 }, port := .din 0x3E#8 }) =
      some (0x68#8, 10#32, .cryptDrip) := by decide +kernel

theorem test_auth_stops_the_key :
    seen (fun t => (t.ps.A, t.phase)) (exec .auth { during .auth .absKey 0#32 with
      ps := { PermState.initial with A := 4#8 } }) = some (5#8, .absMsg) := by decide +kernel

theorem test_erase :
    seen (fun t => (statusWord t, tableRead t.ps.S 9#8, t.ps.W)) (exec .erase (during .erase .exec 0#32)) =
      some (0x00000000#32, 0#8, 0#8) := by decide +kernel

/-! ### Witnesses: states and operands that meet the hypotheses of the statements, clause by clause -/

theorem witness_EncodedCommandDecodesToItself :
    (Instr.absorbNibble 0x0F#8).wf = true ∧ (Instr.absorbByte 0xFF#8).wf = true := by decide

theorem witness_StepRunsTheDecodedCommand :
    decode 0x00004111#32 = .ok (.absorbByte 0x41#8) ∧
    (during .hash .absMsg 1#32).Running .hash ∧ (during .hash .absMsg 1#32).agenda = [] ∧
    decodeTableWord 32 0x4111 = some (.absorbByte 0x41#8) :=
  ⟨by decide, during_running _ _ _ rfl, rfl, by decide⟩

theorem witness_CmdWriteIsIgnoredOrCheckedInOrder :
    ((during .hash .exec 1#32).port = .none ∧ (during .hash .exec 1#32).busy = true) ∧
    State.reset.port = .none ∧ State.reset.busy = false := ⟨⟨rfl, rfl⟩, rfl, rfl⟩

theorem witness_DoutReadReturnsAndEmpties :
    State.doutValid { State.reset with doutByte := 0xD6#8, doutValid := true } = true ∧
    State.reset.doutValid = false ∧ 0x18 % 4 = 0 ∧ 0x18 ≠ 0x1C ∧ 0x20 % 4 = 0 ∧ 0x20 ≠ 0x1C :=
  ⟨rfl, rfl, by decide⟩

theorem witness_AccessesOutsideTheMap :
    (1 ≠ 4 ∨ 0x1C % 4 ≠ 0) ∧ (4 ≠ 4 ∨ 0x1D % 4 ≠ 0) ∧
    4 = 4 ∧ 0x20 % 4 = 0 ∧ 0x1C < 0x20 := by decide

theorem witness_DinWriteIsTheStepThatConsumesTheByte :
    (liveState.Inv ∧ dinReq liveState = false) ∧
    (∀ p ∈ [Phase.absKey, .absNonce, .cryptXfer],
      (during .encrypt p 1#32).Inv ∧ dinReq (during .encrypt p 1#32) = true) ∧
    ((during .hash .absMsg 1#32).Inv ∧ dinReq (during .hash .absMsg 1#32) = true) ∧
    ((during .decrypt .cryptXfer 1#32).Inv ∧ dinReq (during .decrypt .cryptXfer 1#32) = true) ∧
    ((during .hash .absMsg 0#32).Inv ∧ dinReq (during .hash .absMsg 0#32) = false) := by
  refine ⟨⟨live_inv, rfl⟩, ?_, ⟨during_inv _ _ _ rfl (by decide) (by decide) (by decide), rfl⟩,
    ⟨during_inv _ _ _ rfl (by decide) (by decide) (by decide), rfl⟩,
    ⟨during_inv _ _ _ rfl (by decide) (by decide) (by decide), rfl⟩⟩
  intro p hp
  simp only [List.mem_cons, List.not_mem_nil, or_false] at hp
  rcases hp with rfl | rfl | rfl <;> exact ⟨during_inv _ _ _ rfl (by decide) (by decide) (by decide), rfl⟩

/-- A CMD write is being served, with nothing in progress and nothing live. -/
def cmdPort : State := { State.reset with port := .cmd }

/-- The command `i` at its EXEC step, live, with DOUT full. -/
def fullDout (i : Instr) : State := { during i .exec 0#32 with doutByte := 4#8, doutValid := true }

/-- The command `i` at phase `p` with a DIN write being served. -/
def dinPort (i : Instr) (p : Phase) : State := { during i p 1#32 with port := .din 0x41#8 }

theorem witness_InitGivesTheInitialState :
    (cmdPort.port = .cmd ∧ cmdPort.busy = false) ∧
    (during .init .exec 0#32).port = .none ∧ (during .init .exec 0#32).phase = .exec := ⟨⟨rfl, rfl⟩, rfl, rfl⟩

theorem witness_UpdateFollowsItsFiveLines :
    (cmdPort.port = .cmd ∧ cmdPort.busy = false ∧ cmdPort.live = false) ∧
    (during .update .exec 0#32).port = .none ∧ (during .update .exec 0#32).phase = .exec ∧
    (during .update .exec 0#32).live = true := ⟨⟨rfl, rfl, rfl⟩, rfl, rfl, rfl⟩

theorem witness_CrushOrdersEveryPair :
    (cmdPort.port = .cmd ∧ cmdPort.busy = false ∧ cmdPort.live = false) ∧
    (during .crush .exec 0#32).port = .none ∧ (during .crush .exec 0#32).phase = .exec ∧
    (during .crush .exec 0#32).live = true := ⟨⟨rfl, rfl, rfl⟩, rfl, rfl, rfl⟩

theorem witness_WhipUpdates512TimesAndStepsTheStride :
    (cmdPort.port = .cmd ∧ cmdPort.busy = false ∧ cmdPort.live = false) ∧
    (during .whip .exec 0#32).port = .none ∧ (during .whip .exec 0#32).phase = .exec ∧
    (during .whip .exec 0#32).live = true := ⟨⟨rfl, rfl, rfl⟩, rfl, rfl, rfl⟩

theorem witness_ShuffleIsTheFiveStageSequence :
    (cmdPort.port = .cmd ∧ cmdPort.busy = false ∧ cmdPort.live = false) ∧
    (during .shuffle .exec 0#32).port = .none ∧ (during .shuffle .exec 0#32).phase = .exec ∧
    (during .shuffle .exec 0#32).live = true := ⟨⟨rfl, rfl, rfl⟩, rfl, rfl, rfl⟩

theorem witness_OutputReadsThroughTheTable :
    (cmdPort.port = .cmd ∧ cmdPort.busy = false ∧ cmdPort.live = false) ∧
    ((fullDout .output).port = .none ∧ (fullDout .output).phase = .exec ∧ (fullDout .output).doutValid = true) ∧
    (during .output .exec 0#32).port = .none ∧ (during .output .exec 0#32).phase = .exec ∧
    (during .output .exec 0#32).live = true ∧ (during .output .exec 0#32).doutValid = false :=
  ⟨⟨rfl, rfl, rfl⟩, ⟨rfl, rfl, rfl⟩, rfl, rfl, rfl, rfl⟩

theorem witness_DripFlushesUpdatesAndOutputs :
    (cmdPort.port = .cmd ∧ cmdPort.busy = false ∧ cmdPort.live = false) ∧
    ((fullDout .drip).port = .none ∧ (fullDout .drip).phase = .exec ∧ (fullDout .drip).doutValid = true) ∧
    (during .drip .exec 0#32).port = .none ∧ (during .drip .exec 0#32).phase = .exec ∧
    (during .drip .exec 0#32).live = true ∧ (during .drip .exec 0#32).doutValid = false :=
  ⟨⟨rfl, rfl, rfl⟩, ⟨rfl, rfl, rfl⟩, rfl, rfl, rfl, rfl⟩

theorem witness_EraseZeroesThePermutationState :
    (cmdPort.port = .cmd ∧ cmdPort.busy = false) ∧
    (during .erase .exec 0#32).port = .none ∧ (during .erase .exec 0#32).phase = .exec := ⟨⟨rfl, rfl⟩, rfl, rfl⟩

theorem witness_AbsorbNibbleSwapsAtTheCounter :
    (cmdPort.port = .cmd ∧ cmdPort.busy = false ∧ (0x10#8 : Byte).extractLsb' 4 4 ≠ 0#4) ∧
    ((0x0F#8 : Byte).extractLsb' 4 4 = 0#4 ∧ cmdPort.live = false) ∧
    (during (.absorbNibble 0x0F#8) .exec 0#32).port = .none ∧ (during (.absorbNibble 0x0F#8) .exec 0#32).phase = .exec ∧
    (during (.absorbNibble 0x0F#8) .exec 0#32).live = true :=
  ⟨⟨rfl, rfl, by decide⟩, ⟨by decide, rfl⟩, rfl, rfl, rfl⟩

theorem witness_AbsorbByteIsLowNibbleThenHighNibble :
    (cmdPort.port = .cmd ∧ cmdPort.busy = false ∧ cmdPort.live = false) ∧
    (during (.absorbByte 0xFF#8) .exec 0#32).port = .none ∧ (during (.absorbByte 0xFF#8) .exec 0#32).phase = .exec ∧
    (during (.absorbByte 0xFF#8) .exec 0#32).live = true := ⟨⟨rfl, rfl, rfl⟩, rfl, rfl, rfl⟩

/-- ABSORB_STOP at its EXEC step, with the absorption counter at `a`. -/
def stopAt (a : Byte) : State := { during .absorbStop .exec 0#32 with ps := { PermState.initial with A := a } }

theorem witness_AbsorbStopOnlyCounts :
    (cmdPort.port = .cmd ∧ cmdPort.busy = false ∧ cmdPort.live = false) ∧
    (∀ a : Byte, (stopAt a).port = .none ∧ (stopAt a).phase = .exec ∧ (stopAt a).live = true ∧ (stopAt a).ps.A = a) ∧
    127#8 ≠ 128#8 := ⟨⟨rfl, rfl, rfl⟩, fun _ => ⟨rfl, rfl, rfl, rfl⟩, by decide⟩

theorem witness_AbsorbStepsThroughItsPhases :
    ((during .absorb .exec 0#32).port = .none ∧ (during .absorb .exec 0#32).phase = .exec ∧ (during .absorb .exec 0#32).live = true) ∧
    (∀ n : Word, (during .absorb .absMsg n).port = .none ∧ (during .absorb .absMsg n).phase = .absMsg ∧
      (during .absorb .absMsg n).cMsg = n ∧ (during .absorb .absMsg n).live = true) ∧
    ((dinPort .absorb .absMsg).port = .din 0x41#8 ∧ (dinPort .absorb .absMsg).busy = true ∧ (dinPort .absorb .absMsg).phase = .absMsg ∧
      (dinPort .absorb .absMsg).cMsg ≠ 0#32 ∧ (dinPort .absorb .absMsg).live = true) :=
  ⟨⟨rfl, rfl, rfl⟩,
   fun _ => ⟨rfl, rfl, rfl, rfl⟩,
   ⟨rfl, rfl, rfl, by decide, rfl⟩⟩

theorem witness_SqueezeStepsThroughItsPhases :
    ((during .squeeze .exec 0#32).port = .none ∧ (during .squeeze .exec 0#32).phase = .exec ∧ (during .squeeze .exec 0#32).live = true) ∧
    (∀ n : Word, (during .squeeze .squeeze n).port = .none ∧ (during .squeeze .squeeze n).phase = .squeeze ∧
      (during .squeeze .squeeze n).cOut = n ∧ (during .squeeze .squeeze n).doutValid = false ∧ (during .squeeze .squeeze n).live = true) ∧
    State.doutValid { during .squeeze .squeeze 1#32 with doutValid := true } = true :=
  ⟨⟨rfl, rfl, rfl⟩,
   fun _ => ⟨rfl, rfl, rfl, rfl, rfl⟩,
   rfl⟩

theorem witness_HashStepsThroughItsPhases :
    ((during .hash .exec 0#32).port = .none ∧ (during .hash .exec 0#32).phase = .exec ∧ (during .hash .exec 0#32).live = true) ∧
    (∀ n : Word, (during .hash .absMsg n).port = .none ∧ (during .hash .absMsg n).phase = .absMsg ∧
      (during .hash .absMsg n).cMsg = n ∧ (during .hash .absMsg n).live = true) ∧
    ((dinPort .hash .absMsg).port = .din 0x41#8 ∧ (dinPort .hash .absMsg).busy = true ∧ (dinPort .hash .absMsg).phase = .absMsg ∧
      (dinPort .hash .absMsg).cMsg ≠ 0#32 ∧ (dinPort .hash .absMsg).live = true) ∧
    (∀ n : Word, (during .hash .squeeze n).port = .none ∧ (during .hash .squeeze n).phase = .squeeze ∧
      (during .hash .squeeze n).cOut = n ∧ (during .hash .squeeze n).doutValid = false ∧ (during .hash .squeeze n).live = true) ∧
    State.doutValid { during .hash .squeeze 1#32 with doutValid := true } = true :=
  ⟨⟨rfl, rfl, rfl⟩,
   fun _ => ⟨rfl, rfl, rfl, rfl⟩,
   ⟨rfl, rfl, rfl, by decide, rfl⟩,
   fun _ => ⟨rfl, rfl, rfl, rfl, rfl⟩,
   rfl⟩

theorem witness_StreamStepsThroughItsPhases :
    ((during .stream .exec 0#32).port = .none ∧ (during .stream .exec 0#32).phase = .exec ∧ (during .stream .exec 0#32).live = true) ∧
    (∀ n : Word, (during .stream .absKey n).port = .none ∧ (during .stream .absKey n).phase = .absKey ∧
      (during .stream .absKey n).cKey = n ∧ (during .stream .absKey n).live = true) ∧
    ((dinPort .stream .absKey).port = .din 0x41#8 ∧ (dinPort .stream .absKey).busy = true ∧ (dinPort .stream .absKey).phase = .absKey ∧
      (dinPort .stream .absKey).cKey ≠ 0#32 ∧ (dinPort .stream .absKey).live = true) ∧
    (∀ n : Word, (during .stream .squeeze n).port = .none ∧ (during .stream .squeeze n).phase = .squeeze ∧
      (during .stream .squeeze n).cOut = n ∧ (during .stream .squeeze n).doutValid = false ∧ (during .stream .squeeze n).live = true) ∧
    State.doutValid { during .stream .squeeze 1#32 with doutValid := true } = true :=
  ⟨⟨rfl, rfl, rfl⟩,
   fun _ => ⟨rfl, rfl, rfl, rfl⟩,
   ⟨rfl, rfl, rfl, by decide, rfl⟩,
   fun _ => ⟨rfl, rfl, rfl, rfl, rfl⟩,
   rfl⟩

theorem witness_EncryptAndDecryptStepThroughTheirPhases :
    ((during .encrypt .exec 0#32).port = .none ∧ (during .encrypt .exec 0#32).phase = .exec ∧ (during .encrypt .exec 0#32).live = true) ∧
    (∀ n : Word, (during .encrypt .absKey n).port = .none ∧ (during .encrypt .absKey n).phase = .absKey ∧
      (during .encrypt .absKey n).cKey = n ∧ (during .encrypt .absKey n).live = true) ∧
    ((dinPort .encrypt .absKey).port = .din 0x41#8 ∧ (dinPort .encrypt .absKey).busy = true ∧ (dinPort .encrypt .absKey).phase = .absKey ∧
      (dinPort .encrypt .absKey).cKey ≠ 0#32 ∧ (dinPort .encrypt .absKey).live = true) ∧
    (∀ n : Word, (during .encrypt .absNonce n).port = .none ∧ (during .encrypt .absNonce n).phase = .absNonce ∧
      (during .encrypt .absNonce n).cNonce = n ∧ (during .encrypt .absNonce n).live = true) ∧
    ((dinPort .encrypt .absNonce).port = .din 0x41#8 ∧ (dinPort .encrypt .absNonce).busy = true ∧ (dinPort .encrypt .absNonce).phase = .absNonce ∧
      (dinPort .encrypt .absNonce).cNonce ≠ 0#32 ∧ (dinPort .encrypt .absNonce).live = true) ∧
    (∀ n : Word, (during .encrypt .cryptDrip n).port = .none ∧ (during .encrypt .cryptDrip n).phase = .cryptDrip ∧
      (during .encrypt .cryptDrip n).cMsg = n ∧ (during .encrypt .cryptDrip n).live = true) ∧
    ((during .encrypt .cryptXfer 1#32).port = .none ∧ (during .encrypt .cryptXfer 1#32).phase = .cryptXfer) ∧
    ((dinPort .encrypt .cryptXfer).port = .din 0x41#8 ∧ (dinPort .encrypt .cryptXfer).busy = true ∧
      (dinPort .encrypt .cryptXfer).phase = .cryptXfer ∧ (dinPort .encrypt .cryptXfer).doutValid = false ∧
      (dinPort .encrypt .cryptXfer).live = true) ∧
    ((during .decrypt .exec 0#32).port = .none ∧ (during .decrypt .exec 0#32).phase = .exec ∧ (during .decrypt .exec 0#32).live = true) ∧
    (∀ n : Word, (during .decrypt .absKey n).port = .none ∧ (during .decrypt .absKey n).phase = .absKey ∧
      (during .decrypt .absKey n).cKey = n ∧ (during .decrypt .absKey n).live = true) ∧
    ((dinPort .decrypt .absKey).port = .din 0x41#8 ∧ (dinPort .decrypt .absKey).busy = true ∧ (dinPort .decrypt .absKey).phase = .absKey ∧
      (dinPort .decrypt .absKey).cKey ≠ 0#32 ∧ (dinPort .decrypt .absKey).live = true) ∧
    (∀ n : Word, (during .decrypt .absNonce n).port = .none ∧ (during .decrypt .absNonce n).phase = .absNonce ∧
      (during .decrypt .absNonce n).cNonce = n ∧ (during .decrypt .absNonce n).live = true) ∧
    ((dinPort .decrypt .absNonce).port = .din 0x41#8 ∧ (dinPort .decrypt .absNonce).busy = true ∧ (dinPort .decrypt .absNonce).phase = .absNonce ∧
      (dinPort .decrypt .absNonce).cNonce ≠ 0#32 ∧ (dinPort .decrypt .absNonce).live = true) ∧
    (∀ n : Word, (during .decrypt .cryptDrip n).port = .none ∧ (during .decrypt .cryptDrip n).phase = .cryptDrip ∧
      (during .decrypt .cryptDrip n).cMsg = n ∧ (during .decrypt .cryptDrip n).live = true) ∧
    ((during .decrypt .cryptXfer 1#32).port = .none ∧ (during .decrypt .cryptXfer 1#32).phase = .cryptXfer) ∧
    ((dinPort .decrypt .cryptXfer).port = .din 0x41#8 ∧ (dinPort .decrypt .cryptXfer).busy = true ∧
      (dinPort .decrypt .cryptXfer).phase = .cryptXfer ∧ (dinPort .decrypt .cryptXfer).doutValid = false ∧
      (dinPort .decrypt .cryptXfer).live = true) :=
  ⟨⟨rfl, rfl, rfl⟩,
   fun _ => ⟨rfl, rfl, rfl, rfl⟩,
   ⟨rfl, rfl, rfl, by decide, rfl⟩,
   fun _ => ⟨rfl, rfl, rfl, rfl⟩,
   ⟨rfl, rfl, rfl, by decide, rfl⟩,
   fun _ => ⟨rfl, rfl, rfl, rfl⟩,
   ⟨rfl, rfl⟩,
   ⟨rfl, rfl, rfl, rfl, rfl⟩,
   ⟨rfl, rfl, rfl⟩,
   fun _ => ⟨rfl, rfl, rfl, rfl⟩,
   ⟨rfl, rfl, rfl, by decide, rfl⟩,
   fun _ => ⟨rfl, rfl, rfl, rfl⟩,
   ⟨rfl, rfl, rfl, by decide, rfl⟩,
   fun _ => ⟨rfl, rfl, rfl, rfl⟩,
   ⟨rfl, rfl⟩,
   ⟨rfl, rfl, rfl, rfl, rfl⟩⟩

theorem witness_AuthStepsThroughItsPhases :
    ((during .auth .exec 0#32).port = .none ∧ (during .auth .exec 0#32).phase = .exec ∧ (during .auth .exec 0#32).live = true) ∧
    (∀ n : Word, (during .auth .absKey n).port = .none ∧ (during .auth .absKey n).phase = .absKey ∧
      (during .auth .absKey n).cKey = n ∧ (during .auth .absKey n).live = true) ∧
    ((dinPort .auth .absKey).port = .din 0x41#8 ∧ (dinPort .auth .absKey).busy = true ∧ (dinPort .auth .absKey).phase = .absKey ∧
      (dinPort .auth .absKey).cKey ≠ 0#32 ∧ (dinPort .auth .absKey).live = true) ∧
    (∀ n : Word, (during .auth .absMsg n).port = .none ∧ (during .auth .absMsg n).phase = .absMsg ∧
      (during .auth .absMsg n).cMsg = n ∧ (during .auth .absMsg n).live = true) ∧
    ((dinPort .auth .absMsg).port = .din 0x41#8 ∧ (dinPort .auth .absMsg).busy = true ∧ (dinPort .auth .absMsg).phase = .absMsg ∧
      (dinPort .auth .absMsg).cMsg ≠ 0#32 ∧ (dinPort .auth .absMsg).live = true) ∧
    (∀ n : Word, (during .auth .squeeze n).port = .none ∧ (during .auth .squeeze n).phase = .squeeze ∧
      (during .auth .squeeze n).cOut = n ∧ (during .auth .squeeze n).doutValid = false ∧ (during .auth .squeeze n).live = true) ∧
    State.doutValid { during .auth .squeeze 1#32 with doutValid := true } = true :=
  ⟨⟨rfl, rfl, rfl⟩,
   fun _ => ⟨rfl, rfl, rfl, rfl⟩,
   ⟨rfl, rfl, rfl, by decide, rfl⟩,
   fun _ => ⟨rfl, rfl, rfl, rfl⟩,
   ⟨rfl, rfl, rfl, by decide, rfl⟩,
   fun _ => ⟨rfl, rfl, rfl, rfl, rfl⟩,
   rfl⟩

theorem witness_EveryStepKeepsTheInvariant :
    (during .encrypt .cryptDrip 2#32).Inv ∧
    ∃ t, step (during .encrypt .cryptDrip 2#32) = .next t := by
  refine ⟨during_inv _ _ _ rfl (by decide) (by decide) (by decide), ?_⟩
  obtain ⟨t, h, -⟩ := next_of_isSome (r := step (during .encrypt .cryptDrip 2#32)) (by decide +kernel)
  exact ⟨t, h⟩

theorem witness_NoStepFaultsUnderTheInvariant :
    (during .hash .squeeze 1#32).Inv ∧
    State.Inv { State.reset with agenda := [.write 0x00 1 0x01#32] } :=
  ⟨during_inv _ _ _ rfl (by decide) (by decide) (by decide), inv_host reset_inv _ _ _ _ _⟩

theorem witness_CommandsLeaveLengthsAndUnreadOutputAlone :
    (∃ t, exec .hash { dinPort .hash .absMsg with doutByte := 4#8, doutValid := true } = .next t) ∧
    Port.din 0x41#8 ≠ .cmd := by
  refine ⟨?_, by decide⟩
  obtain ⟨t, h, -⟩ := next_of_isSome
    (r := exec .hash { dinPort .hash .absMsg with doutByte := 4#8, doutValid := true }) (by decide +kernel)
  exact ⟨t, h⟩

theorem witness_LengthRegistersChangeOnlyByWriteAndReset :
    ∀ o ∈ [0x08, 0x0C, 0x10, 0x14],
    (∃ t, step { State.reset with agenda := [.write o 4 7#32] } = .next t) ∧
    ∀ rest, [Event.write o 4 7#32] ≠ .reset :: rest := by
  intro o ho
  simp only [List.mem_cons, List.not_mem_nil, or_false] at ho
  rcases ho with rfl | rfl | rfl | rfl <;> exact ⟨⟨_, rfl⟩, fun _ h => by cases h⟩

theorem witness_UnreadOutputByteStays :
    (∃ t, step { liveState with doutByte := 4#8, doutValid := true, agenda := [.write 0x1C 4 9#32] } = .next t) ∧
    ∀ rest, [Event.write 0x1C 4 9#32] ≠ .reset :: rest ∧ [Event.write 0x1C 4 9#32] ≠ .read 0x1C 4 :: rest :=
  ⟨⟨_, rfl⟩, fun _ => by constructor <;> (intro h; cases h)⟩

theorem witness_OnlyInitialiseAndEraseMoveLive :
    seen (fun t => t.live) (exec .init { State.reset with busy := true, op := 0x01#8, phase := .exec }) = some true ∧
    seen (fun t => t.live) (exec .hash { State.reset with busy := true, op := 0x20#8, phase := .exec }) = some true ∧
    seen (fun t => t.live) (exec .erase (during .erase .exec 0#32)) = some false ∧
    seen (fun t => t.live) (exec .hash (during .hash .squeeze 0#32)) = some false ∧
    seen (fun t => t.live) (exec .auth { liveState with port := .cmd, outLen := 256#32 }) = some false := by
  decide +kernel

theorem witness_HighLevelCommandsEndErasedAndStartFresh :
    ((during .hash .squeeze 0#32).Inv ∧ (during .hash .squeeze 0#32).Running .hash ∧ highLevel .hash = true ∧
      seen (fun t => t.busy) (exec .hash (during .hash .squeeze 0#32)) = some false) ∧
    ((during .encrypt .cryptDrip 0#32).Inv ∧ (during .encrypt .cryptDrip 0#32).Running .encrypt ∧
      seen (fun t => t.busy) (exec .encrypt (during .encrypt .cryptDrip 0#32)) = some false) ∧
    seen (fun t => t.errCode) (exec .auth { liveState with port := .cmd, outLen := 256#32 }) = some .len ∧
    (during .auth .exec 0#32).port = .none ∧ (during .auth .exec 0#32).phase = .exec := by
  refine ⟨⟨during_inv _ _ _ rfl (by decide) (by decide) (by decide), during_running _ _ _ rfl, rfl, by decide +kernel⟩,
    ⟨during_inv _ _ _ rfl (by decide) (by decide) (by decide), during_running _ _ _ rfl, by decide +kernel⟩,
    by decide +kernel, rfl, rfl⟩

theorem witness_HoldsAreExactlyThoseOfTheTable :
    (during .stream .absKey 1#32).Inv ∧ (during .stream .absKey 0#32).Inv :=
  ⟨during_inv _ _ _ rfl (by decide) (by decide) (by decide), during_inv _ _ _ rfl (by decide) (by decide) (by decide)⟩

theorem witness_EngineComesToRestWithinFiveSteps :
    (during .encrypt .exec 0#32).Inv ∧ (during .encrypt .exec 0#32).agenda = [] :=
  ⟨during_inv _ _ _ rfl (by decide) (by decide) (by decide), rfl⟩

theorem witness_DoutReadCommutesWithEngineSteps :
    (fullDout .hash).Inv ∧ (fullDout .hash).doutValid = true ∧ ¬ (fullDout .hash).Held := by
  refine ⟨?_, rfl, fun h => ?_⟩
  · exact inv_doutPut (during_inv .hash .exec 0#32 rfl (by decide) (by decide) (by decide)) 4#8
  · have h := congrArg (seen fun t => t.phase) h
    have k : seen (fun t => t.phase) (takeEvent .engine (fullDout .hash)) = some .absMsg := by decide +kernel
    rw [k] at h
    cases h

theorem witness_SecretsDoNotSteerTheSequencer :
    (during .stream .squeeze 1#32).public = State.public { during .stream .squeeze 1#32 with ps := { PermState.initial with W := 3#8 } } ∧
    (during .stream .squeeze 1#32).ps.W ≠ 3#8 := ⟨rfl, by decide⟩

theorem witness_LawsOfThePrimitives :
    IsPermutation PermState.initial.S ∧ PermState.initial.W.toNat % 2 = 1 ∧
    ∀ i ∈ [Instr.update, .output, .crush, .whip, .shuffle],
      (during i .exec 0#32).port = .none ∧ (nextState (exec i (during i .exec 0#32))).isSome = true := by
  refine ⟨isPermutation_initial, rfl, ?_⟩
  intro i hi
  simp only [List.mem_cons, List.not_mem_nil, or_false] at hi
  rcases hi with rfl | rfl | rfl | rfl | rfl <;> exact ⟨rfl, by decide +kernel⟩

theorem witness_LawsOfAbsorption :
    PermState.initial.LiveInv ∧ (127#8 : Byte).toNat < 128 ∧
    PermState.initial.A.toNat < 128 ∧ PermState.initial.A = PermState.erased.A := ⟨PermState.LiveInv.initial, by decide, by decide, rfl⟩

theorem witness_AbsorbShufflesOncePer128Nibbles :
    PermState.initial.A = 0#8 ∧ List.replicate 65 0#8 ≠ [] := ⟨rfl, by decide⟩

theorem witness_SqueezingInPartsGivesTheSameBytes :
    8#32 ≤ 300#32 := by decide

theorem witness_EncryptOfZerosIsTheKeystream :
    (List.replicate 63 (0x6B#8 : Byte)).length % 64 ≠ 0 ∧
    (List.replicate 65 (0x6B#8 : Byte)).length % 64 ≠ 0 := by decide

/-! ### Complete runs -/

/-- The run of a command from `s`, when it ends idle and drained. -/
theorem complete_of {w : Word} {es : List Event} {s : State} (hi : State.Inv s) (hb : s.busy = false)
    (hd : s.doutValid = false) (ha : s.agenda = .write 0x00 4 w :: es) (hn : es.all noCommand = true)
    (hu : dutiful (es.length + 1) s = true)
    (hr : seen (fun t => (t.busy, t.doutValid)) (Sys2Proof.core.run (es.length + 1) s) = some (false, false)) :
    ∃ t, CompleteRun w es s t := by
  unfold seen at hr
  obtain ⟨t, h, k⟩ := next_of_isSome (r := Sys2Proof.core.run (es.length + 1) s) (by
    cases hx : nextState (Sys2Proof.core.run (es.length + 1) s) with
    | none => rw [hx] at hr; cases hr
    | some _ => rfl)
  rw [k] at hr
  have hr : (t.busy, t.doutValid) = (false, false) := Option.some.inj hr
  exact ⟨t, hi, hb, hd, ha, hn, hu, h, congrArg Prod.fst hr, congrArg Prod.snd hr⟩

def din (b : Word) : Event := .write 0x18 4 b

/-- A host that has set the lengths and is about to write `w` to CMD. -/
def host (s : State) (w : Word) (es : List Event) (n out : Word) : State :=
  { s with keyLen := n, nonceLen := n, msgLen := n, outLen := out, agenda := .write 0x00 4 w :: es }

def absorbEvents : List Event :=
  [.engine, din 0x41#32, din 0x42#32, .write 0x10 4 9#32, .engine]

theorem witness_AbsorbRunAbsorbsTheData :
    (∃ t, CompleteRun 0x12#32 absorbEvents (host liveState 0x12#32 absorbEvents 2#32 0#32) t) ∧
    (host liveState 0x12#32 absorbEvents 2#32 0#32).live = true :=
  ⟨complete_of (inv_host live_inv _ _ _ _ _) rfl rfl rfl (by decide) (by decide +kernel) (by decide +kernel),
    rfl⟩

def squeezeEvents : List Event :=
  [.engine, .engine, .read 0x1C 4, .engine, .engine, .read 0x1C 4, .engine]

theorem witness_SqueezeRunDeliversTheSqueeze :
    (∃ t, CompleteRun 0x19#32 squeezeEvents (host liveState 0x19#32 squeezeEvents 0#32 2#32) t) ∧
    (host liveState 0x19#32 squeezeEvents 0#32 2#32).live = true :=
  ⟨complete_of (inv_host live_inv _ _ _ _ _) rfl rfl rfl (by decide) (by decide +kernel) (by decide +kernel),
    rfl⟩

def hashEvents : List Event :=
  [.engine, din 0x41#32, .engine, .engine, .read 0x1C 4, .engine, .engine, .read 0x1C 4]

theorem witness_HashRunDeliversTheHash :
    ∃ t, CompleteRun 0x20#32 hashEvents (host liveState 0x20#32 hashEvents 1#32 2#32) t :=
  complete_of (inv_host live_inv _ _ _ _ _) rfl rfl rfl (by decide) (by decide +kernel) (by decide +kernel)

theorem witness_HashRunDeliversTheHash_len :
    ∃ t, CompleteRun 0x20#32 [.read 0x04 4] (host liveState 0x20#32 [.read 0x04 4] 1#32 256#32) t :=
  complete_of (inv_host live_inv _ _ _ _ _) rfl rfl rfl (by decide) (by decide +kernel) (by decide +kernel)

def streamEvents : List Event :=
  [.engine, din 0x41#32, .engine, .engine, .read 0x1C 4, .engine, .engine, .read 0x1C 4]

theorem witness_StreamRunDeliversTheKeystream :
    ∃ t, CompleteRun 0x21#32 streamEvents (host State.reset 0x21#32 streamEvents 1#32 2#32) t :=
  complete_of (inv_host reset_inv _ _ _ _ _) rfl rfl rfl (by decide) (by decide +kernel) (by decide +kernel)

def encryptEvents : List Event :=
  [.engine, din 0x6B#32, .engine, din 0x6E#32, .engine, .engine, din 0x68#32, .engine, .read 0x1C 4, .engine]

theorem witness_EncryptRunDeliversTheCiphertext :
    ∃ t, CompleteRun 0x22#32 encryptEvents (host State.reset 0x22#32 encryptEvents 1#32 0#32) t :=
  complete_of (inv_host reset_inv _ _ _ _ _) rfl rfl rfl (by decide) (by decide +kernel) (by decide +kernel)

def decryptEvents : List Event :=
  [.engine, din 0x6B#32, .engine, din 0x6E#32, .engine, .engine, din 0x68#32, .engine, .read 0x1C 4, .engine]

theorem witness_DecryptRunDeliversThePlaintext :
    ∃ t, CompleteRun 0x23#32 decryptEvents (host State.reset 0x23#32 decryptEvents 1#32 0#32) t :=
  complete_of (inv_host reset_inv _ _ _ _ _) rfl rfl rfl (by decide) (by decide +kernel) (by decide +kernel)

def authEvents : List Event :=
  [.engine, din 0x6B#32, .engine, din 0x41#32, .engine, .engine, .read 0x1C 4, .engine, .engine, .read 0x1C 4]

theorem witness_AuthRunDeliversTheTag :
    ∃ t, CompleteRun 0x24#32 authEvents (host State.reset 0x24#32 authEvents 1#32 2#32) t :=
  complete_of (inv_host reset_inv _ _ _ _ _) rfl rfl rfl (by decide) (by decide +kernel) (by decide +kernel)

theorem witness_AuthRunDeliversTheTag_len :
    ∃ t, CompleteRun 0x24#32 [.read 0x04 4] (host State.reset 0x24#32 [.read 0x04 4] 1#32 256#32) t :=
  complete_of (inv_host reset_inv _ _ _ _ _) rfl rfl rfl (by decide) (by decide +kernel) (by decide +kernel)

/-- The host takes `n` output bytes, each as soon as the engine has put it. -/
def drainEvents (n : Nat) : List Event := (List.replicate n [Event.engine, .read 0x1C 4]).flatten

def hashEvents255 : List Event := [.engine, din 0x41#32, .engine] ++ drainEvents 255 ++ [.engine]

/-- The longest length R83 accepts. -/
theorem witness_HashRunDeliversTheHash_255 :
    ∃ t, CompleteRun 0x20#32 hashEvents255 (host liveState 0x20#32 hashEvents255 1#32 255#32) t :=
  complete_of (inv_host live_inv _ _ _ _ _) rfl rfl rfl (by decide +kernel) (by decide +kernel) (by decide +kernel)

def authEvents255 : List Event := [.engine, din 0x6B#32, .engine, din 0x41#32, .engine] ++ drainEvents 255 ++ [.engine]

/-- The longest length R83 accepts. -/
theorem witness_AuthRunDeliversTheTag_255 :
    ∃ t, CompleteRun 0x24#32 authEvents255 (host State.reset 0x24#32 authEvents255 1#32 255#32) t :=
  complete_of (inv_host reset_inv _ _ _ _ _) rfl rfl rfl (by decide +kernel) (by decide +kernel) (by decide +kernel)

/-- `liveState` with an output byte of an earlier command still in DOUT. -/
def unreadState : State := { liveState with doutByte := 4#8, doutValid := true }

/-- The run of a command from `unreadState`, when it ends idle and drained. -/
theorem following_of {w : Word} {es : List Event} {n out : Word} (hn : es.all noCommand = true)
    (hu : dutiful (es.length + 1) (host unreadState w es n out) = true)
    (hr : seen (fun t => (t.busy, t.doutValid)) (Sys2Proof.core.run (es.length + 1) (host unreadState w es n out)) =
      some (false, false)) : ∃ t, FollowingRun w es (host unreadState w es n out) t := by
  unfold seen at hr
  obtain ⟨t, h, k⟩ := next_of_isSome (r := Sys2Proof.core.run (es.length + 1) (host unreadState w es n out)) (by
    cases hx : nextState (Sys2Proof.core.run (es.length + 1) (host unreadState w es n out)) with
    | none => rw [hx] at hr; cases hr
    | some _ => rfl)
  rw [k] at hr
  have hr : (t.busy, t.doutValid) = (false, false) := Option.some.inj hr
  exact ⟨t, inv_host (inv_doutPut live_inv 4#8) _ _ _ _ _, rfl, rfl, rfl, hn, hu, h, congrArg Prod.fst hr,
    congrArg Prod.snd hr⟩

/-- Some run of `w` from `unreadState`, with `n` bytes in every input field and `out` of output, has the events `es`. -/
def Follows (w : Word) (n out : Word) (es : List Event) : Prop :=
  ∃ t, FollowingRun w es (host unreadState w es n out) t

/-- The earlier byte is read at the end of the run, in the middle of it, or before its first step; every accepted and
every rejected case, the longest accepted length among them. -/
theorem witness_EarlierOutputByteIsDeliveredFirst :
    (∀ w es n out, (host unreadState w es n out).live = true) ∧
    Follows 0x12#32 2#32 0#32 (absorbEvents ++ [.read 0x1C 4]) ∧
    Follows 0x19#32 0#32 2#32 ([.engine, .engine, .read 0x1C 4] ++ drainEvents 2 ++ [.engine]) ∧
    Follows 0x20#32 1#32 255#32 (.read 0x1C 4 :: hashEvents255) ∧
    Follows 0x20#32 1#32 256#32 [.read 0x1C 4] ∧
    Follows 0x21#32 1#32 2#32 (.read 0x1C 4 :: streamEvents) ∧
    Follows 0x22#32 1#32 0#32 (.engine :: .read 0x1C 4 :: encryptEvents.drop 1) ∧
    Follows 0x23#32 1#32 0#32 (.engine :: .read 0x1C 4 :: decryptEvents.drop 1) ∧
    Follows 0x24#32 1#32 255#32 (.read 0x1C 4 :: authEvents255) ∧
    Follows 0x24#32 1#32 256#32 [.read 0x1C 4] := by
  refine ⟨fun _ _ _ _ => rfl, ?_, ?_, ?_, ?_, ?_, ?_, ?_, ?_, ?_⟩ <;>
    exact following_of (by decide +kernel) (by decide +kernel) (by decide +kernel)

end Sys2Proof.Tests
end

section
/-! PROOFS. The state (spec/10_state.md): its reset value, the invariant of the machine, which transitions move the length
registers, `ERRCODE`, DOUT and `LIVE`, and what STATUS shows. The lemmas about a step, a command's transition and a host
read come first; the obligations are settled at the end of the part that proves them. -/

namespace Sys2Proof.Machine

variable {i : Instr} {s t : State} {e : Event} {rest : List Event}

/-! ### A step, by the event it takes -/

/-- `e` is the event that the next step of `s` takes and `rest` is what it leaves on the agenda: the first event there is,
and with none the engine's turn (log entries 1 and 4). -/
def State.NextEvent (s : State) (e : Event) (rest : List Event) : Prop :=
  s.agenda = e :: rest ∨ (s.agenda = [] ∧ rest = [] ∧ e = .engine)

theorem step_next (h : step s = .next t) :
    ∃ e rest, s.NextEvent e rest ∧ EventStep { s with agenda := rest } e t := by
  cases ha : s.agenda with
  | nil =>
    refine ⟨.engine, [], .inr ⟨ha, rfl, rfl⟩, ?_⟩
    rw [← ha]
    exact takeEvent_next ((step_of_nil ha).symm.trans h)
  | cons e rest => exact ⟨e, rest, .inl ha, takeEvent_next ((step_of_cons ha).symm.trans h)⟩

/-! ### Host reads -/

/-- The only side effect a read can have is to empty DOUT (R46, R49). -/
theorem readEffect_cases (r : Option HostReg) (s : State) :
    readEffect r s = s ∨ readEffect r s = { s with doutByte := 0#8, doutValid := false } := by
  unfold readEffect
  split
  · split
    · exact .inr rfl
    · exact .inl rfl
  all_goals exact .inl rfl

theorem readEffect_withPs (r : Option HostReg) (s : State) (p : PermState) :
    readEffect r { s with ps := p } = { readEffect r s with ps := p } := by
  unfold readEffect
  split
  · split <;> rfl
  all_goals rfl

theorem readValue_withPs (r : Option HostReg) (s : State) (p : PermState) :
    readValue r { s with ps := p } = readValue r s := rfl

theorem readReg_withPs (o : Nat) (s : State) (p : PermState) :
    readReg o { s with ps := p } = { readReg o s with ps := p } := by
  unfold readReg
  rw [readEffect_withPs, readValue_withPs]

/-- Settles O42: a read in the window notes a value that `PS` is no part of, and its side effect leaves `PS` alone; one
outside the window is refused whatever `PS` is. -/
theorem hostReadsDoNotSeeThePermutationState : Obligations.HostReadsDoNotSeeThePermutationState := by
  intro s p o n rest
  rw [step_cons { s with ps := p }, step_cons s]
  by_cases ha : accessOk o n = true
  · rw [takeEvent_read ha, takeEvent_read ha]
    exact congrArg _ (readReg_withPs o { s with agenda := rest } p)
  · rw [takeEvent_read_refused ha, takeEvent_read_refused ha]

/-! ### The invariant -/

theorem inv_hostSide (h : s.Inv) (k n m o : Word) (a : List Event) (r : List (Nat × Word)) :
    State.Inv { s with keyLen := k, nonceLen := n, msgLen := m, outLen := o, agenda := a, reads := r } :=
  ⟨h.live, h.erased, h.port, h.dout, h.idle, h.running, h.xfer, h.squeeze⟩

theorem inv_doutEmptied (h : s.Inv) : State.Inv { s with doutByte := 0#8, doutValid := false } :=
  ⟨h.live, h.erased, h.port, fun _ => rfl, h.idle, h.running, h.xfer, h.squeeze⟩

theorem inv_readReg (h : s.Inv) (o : Nat) : (readReg o s).Inv := by
  have effect : (readEffect (hostReg o) s).Inv := by
    rcases readEffect_cases (hostReg o) s with e | e <;> rw [e]
    · exact h
    · exact inv_doutEmptied h
  exact inv_hostSide effect _ _ _ _ _ _

/-- The engine's state after a reset meets the invariant, whatever is on the host's agenda and in its reads. -/
theorem inv_applyReset (s : State) : s.applyReset.Inv where
  live := fun h => by cases h
  erased := fun _ => rfl
  port := rfl
  dout := fun _ => rfl
  idle := fun _ => ⟨rfl, rfl, rfl, rfl, rfl, rfl, rfl⟩
  running := fun h => by cases h
  xfer := fun h => by cases h
  squeeze := fun h => by cases h

/-- R181: LEN erases while the engine waits, so the phase that asks for `A = 0` is not the one it is in. -/
theorem inv_eraseState (h : s.Inv) (b : s.busy = false) : s.eraseState.Inv where
  live := fun l => by cases l
  erased := fun _ => rfl
  port := h.port
  dout := h.dout
  idle := h.idle
  running := fun k => absurd (b.symm.trans k) Bool.false_ne_true
  xfer := h.xfer
  squeeze := fun _ => rfl

theorem inv_reject (h : s.Inv) (b : s.busy = false) (c : ErrCode) : (s.reject c).Inv := by
  cases c with
  | len => exact inv_errCode (inv_eraseState h b) _
  | ok | illegal | noState => exact inv_errCode h _

theorem inv_issue (h : s.Inv) (b : s.busy = false) (i : Instr) : (s.issue i).Inv := by
  have outcome := issue_cases i s
  generalize s.issue i = t at outcome
  cases outcome with
  | illegal | noState | len => exact inv_reject h b _
  | accepted hw n c => exact inv_accept h hw n c

/-- Every access a command can serve keeps the invariant: a CMD write of any command, and the internal step and the DIN
write of the command in progress. -/
theorem exec_inv (h : s.Inv) {p : Port} (hp : p = .cmd ∨ s.Running i)
    (r : exec i { s with port := p } = .next t) : t.Inv := by
  have running : p ≠ .cmd → s.Running i := hp.resolve_left
  have released : State.release { s with port := p } = s := port_eta h.port p
  cases exec_next r with
  | ignored | lost => rw [released]; exact h
  | issued _ b => rw [released]; exact inv_issue h b i
  | taken b q _ _ st =>
    rw [released] at st
    exact byte_inv h (running (by rintro rfl; cases q)) st
  | internal q _ st =>
    obtain rfl : p = .none := q
    rw [port_eta' h.port] at st
    exact internal_inv h (running (by decide)) st

theorem event_inv (h : s.Inv) (st : EventStep s e t) : t.Inv := by
  have released : s.release = s := release_of_none h.port
  cases st with
  | waits | badBusy | byteLost => rw [released]; exact h
  | turn i hr r => exact exec_inv h (.inr hr) r
  | byte v i hr r => exact exec_inv h (.inr hr) r
  | command w i d r => exact exec_inv h (.inl rfl) r
  | badIdle w r d b => rw [released]; exact inv_reject h b _
  | keyLen | nonceLen | msgLen | outLen => exact inv_hostSide h _ _ _ _ _ _
  | ignored => exact h
  | read o ho => exact inv_readReg h o
  | reset => exact inv_applyReset s

/-- Settles O31: `State.reset` is what a reset event makes of it. -/
theorem invariantHoldsAfterReset : Obligations.InvariantHoldsAfterReset :=
  inv_applyReset State.reset

/-- Settles O32, by the event the step takes: taking it off the agenda keeps the invariant, and so does the event. -/
theorem everyStepKeepsTheInvariant : Obligations.EveryStepKeepsTheInvariant := by
  intro s t h hstep
  obtain ⟨e, rest, -, st⟩ := step_next hstep
  exact event_inv (inv_hostSide h _ _ _ _ rest _) st

/-! ### What no command touches -/

/-- The four length registers are as before (R23). -/
structure SameLengths (s t : State) : Prop where
  keyLen : t.keyLen = s.keyLen
  nonceLen : t.nonceLen = s.nonceLen
  msgLen : t.msgLen = s.msgLen
  outLen : t.outLen = s.outLen

/-- The length registers, the host's side and the port are as before, and an unread output byte is still in DOUT. -/
structure ShellFrame (s t : State) : Prop extends SameLengths s t where
  agenda : t.agenda = s.agenda
  reads : t.reads = s.reads
  port : t.port = s.port
  unread : s.doutValid = true → t.doutValid = true ∧ t.doutByte = s.doutByte

theorem ShellFrame.refl (s : State) : ShellFrame s s := ⟨⟨rfl, rfl, rfl, rfl⟩, rfl, rfl, rfl, fun d => ⟨d, rfl⟩⟩

/-- Only the engine's own state and `ERRCODE` change. -/
theorem ShellFrame.engine (s : State) (ps : PermState) (live busy : Bool) (op imm : Byte) (phase : Phase)
    (cKey cNonce cMsg cOut : Word) (errCode : ErrCode) :
    ShellFrame s { s with ps, live, busy, op, imm, phase, cKey, cNonce, cMsg, cOut, errCode } :=
  ⟨⟨rfl, rfl, rfl, rfl⟩, rfl, rfl, rfl, fun d => ⟨d, rfl⟩⟩

/-- A byte goes to DOUT only where none is unread (R47). -/
theorem ShellFrame.doutPut (h : ShellFrame s t) (d : s.doutValid = false) (v : Byte) : ShellFrame s (t.doutPut v) :=
  ⟨⟨h.keyLen, h.nonceLen, h.msgLen, h.outLen⟩, h.agenda, h.reads, h.port,
    fun k => absurd (d.symm.trans k) Bool.false_ne_true⟩

theorem internal_frame (r : InternalStep i s t) : ShellFrame s t := by
  cases r with
  | held => exact .refl s
  | emit f _ _ d => exact .doutPut (.engine s _ _ _ _ _ _ _ _ _ _ _) d _
  | squeezed _ _ _ d => exact .doutPut (.engine s _ _ _ _ _ _ _ _ _ _ _) d _
  | init | mix | erase | start | opened | mixed | nonceTaken | dripped | cryptDone | absorbDone | squeezeDone
  | outputDone => exact .engine s _ _ _ _ _ _ _ _ _ _ _

theorem internal_errCode (r : InternalStep i s t) : t.errCode = s.errCode := by
  cases r <;> rfl

/-- R25: the byte that CRYPT_XFER takes is asked for only while DOUT is empty. -/
theorem doutValid_of_dinReq_xfer (d : dinReq s = true) (h : s.phase = .cryptXfer) : s.doutValid = false := by
  simpa [h] using ((dinReq_iff s).1 d).2

theorem byte_frame {b : Byte} (d : dinReq s = true) (r : ByteStep i b s t) : ShellFrame s t := by
  cases r with
  | key | nonce | msg => exact .engine s _ _ _ _ _ _ _ _ _ _ _
  | encrypted _ h | decrypted _ h =>
    exact .doutPut (.engine s _ _ _ _ _ _ _ _ _ _ _) (doutValid_of_dinReq_xfer d h) _

theorem byte_errCode {b : Byte} (r : ByteStep i b s t) : t.errCode = s.errCode := by
  cases r <;> rfl

theorem issue_frame (i : Instr) (s : State) : ShellFrame s (s.issue i) := by
  have outcome := issue_cases i s
  generalize s.issue i = t at outcome
  cases outcome <;> exact .engine s _ _ _ _ _ _ _ _ _ _ _

theorem exec_frame (h : exec i s = .next t) : ShellFrame s.release t := by
  cases exec_next h with
  | ignored | lost => exact .refl _
  | issued => exact issue_frame i _
  | taken b _ d _ r => exact byte_frame d r
  | internal p _ r => rw [release_of_none p]; exact internal_frame r

theorem exec_sameLengths {p : Port} (h : exec i { s with port := p } = .next t) : SameLengths s t := by
  have f := exec_frame h
  exact ⟨f.keyLen, f.nonceLen, f.msgLen, f.outLen⟩

/-- R24, R96: outside a CMD write no transition of a command writes `ERRCODE`. -/
theorem exec_errCode (h : exec i s = .next t) (hp : s.port ≠ .cmd) : t.errCode = s.errCode := by
  cases exec_next h with
  | ignored p | issued p => exact absurd p hp
  | lost => rfl
  | taken b _ _ _ r => exact (byte_errCode r).trans s.release_errCode
  | internal _ _ r => exact internal_errCode r

/-- Settles O34, by the frame of a transition: internal steps and taken bytes write DOUT only when it is empty. -/
theorem commandsLeaveLengthsAndUnreadOutputAlone : Obligations.CommandsLeaveLengthsAndUnreadOutputAlone := by
  intro i s t h
  have f := exec_frame h
  exact ⟨f.keyLen, f.nonceLen, f.msgLen, f.outLen, f.agenda, f.reads, f.port, f.unread, exec_errCode h⟩

/-! ### The length registers -/

/-- What the event `e` may do to the length register at offset `o` that holds `old`: keep it, or be the write of its new
value (R23). -/
def LengthKeptOrWritten (e : Event) (o : Nat) (old new : Word) : Prop :=
  new = old ∨ ∃ v, e = .write o 4 v ∧ new = v

/-- The four length registers at an event. -/
structure LengthsStep (e : Event) (s t : State) : Prop where
  keyLen : LengthKeptOrWritten e 0x08 s.keyLen t.keyLen
  nonceLen : LengthKeptOrWritten e 0x0C s.nonceLen t.nonceLen
  msgLen : LengthKeptOrWritten e 0x10 s.msgLen t.msgLen
  outLen : LengthKeptOrWritten e 0x14 s.outLen t.outLen

theorem SameLengths.lengthsStep (h : SameLengths s t) (e : Event) : LengthsStep e s t :=
  ⟨.inl h.keyLen, .inl h.nonceLen, .inl h.msgLen, .inl h.outLen⟩

theorem readReg_sameLengths (o : Nat) (s : State) : SameLengths s (readReg o s) := by
  unfold readReg
  rcases readEffect_cases (hostReg o) s with e | e <;> rw [e] <;> exact ⟨rfl, rfl, rfl, rfl⟩

theorem event_lengths (st : EventStep s e t) (he : e ≠ .reset) : LengthsStep e s t := by
  cases st with
  | waits | badBusy | badIdle | byteLost | ignored => exact ⟨.inl rfl, .inl rfl, .inl rfl, .inl rfl⟩
  | turn i _ r | command w i _ r | byte v i _ r => exact (exec_sameLengths r).lengthsStep _
  | keyLen v => exact ⟨.inr ⟨v, rfl, rfl⟩, .inl rfl, .inl rfl, .inl rfl⟩
  | nonceLen v => exact ⟨.inl rfl, .inr ⟨v, rfl, rfl⟩, .inl rfl, .inl rfl⟩
  | msgLen v => exact ⟨.inl rfl, .inl rfl, .inr ⟨v, rfl, rfl⟩, .inl rfl⟩
  | outLen v => exact ⟨.inl rfl, .inl rfl, .inl rfl, .inr ⟨v, rfl, rfl⟩⟩
  | read o _ => exact (readReg_sameLengths o s).lengthsStep _
  | reset => exact absurd rfl he

/-- A write that a step takes stands first on the agenda. -/
theorem LengthKeptOrWritten.on_agenda {o : Nat} {old new : Word} (h : LengthKeptOrWritten e o old new)
    (ha : s.NextEvent e rest) : new = old ∨ ∃ v rest, s.agenda = .write o 4 v :: rest ∧ new = v := by
  rcases h with h | ⟨v, rfl, h⟩
  · exact .inl h
  · rcases ha with ha | ⟨-, -, ha⟩
    · exact .inr ⟨v, rest, ha, h⟩
    · cases ha

/-- Settles O35, by the event the step takes: only the four writes of the register map touch a length register. -/
theorem lengthRegistersChangeOnlyByWriteAndReset : Obligations.LengthRegistersChangeOnlyByWriteAndReset := by
  intro s t hstep noReset
  obtain ⟨e, rest, ha, st⟩ := step_next hstep
  have he : e ≠ .reset := by
    rintro rfl
    rcases ha with ha | ⟨-, -, ha⟩
    · exact noReset rest ha
    · cases ha
  have l := event_lengths st he
  exact ⟨l.keyLen.on_agenda ha, l.nonceLen.on_agenda ha, l.msgLen.on_agenda ha, l.outLen.on_agenda ha⟩

/-! ### LIVE -/

/-- Everything a transition of a command can do to `LIVE` (R19, R172, R181). -/
inductive LiveMove (i : Instr) (s t : State) : Prop
  | kept (l : t.live = s.live)
  | initialised (p : s.port = .none) (h : s.phase = .exec) (e : i = .init ∨ highLevel i = true) (l : t.live = true)
  | erased (p : s.port = .none) (h : s.phase = .exec) (e : i = .erase) (l : t.live = false)
  | ended (p : s.port = .none) (h : s.phase ≠ .exec) (e : highLevel i = true) (b : t.busy = false) (l : t.live = false)
  | rejected (p : s.port = .cmd) (b : s.busy = false) (e : i = .hash ∨ i = .auth) (o : 255 < s.outLen.toNat)
      (c : t.errCode = .len) (l : t.live = false)

theorem highLevel_of_startPhase {p : Phase} (e : startPhase i = some p) : highLevel i = true := by
  cases i <;> simp [startPhase, highLevel] at e ⊢

theorem checksOutLen_iff : checksOutLen i = true ↔ i = .hash ∨ i = .auth := by
  cases i <;> simp [checksOutLen]

theorem internal_liveMove (p : s.port = .none) (r : InternalStep i s t) : LiveMove i s t := by
  cases r with
  | held | mix | emit | opened | mixed | nonceTaken | dripped | absorbDone | squeezed | squeezeDone => exact .kept rfl
  | init e h => exact .initialised p h (.inl e) rfl
  | start _ e h => exact .initialised p h (.inr (highLevel_of_startPhase e)) rfl
  | erase e h => exact .erased p h e rfl
  | cryptDone e h =>
    exact .ended p (by rw [h]; decide) (by rcases e with rfl | rfl <;> rfl) rfl rfl
  | outputDone e h =>
    exact .ended p (by rw [h]; decide) (by rcases e with rfl | rfl | rfl <;> rfl) rfl rfl

theorem issue_liveMove (p : s.port = .cmd) (b : s.busy = false) (i : Instr) :
    LiveMove i s (s.release.issue i) := by
  have outcome := issue_cases i s.release
  generalize s.release.issue i = t at outcome
  cases outcome with
  | illegal | noState | accepted => exact .kept rfl
  | len _ _ c o => exact .rejected p b (checksOutLen_iff.1 c) ((outLenMax_lt _).1 o) rfl rfl

theorem exec_liveMove (h : exec i s = .next t) : LiveMove i s t := by
  cases exec_next h with
  | ignored | lost => exact .kept rfl
  | issued p b => exact issue_liveMove p b i
  | taken b _ _ _ r =>
    obtain ⟨-, -, -, live⟩ := byte_op r
    exact .kept live
  | internal p _ r => exact internal_liveMove p r

/-- Settles O37, by the moves of `LIVE`: the one that sets it and the three that clear it are the clauses. -/
theorem onlyInitialiseAndEraseMoveLive : Obligations.OnlyInitialiseAndEraseMoveLive := by
  intro i s t h
  constructor
  · intro dead live
    cases exec_liveMove h with
    | initialised p h e => exact ⟨p, h, e⟩
    | kept l => exact absurd (dead.symm.trans (l.symm.trans live)) Bool.false_ne_true
    | erased _ _ _ l | ended _ _ _ _ l | rejected _ _ _ _ _ l =>
      exact absurd (l.symm.trans live) Bool.false_ne_true
  · intro live dead
    cases exec_liveMove h with
    | erased p h e => exact .inl ⟨p, h, e⟩
    | ended p h e b => exact .inr (.inl ⟨p, h, e, b⟩)
    | rejected p b e o c => exact .inr (.inr ⟨p, b, e, o, c⟩)
    | kept l => exact absurd (dead.symm.trans (l.trans live)) Bool.false_ne_true
    | initialised _ _ _ l => exact absurd (dead.symm.trans l) Bool.false_ne_true

/-! ### STATUS -/

theorem statusWord_busy (s : State) : (statusWord s).getLsbD 0 = s.busy := by simp [statusWord]
theorem statusWord_live (s : State) : (statusWord s).getLsbD 1 = s.live := by simp [statusWord]
theorem statusWord_dinReq (s : State) : (statusWord s).getLsbD 2 = dinReq s := by simp [statusWord]
theorem statusWord_doutValid (s : State) : (statusWord s).getLsbD 3 = s.doutValid := by simp [statusWord]

theorem statusWord_errCode (s : State) : (statusWord s).extractLsb' 4 2 = s.errCode.bits := by
  apply BitVec.eq_of_getLsbD_eq
  intro j hj
  interval_cases j <;> simp [statusWord]

theorem statusWord_phase (s : State) : (statusWord s).extractLsb' 8 3 = s.phase.bits := by
  apply BitVec.eq_of_getLsbD_eq
  intro j hj
  interval_cases j <;> simp [statusWord]

theorem statusWord_zero_low (s : State) : (statusWord s).extractLsb' 6 2 = 0#2 := by
  apply BitVec.eq_of_getLsbD_eq
  intro j hj
  interval_cases j <;> simp [statusWord]

theorem statusWord_zero_high (s : State) : (statusWord s).extractLsb' 11 21 = 0#21 := by
  apply BitVec.eq_of_getLsbD_eq
  intro j hj
  simp (disch := omega) [statusWord, BitVec.getLsbD_of_ge]

/-- Settles O9 with the word `statusWord`, field by field. -/
theorem statusReadAssemblesTheFlags : Obligations.StatusReadAssemblesTheFlags := by
  intro s v rest
  refine ⟨rfl, statusWord s, rfl, statusWord_busy s, statusWord_live s, ?_, statusWord_doutValid s, ?_,
    statusWord_zero_low s, ?_, statusWord_zero_high s⟩
  · rw [statusWord_dinReq, dinReq_iff]
  · rw [statusWord_errCode]; cases s.errCode <;> rfl
  · rw [statusWord_phase]; cases s.phase <;> rfl

/-! ### Reset -/

theorem held_of_idle (b : s.busy = false) (p : s.port = .none) : s.Held := by
  unfold State.Held
  rw [takeEvent_engine, runCurrent_idle b, release_of_none p]

/-- Settles O5: each field of `State.reset` is the table's by its definition; the engine waits because it is idle. -/
theorem resetStateIsTheResetTable : Obligations.ResetStateIsTheResetTable :=
  ⟨tableRead_erased, rfl, rfl, rfl, rfl, rfl, rfl, rfl, rfl, rfl, rfl, rfl, rfl, rfl, rfl, rfl, rfl, rfl, rfl, rfl, rfl,
    rfl, rfl, rfl, rfl, held_of_idle rfl rfl⟩

end Sys2Proof.Machine
end

section
/-! PROOFS. The register window (spec/20_memory.md): what each register reads and stores, the DIN write as the step that
consumes its byte, the byte in DOUT that nothing but a read and reset takes, and its place at the head of what the next
command's run delivers. -/

namespace Sys2Proof.Machine

variable {i : Instr} {s t : State} {e : Event} {rest es : List Event} {w v : Word} {b : Byte}

/-! ### Reads of the window -/

/-- R49: no read but that of DOUT has a side effect. -/
theorem readEffect_of_ne_dout {r : Option HostReg} (h : r ≠ some .dout) (s : State) : readEffect r s = s := by
  unfold readEffect
  split
  · exact absurd rfl h
  all_goals rfl

theorem hostReg_ne_dout {o : Nat} (h : o ≠ 0x1C) : hostReg o ≠ some .dout := mt hostReg_eq_dout h

theorem readReg_of_ne_dout {o : Nat} (h : o ≠ 0x1C) (s : State) :
    readReg o s = { s with reads := (o, readValue (hostReg o) s) :: s.reads } := by
  unfold readReg
  rw [readEffect_of_ne_dout (hostReg_ne_dout h)]

theorem hostReg_dout : hostReg 0x1C = some .dout := rfl

theorem readReg_dout_full (d : s.doutValid = true) :
    readReg 0x1C s = { s with reads := (0x1C, zext32 s.doutByte) :: s.reads, doutByte := 0#8, doutValid := false } := by
  simp only [readReg, hostReg_dout, readEffect, readValue, if_pos d]

theorem readReg_dout_empty (d : s.doutValid = false) :
    readReg 0x1C s = { s with reads := (0x1C, 0#32) :: s.reads } := by
  simp only [readReg, hostReg_dout, readEffect, readValue, d, Bool.false_eq_true, if_false]

/-- A step that takes a read of a whole register. -/
theorem step_read {o : Nat} (h : o % 4 = 0) (s : State) (rest : List Event) :
    step { s with agenda := .read o 4 :: rest } = .next (readReg o { s with agenda := rest }) :=
  takeEvent_read (accessOk_iff.2 ⟨rfl, h⟩) _

/-- A step that takes a write of a whole register. -/
theorem step_write {o : Nat} (h : o % 4 = 0) (v : Word) (s : State) (rest : List Event) :
    step { s with agenda := .write o 4 v :: rest } = writeReg (hostReg o) v { s with agenda := rest } :=
  takeEvent_write (accessOk_iff.2 ⟨rfl, h⟩) _

/-- A read of a register other than DOUT only notes its value. -/
theorem step_read_of_ne_dout {o : Nat} (h : o % 4 = 0) (ne : o ≠ 0x1C) (s : State) (rest : List Event) :
    step { s with agenda := .read o 4 :: rest } =
      .next { s with agenda := rest, reads := (o, readValue (hostReg o) { s with agenda := rest }) :: s.reads } := by
  rw [step_read h, readReg_of_ne_dout ne]

/-- Settles O10, by the two cases of a DOUT read and the one equation of every other read. -/
theorem doutReadReturnsAndEmpties : Obligations.DoutReadReturnsAndEmpties := by
  intro s rest
  refine ⟨fun d => ?_, fun d => ?_, fun o h ne => ⟨_, step_read_of_ne_dout h ne s rest⟩⟩
  · rw [step_read (by decide), readReg_dout_full (s := { s with agenda := rest }) d]
    rfl
  · rw [step_read (by decide), readReg_dout_empty (s := { s with agenda := rest }) d]

/-! ### Outside the map -/

theorem hostReg_above {o : Nat} (h : 0x1C < o) : hostReg o = none := by
  simp (disch := omega) only [hostReg, if_neg]

/-- Settles O11: `accessOk` decides the shape, and above 0x1C there is no register. -/
theorem accessesOutsideTheMap : Obligations.AccessesOutsideTheMap := by
  intro s o n v rest
  constructor
  · intro h
    have bad : ¬ accessOk o n = true := by rw [accessOk_iff]; omega
    exact ⟨takeEvent_write_refused bad _, takeEvent_read_refused bad _⟩
  · rintro rfl h above
    refine ⟨?_, ?_⟩
    · rw [step_write h, hostReg_above above]
      rfl
    · rw [step_read_of_ne_dout h (by omega), hostReg_above above]
      rfl

/-! ### The register map -/

/-- Settles O12, register by register: each read notes the register's value, each write stores to it or is ignored. -/
theorem registerMapReadsAndWrites : Obligations.RegisterMapReadsAndWrites := by
  intro s v rest
  have reads := fun o (h : o % 4 = 0) (ne : o ≠ 0x1C) => step_read_of_ne_dout h ne s rest
  have writes := fun o (h : o % 4 = 0) => step_write h v s rest
  exact ⟨reads 0x00 rfl (by decide), reads 0x18 rfl (by decide), writes 0x1C rfl, writes 0x08 rfl, writes 0x0C rfl,
    writes 0x10 rfl, writes 0x14 rfl, reads 0x08 rfl (by decide), reads 0x0C rfl (by decide),
    reads 0x10 rfl (by decide), reads 0x14 rfl (by decide)⟩

/-! ### The DIN write -/

/-- R45: while `DIN_REQ = 0` a byte at DIN leaves no trace. -/
theorem runCurrent_din_lost (h : s.Inv) (d : dinReq s = false) (b : Byte) : runCurrent (.din b) s = .next s := by
  cases busy : s.busy with
  | false => rw [runCurrent_idle busy, release_of_none h.port]
  | true =>
    obtain ⟨i, r, -⟩ := h.running busy
    rw [runCurrent_running r, exec_din_lost i (s := { s with port := .din b }) rfl d, port_eta h.port]

/-- R45: while `DIN_REQ = 1` a byte at DIN is the step of the command in progress that takes it. -/
theorem runCurrent_din_taken (h : s.Inv) (d : dinReq s = true) (r : s.Running i) (st : ByteStep i b s t) :
    runCurrent (.din b) s = .next t := by
  obtain ⟨path, -⟩ := r.inv h
  rw [runCurrent_running r]
  refine exec_of_byte rfl d path ?_
  rw [port_eta h.port]
  exact st

/-- R100: only the path of ENCRYPT and of DECRYPT visits CRYPT_XFER. -/
theorem crypt_of_xfer_mem_path (h : .cryptXfer ∈ pathOf i) : i = .encrypt ∨ i = .decrypt := by
  cases i <;> simp [pathOf] at h ⊢

/-- The byte step of CRYPT_XFER, by `OP` (R94). -/
theorem byteStep_of_xfer (h : s.Inv) (r : s.Running i) (x : s.phase = .cryptXfer) (b : Byte) :
    ByteStep i b s { s with
      cMsg := s.cMsg - 1#32, phase := .cryptDrip, doutValid := true
      doutByte := if s.op = 0x22#8 then b + s.ps.Z else b - s.ps.Z } := by
  obtain ⟨path, -, live, -⟩ := r.inv h
  have l : s.live = true := live (by rw [x]; decide)
  rcases crypt_of_xfer_mem_path (x ▸ path) with rfl | rfl
  · have op : s.op = 0x22#8 := r.op_imm.1
    rw [if_pos op]
    exact .encrypted rfl x l
  · have op : s.op = 0x23#8 := r.op_imm.1
    rw [if_neg (by rw [op]; decide)]
    exact .decrypted rfl x l

/-- Settles O13, by the byte step of the phase that asks for the byte. -/
theorem dinWriteIsTheStepThatConsumesTheByte : Obligations.DinWriteIsTheStepThatConsumesTheByte := by
  intro s v rest inv
  have inv : State.Inv { s with agenda := rest } := inv_hostSide inv _ _ _ _ rest _
  constructor
  · intro d
    exact runCurrent_din_lost inv d _
  · intro d
    obtain ⟨busy, asks⟩ := (dinReq_iff s).1 d
    obtain ⟨i, r, -, -, live, -⟩ := inv.running busy
    have take : ∀ {t}, ByteStep i (lowByte v) { s with agenda := rest } t →
        step { s with agenda := .write 0x18 4 v :: rest } = .next t := runCurrent_din_taken inv d r
    split
    next h => exact take (.key h (live (by rw [h]; decide)))
    next h => exact take (.nonce h (live (by rw [h]; decide)))
    next h => exact take (.msg h (live (by rw [h]; decide)))
    next hk hn hm =>
      rcases asks with ⟨k, -⟩ | ⟨n, -⟩ | ⟨m, -⟩ | ⟨x, -⟩
      · exact (hk k).elim
      · exact (hn n).elim
      · exact (hm m).elim
      · exact take (byteStep_of_xfer inv r x _)

/-! ### The byte in DOUT -/

/-- `DOUT_VALID` and the byte are in `t` as they are in `s`, where there is one. -/
def UnreadKept (s t : State) : Prop := s.doutValid = true → t.doutValid = true ∧ t.doutByte = s.doutByte

theorem UnreadKept.of_eq (d : t.doutValid = s.doutValid) (b : t.doutByte = s.doutByte) : UnreadKept s t :=
  fun full => ⟨d.trans full, b⟩

/-- R47: every event but reset and a DOUT read keeps an unread byte. -/
theorem event_unreadKept (st : EventStep s e t) (noReset : e ≠ .reset) (noRead : e ≠ .read 0x1C 4) :
    UnreadKept s t := by
  cases st with
  | turn i _ r | command w i _ r | byte v i _ r => exact (exec_frame r).unread
  | waits | badBusy | byteLost | keyLen | nonceLen | msgLen | outLen | ignored => exact .of_eq rfl rfl
  | badIdle => exact .of_eq (State.reject_doutValid _ _) (State.reject_doutByte _ _)
  | read o =>
    rw [readReg_of_ne_dout (by rintro rfl; exact noRead rfl)]
    exact .of_eq rfl rfl
  | reset => exact absurd rfl noReset

/-- An event that an access or the reset input makes is taken only from the head of the agenda. -/
theorem State.NextEvent.agenda_of_ne_engine (h : s.NextEvent e rest) (ne : e ≠ .engine) : s.agenda = e :: rest :=
  h.resolve_right fun ⟨_, _, engine⟩ => ne engine

/-- Settles O36, by the event the step takes. -/
theorem unreadOutputByteStays : Obligations.UnreadOutputByteStays := by
  intro s t hstep full noReset noRead
  obtain ⟨e, rest, next, st⟩ := step_next hstep
  have kept : UnreadKept { s with agenda := rest } t := event_unreadKept st ?_ ?_
  · exact kept full
  · rintro rfl
    exact noReset rest (next.agenda_of_ne_engine (by decide))
  · rintro rfl
    exact noRead rest (next.agenda_of_ne_engine (by decide))

end Sys2Proof.Machine
end

section
/-! PROOFS. The run of one command by a host that meets its duties (spec/40_sequencer.md R99), whatever DOUT holds when
it starts: it delivers the byte that was waiting, and then what the command's big-step function says (spec/20_memory.md
R47; R132, R141, R150 to R154). -/

namespace Sys2Proof.Machine

variable {i : Instr} {s t : State} {es : List Event} {w : Word}

/-! ### A drained run -/

/-- What `CompleteRun` and `FollowingRun` have in common: a run of one command that ends idle with DOUT empty, whether
or not DOUT was empty at its start. -/
structure DrainedRun (w : Word) (es : List Event) (s t : State) : Prop where
  inv : s.Inv
  idle : s.busy = false
  agenda : s.agenda = .write 0x00 4 w :: es
  oneCommand : es.all noCommand = true
  duties : dutiful (es.length + 1) s = true
  runs : Sys2Proof.core.run (es.length + 1) s = .next t
  complete : t.busy = false
  drained : t.doutValid = false

theorem FollowingRun.drainedRun (r : FollowingRun w es s t) : DrainedRun w es s t :=
  ⟨r.inv, r.idle, r.agenda, r.oneCommand, r.duties, r.runs, r.complete, r.drained⟩

/-- The state a run of `i` is in once the CMD write is done. -/
def State.issued (i : Instr) (es : List Event) (s : State) : State := State.issue i { s with agenda := es }

theorem DrainedRun.step_issued (r : DrainedRun w es s t) (d : decode w = .ok i) : step s = .next (s.issued i es) := by
  rw [step_of_cons r.agenda, takeEvent_cmd]
  exact writeCmd_idle d r.inv.port r.idle

theorem dutiful_of_step {n : Nat} {u : State} (h : dutiful (n + 1) s = true) (st : step s = .next u) :
    dutiful n u = true := by
  rw [dutiful, st, Bool.and_eq_true] at h
  exact h.2

theorem issued_inv (h : s.Inv) (b : s.busy = false) : (s.issued i es).Inv :=
  inv_issue (inv_hostSide h _ _ _ _ es _) b i

/-- What the rest of a run delivers once its command has been written: what DOUT held if the command was rejected, and
otherwise that and then the command's own bytes. -/
theorem DrainedRun.after_issue (r : DrainedRun w es s t) (d : decode w = .ok i) (hi : streaming i = true) :
    ((s.issued i es).busy = false → Rests (dinBytes es) (s.issued i es) t) ∧
      ((s.issued i es).Running i → Ends i (dinBytes es) (s.issued i es) t) := by
  have cmd := r.step_issued d
  have frame : ∀ (j : Instr) (u v : State), exec j u = .next v →
      v.agenda = u.agenda ∧ v.reads = u.reads ∧ (u.port ≠ .cmd → v.errCode = u.errCode) := fun j u v h =>
    ⟨(exec_frame h).agenda, (exec_frame h).reads, exec_errCode h⟩
  exact run_ends everyStepKeepsTheInvariant frame i hi es _ t (issued_inv r.inv r.idle) (issue_agenda i _) r.oneCommand
    (dutiful_of_step r.duties cmd) ((run_succ _ cmd).symm.trans r.runs) r.complete r.drained

/-! ### Accepted or rejected -/

/-- The state an accepted command starts from: the four lengths are latched (R85). -/
def State.latched (i : Instr) (es : List Event) (s : State) : State := State.accept i { s with agenda := es }

theorem DrainedRun.accepted (r : DrainedRun w es s t) (d : decode w = .ok i) (hi : streaming i = true)
    (n : needsLive i = true → s.live = true) (c : checksOutLen i = true → ¬ 255 < s.outLen.toNat) :
    Ends i (dinBytes es) (s.latched i es) t := by
  obtain ⟨wf, -⟩ := eq_encode_of_decode d
  have issued : s.issued i es = s.latched i es :=
    issue_accept wf n fun k => mt (outLenMax_lt _).1 (c k)
  have ends := (r.after_issue d hi).2
  rw [issued] at ends
  exact ends (running_accept wf _)

/-- A command that checks `OUTLEN` initialises for itself, so it needs no live state (R87). -/
theorem needsLive_of_checksOutLen (c : checksOutLen i = true) : needsLive i = false := by
  rcases checksOutLen_iff.1 c with rfl | rfl <;> rfl

/-- A run that delivers nothing of its own and ends erased with `ERRCODE` LEN (R84). -/
structure RejectedForLength (es : List Event) (s t : State) : Prop where
  live : t.live = false
  ps : t.ps = PermState.erased
  taken : dinBytes es = []
  out : Delivered (pending s) s t
  err : t.errCode = .len

theorem DrainedRun.rejected (r : DrainedRun w es s t) (d : decode w = .ok i) (hi : streaming i = true)
    (c : checksOutLen i = true) (o : 255 < s.outLen.toNat) : RejectedForLength es s t := by
  obtain ⟨wf, -⟩ := eq_encode_of_decode d
  have issued : s.issued i es = { s with agenda := es, errCode := .len, ps := PermState.erased, live := false } :=
    issue_len wf (needsLive_of_checksOutLen c) c ((outLenMax_lt _).2 o)
  have rests := (r.after_issue d hi).1
  rw [issued] at rests
  have rests := rests r.idle
  exact ⟨rests.live, rests.ps, rests.taken, rests.out, rests.err⟩

/-! ### Each command from acceptance on -/

/-- The bytes of HASH and AUTH after the message are a `squeeze` from the sealed state (R150, R154). -/
theorem sealedBytes_eq_squeezeBytes (len : Word) (p : PermState) :
    sealedBytes len p = squeezeBytes len.toNat (p.absorbStop.absorbByte (lowByte len)) := by
  rw [sealedBytes, sealLength, squeezeBytes]

theorem hashScript_of_le {len : Word} (h : ¬ 255 < len.toNat) (msg : List Byte) :
    hashScript msg len = some (sealedBytes len (PermState.initial.absorb msg)) := by
  rw [hashScript, if_neg (mt (outLenMax_lt len).1 h), sealedBytes_eq_squeezeBytes]

theorem hashScript_of_lt {len : Word} (h : 255 < len.toNat) (msg : List Byte) : hashScript msg len = none := by
  rw [hashScript, if_pos ((outLenMax_lt len).2 h)]

theorem authScript_of_le {len : Word} (h : ¬ 255 < len.toNat) (msg key : List Byte) :
    authScript msg key len = some (sealedBytes len ((PermState.initial.absorb key).absorbStop.absorb msg)) := by
  rw [authScript, if_neg (mt (outLenMax_lt len).1 h), sealedBytes_eq_squeezeBytes]

/-- R132. -/
theorem DrainedRun.absorb_ends (r : DrainedRun 0x12#32 es s t) (l : s.live = true) :
    (dinBytes es).length = s.msgLen.toNat ∧ Delivered (pending s) s t ∧ t.errCode = .ok ∧ t.live = true ∧
      t.ps = s.ps.absorb (dinBytes es) := by
  have e := r.accepted (i := .absorb) rfl rfl (fun _ => l) (by intro h; cases h)
  have out : Delivered (pending s ++ []) s t := e.out
  rw [List.append_nil] at out
  exact ⟨e.taken, out, e.err, e.live.trans l, e.ps⟩

/-- R141. -/
theorem DrainedRun.squeeze_ends (r : DrainedRun 0x19#32 es s t) (l : s.live = true) :
    dinBytes es = [] ∧ Delivered (pending s ++ squeezeBytes s.outLen.toNat s.ps) s t ∧ t.errCode = .ok ∧
      t.live = true ∧ t.ps = drips s.outLen.toNat s.ps.flush := by
  have e := r.accepted (i := .squeeze) rfl rfl (fun _ => l) (by intro h; cases h)
  exact ⟨no_bytes e.taken rfl, e.out, e.err, e.live.trans l, e.ps⟩

/-- R150 and its rejection (R84). -/
theorem DrainedRun.hash_ends (r : DrainedRun 0x20#32 es s t) :
    (255 < s.outLen.toNat ∧ RejectedForLength es s t) ∨
    (¬ 255 < s.outLen.toNat ∧ t.live = false ∧ t.ps = PermState.erased ∧
      (dinBytes es).length = s.msgLen.toNat ∧
      Delivered (pending s ++ sealedBytes s.outLen (PermState.initial.absorb (dinBytes es))) s t ∧
      t.errCode = .ok) := by
  by_cases o : 255 < s.outLen.toNat
  · exact .inl ⟨o, r.rejected (i := .hash) rfl rfl rfl o⟩
  · have e := r.accepted (i := .hash) rfl rfl (by intro h; cases h) (fun _ => o)
    exact .inr ⟨o, e.live, e.ps, e.taken, e.out, e.err⟩

/-- R151. -/
theorem DrainedRun.stream_ends (r : DrainedRun 0x21#32 es s t) :
    t.live = false ∧ t.ps = PermState.erased ∧ t.errCode = .ok ∧ (dinBytes es).length = s.keyLen.toNat ∧
      Delivered (pending s ++ streamScript (dinBytes es) s.outLen) s t := by
  have e := r.accepted (i := .stream) rfl rfl (by intro h; cases h) (by intro h; cases h)
  exact ⟨e.live, e.ps, e.err, e.taken, e.out⟩

/-- R44: input bytes in fields of `k`, `n` and `m`, back to back. -/
theorem fields_of_length {d : List Byte} {k n m : Nat} (h : d.length = k + (n + m)) :
    d = d.take k ++ (d.drop k).take n ++ (d.drop k).drop n ∧ (d.take k).length = k ∧
      ((d.drop k).take n).length = n ∧ ((d.drop k).drop n).length = m := by
  refine ⟨?_, ?_, ?_, ?_⟩
  · rw [List.append_assoc, List.take_append_drop, List.take_append_drop]
  all_goals
    simp only [List.length_take, List.length_drop]
    omega

/-- R152. -/
theorem DrainedRun.encrypt_ends (r : DrainedRun 0x22#32 es s t) :
    t.live = false ∧ t.ps = PermState.erased ∧ t.errCode = .ok ∧
      ∃ key nonce msg : List Byte, dinBytes es = key ++ nonce ++ msg ∧ key.length = s.keyLen.toNat ∧
        nonce.length = s.nonceLen.toNat ∧ msg.length = s.msgLen.toNat ∧
        Delivered (pending s ++ encryptScript msg nonce key) s t := by
  have e := r.accepted (i := .encrypt) rfl rfl (by intro h; cases h) (by intro h; cases h)
  obtain ⟨cut, key, nonce, msg⟩ := fields_of_length e.taken
  exact ⟨e.live, e.ps, e.err, _, _, _, cut, key, nonce, msg, e.out⟩

/-- R153. -/
theorem DrainedRun.decrypt_ends (r : DrainedRun 0x23#32 es s t) :
    t.live = false ∧ t.ps = PermState.erased ∧ t.errCode = .ok ∧
      ∃ key nonce c : List Byte, dinBytes es = key ++ nonce ++ c ∧ key.length = s.keyLen.toNat ∧
        nonce.length = s.nonceLen.toNat ∧ c.length = s.msgLen.toNat ∧
        Delivered (pending s ++ decryptScript c nonce key) s t := by
  have e := r.accepted (i := .decrypt) rfl rfl (by intro h; cases h) (by intro h; cases h)
  obtain ⟨cut, key, nonce, c⟩ := fields_of_length e.taken
  exact ⟨e.live, e.ps, e.err, _, _, _, cut, key, nonce, c, e.out⟩

/-- R154 and its rejection (R84). -/
theorem DrainedRun.auth_ends (r : DrainedRun 0x24#32 es s t) :
    (255 < s.outLen.toNat ∧ RejectedForLength es s t) ∨
    (t.live = false ∧ t.ps = PermState.erased ∧ t.errCode = .ok ∧
      ∃ key msg : List Byte, dinBytes es = key ++ msg ∧ key.length = s.keyLen.toNat ∧ msg.length = s.msgLen.toNat ∧
        ∃ out, authScript msg key s.outLen = some out ∧ Delivered (pending s ++ out) s t) := by
  by_cases o : 255 < s.outLen.toNat
  · exact .inl ⟨o, r.rejected (i := .auth) rfl rfl rfl o⟩
  · have e := r.accepted (i := .auth) rfl rfl (by intro h; cases h) (fun _ => o)
    have taken : (dinBytes es).length = s.keyLen.toNat + s.msgLen.toNat := e.taken
    refine .inr ⟨e.live, e.ps, e.err, _, _, (List.take_append_drop s.keyLen.toNat _).symm, ?_, ?_, _,
      authScript_of_le o _ _, e.out⟩
    · rw [List.length_take]; omega
    · rw [List.length_drop]; omega

/-! ### The earlier byte first -/

theorem pending_full (d : s.doutValid = true) : pending s = [s.doutByte] := by
  rw [pending, if_pos d]

/-- Settles O57, command by command: the drained run delivers what was pending, here the one unread byte, and then what
the command's script says. -/
theorem earlierOutputByteIsDeliveredFirst : Obligations.EarlierOutputByteIsDeliveredFirst := by
  intro es s t
  refine ⟨fun r l => ?absorb, fun r l => ?squeeze, fun r => ?hash, fun r => ?stream, fun r => ?encrypt,
    fun r => ?decrypt, fun r => ?auth⟩ <;>
    have waiting := pending_full r.full
  case absorb => simpa only [waiting] using r.drainedRun.absorb_ends l
  case squeeze => simpa only [waiting, List.singleton_append] using r.drainedRun.squeeze_ends l
  case hash =>
    rcases r.drainedRun.hash_ends with ⟨o, j⟩ | ⟨o, live, ps, taken, out, err⟩
    · rw [hashScript_of_lt o]
      exact ⟨j.live, j.ps, j.taken, waiting ▸ j.out, j.err⟩
    · rw [hashScript_of_le o]
      rw [waiting, List.singleton_append] at out
      exact ⟨live, ps, taken, out, err⟩
  case stream => simpa only [waiting, List.singleton_append] using r.drainedRun.stream_ends
  case encrypt => simpa only [waiting, List.singleton_append] using r.drainedRun.encrypt_ends
  case decrypt => simpa only [waiting, List.singleton_append] using r.drainedRun.decrypt_ends
  case auth =>
    rcases r.drainedRun.auth_ends with ⟨o, j⟩ | done
    · exact ⟨j.live, j.ps, .inl ⟨o, j.taken, waiting ▸ j.out, j.err⟩⟩
    · simp only [waiting, List.singleton_append] at done
      obtain ⟨live, ps, delivered⟩ := done
      exact ⟨live, ps, .inr delivered⟩

end Sys2Proof.Machine
end

section
/-! PROOFS. Command words (spec/30_encoding.md): a word decodes to a command exactly when the command is well formed and
the word's three fields are those of the command. The round trip, the masks of R63 and `legal(w)` of R64 are read off
the fields. -/

namespace Sys2Proof

variable {w : Word} {i : Instr} {op imm8 : Byte}

/-! ### Decoding inverts encoding -/

/-- The decoder and the encoder are inverse to each other on the well-formed commands (R60 to R62). -/
theorem decode_eq_ok_iff : decode w = .ok i ↔ i.wf = true ∧ w = encode i := by
  refine ⟨eq_encode_of_decode, ?_⟩
  rintro ⟨wf, rfl⟩
  exact (decode_commandWord _ _).trans (decodeFields_of_wf i wf)

/-- Settles O1: `decode_eq_ok_iff` from right to left. -/
theorem encodedCommandDecodesToItself : Obligations.EncodedCommandDecodesToItself :=
  fun _ wf => decode_eq_ok_iff.mpr ⟨wf, rfl⟩

/-! ### The fields of a word (R60) -/

theorem zeroField_append_immField_append_opcodeField (w : Word) :
    zeroField w ++ (immField w ++ opcodeField w) = w := by
  have low : immField w ++ opcodeField w = w.extractLsb' 0 16 :=
    BitVec.extractLsb'_append_extractLsb'_eq_extractLsb' rfl
  rw [low]
  exact BitVec.extractLsb'_append_extractLsb' (w := 16) (len := 16)

theorem eq_iff_fields {v : Word} :
    w = v ↔ zeroField w = zeroField v ∧ immField w = immField v ∧ opcodeField w = opcodeField v := by
  constructor
  · rintro rfl
    exact ⟨rfl, rfl, rfl⟩
  · rintro ⟨zero, imm, opc⟩
    rw [← zeroField_append_immField_append_opcodeField w, zero, imm, opc,
      zeroField_append_immField_append_opcodeField]

theorem eq_encode_iff :
    w = encode i ↔ zeroField w = 0#16 ∧ immField w = i.imm8 ∧ opcodeField w = i.opcode := by
  obtain ⟨opc, imm, zero⟩ := Laws.EncodeFields.of_fields i
  rw [eq_iff_fields, zero, imm, opc]

@[simp] theorem zeroField_and (w m : Word) : zeroField (w &&& m) = zeroField w &&& zeroField m :=
  BitVec.extractLsb'_and

@[simp] theorem immField_and (w m : Word) : immField (w &&& m) = immField w &&& immField m :=
  BitVec.extractLsb'_and

@[simp] theorem opcodeField_and (w m : Word) : opcodeField (w &&& m) = opcodeField w &&& opcodeField m :=
  BitVec.extractLsb'_and

/-- Bits 15:12 of a word are the high nibble of its `imm8`. -/
theorem highNibble_immField (w : Word) : (immField w).extractLsb' 4 4 = w.extractLsb' 12 4 := by
  apply BitVec.eq_of_getLsbD_eq
  intro j hj
  simp [immField, hj, show 4 + j < 8 by omega, show 8 + (4 + j) = 12 + j by omega]

/-! ### The match and mask of a command (R63) -/

theorem and_highNibbleMask (b : Byte) : b &&& 0xF0#8 = b.extractLsb' 4 4 ++ 0#4 := by
  have parts : b.extractLsb' 4 4 ++ b.extractLsb' 0 4 = b :=
    BitVec.extractLsb'_append_extractLsb' (w := 4) (len := 4)
  have masked : (b.extractLsb' 4 4 ++ b.extractLsb' 0 4) &&& (BitVec.allOnes 4 ++ 0#4) = b.extractLsb' 4 4 ++ 0#4 := by
    rw [BitVec.and_append, BitVec.and_allOnes, BitVec.and_zero]
  rwa [parts] at masked

theorem and_highNibbleMask_eq_zero_iff {b : Byte} : b &&& 0xF0#8 = 0#8 ↔ b.extractLsb' 4 4 = 0#4 := by
  rw [and_highNibbleMask]
  constructor
  · intro h
    rw [← BitVec.extractLsb'_append_eq_left (a := b.extractLsb' 4 4) (b := 0#4), h]
    rfl
  · intro h
    rw [h]
    rfl

/-- Format B: the mask keeps all but `imm8`. -/
theorem byteMask_iff : w &&& 0xFFFF00FF#32 = 0x11#32 ↔ zeroField w = 0#16 ∧ opcodeField w = 0x11#8 := by
  rw [eq_iff_fields, zeroField_and, immField_and, opcodeField_and]
  change _ &&& BitVec.allOnes 16 = 0#16 ∧ _ &&& 0#8 = 0#8 ∧ _ &&& BitVec.allOnes 8 = 0x11#8 ↔ _
  simp only [BitVec.and_allOnes, BitVec.and_zero, true_and]

/-- Format N: of `imm8` the mask keeps the high nibble. -/
theorem nibbleMask_iff : w &&& 0xFFFFF0FF#32 = 0x10#32 ↔
    zeroField w = 0#16 ∧ (immField w).extractLsb' 4 4 = 0#4 ∧ opcodeField w = 0x10#8 := by
  rw [eq_iff_fields, zeroField_and, immField_and, opcodeField_and]
  change _ &&& BitVec.allOnes 16 = 0#16 ∧ _ &&& 0xF0#8 = 0#8 ∧ _ &&& BitVec.allOnes 8 = 0x10#8 ↔ _
  simp only [BitVec.and_allOnes, and_highNibbleMask_eq_zero_iff]

/-- Settles O2: the two commands with an operand by the fields their masks keep; each other command has the one word
`encode i`. -/
theorem matchAndMaskSelectTheCommand : Obligations.MatchAndMaskSelectTheCommand := by
  intro w i
  rw [decode_eq_ok_iff]
  cases i with
  | absorbByte b =>
    show true = true ∧ w = encode (.absorbByte b) ↔ w &&& 0xFFFF00FF#32 = 0x11#32 ∧ b = immField w
    rw [eq_encode_iff, byteMask_iff]
    show true = true ∧ zeroField w = 0#16 ∧ immField w = b ∧ opcodeField w = 0x11#8 ↔ _
    constructor
    · rintro ⟨-, zero, rfl, opc⟩
      exact ⟨⟨zero, opc⟩, rfl⟩
    · rintro ⟨⟨zero, opc⟩, rfl⟩
      exact ⟨rfl, zero, rfl, opc⟩
  | absorbNibble x =>
    show (x.extractLsb' 4 4 == 0#4) = true ∧ w = encode (.absorbNibble x) ↔
      w &&& 0xFFFFF0FF#32 = 0x10#32 ∧ x = immField w
    rw [eq_encode_iff, nibbleMask_iff, beq_iff_eq]
    show _ ∧ zeroField w = 0#16 ∧ immField w = x ∧ opcodeField w = 0x10#8 ↔ _
    constructor
    · rintro ⟨nibble, zero, rfl, opc⟩
      exact ⟨⟨zero, nibble, opc⟩, rfl⟩
    · rintro ⟨⟨zero, nibble, opc⟩, rfl⟩
      exact ⟨nibble, zero, rfl, opc⟩
  | _ => exact and_iff_right rfl

/-! ### The legal words (R64) -/

/-- The eighteen commands of R62, the two operands at 0. -/
def everyCommand : List Instr :=
  [.init, .update, .output, .crush, .whip, .shuffle, .absorbNibble 0#8, .absorbByte 0#8, .absorb, .absorbStop, .drip,
    .squeeze, .hash, .stream, .encrypt, .decrypt, .auth, .erase]

theorem exists_mem_everyCommand_opcode_eq (i : Instr) : ∃ j ∈ everyCommand, j.opcode = i.opcode := by
  cases i with
  | absorbNibble _ => exact ⟨.absorbNibble 0#8, by decide, rfl⟩
  | absorbByte _ => exact ⟨.absorbByte 0#8, by decide, rfl⟩
  | _ => exact ⟨_, by decide, rfl⟩

/-- The opcodes in the order of R62, which is R64's list of the values of bits 7:0, are those of all commands. -/
theorem mem_opcodes_iff : op.toNat ∈ everyCommand.map (·.opcode.toNat) ↔ ∃ i : Instr, i.opcode = op := by
  rw [List.mem_map]
  constructor
  · rintro ⟨i, -, h⟩
    exact ⟨i, BitVec.eq_of_toNat_eq h⟩
  · rintro ⟨i, rfl⟩
    obtain ⟨j, listed, h⟩ := exists_mem_everyCommand_opcode_eq i
    exact ⟨j, listed, congrArg BitVec.toNat h⟩

/-- R61: what the format of the opcode `op` asks of `imm8`, in the words of R64. -/
def ImmAdmitted (op imm8 : Byte) : Prop :=
  op = 0x11#8 ∨ (op = 0x10#8 ∧ imm8.extractLsb' 4 4 = 0#4) ∨ (op ≠ 0x10#8 ∧ op ≠ 0x11#8 ∧ imm8 = 0#8)

theorem immAdmitted_of_wf (wf : i.wf = true) : ImmAdmitted i.opcode i.imm8 := by
  cases i with
  | absorbByte b => exact .inl rfl
  | absorbNibble x => exact .inr (.inl ⟨rfl, beq_iff_eq.mp wf⟩)
  | _ => exact .inr (.inr ⟨by decide, by decide, rfl⟩)

/-- An immediate that the format admits is the operand of a well-formed command of the same opcode. -/
theorem exists_wf_of_immAdmitted (h : ImmAdmitted i.opcode imm8) :
    ∃ j : Instr, j.wf = true ∧ imm8 = j.imm8 ∧ i.opcode = j.opcode := by
  rcases h with opc | ⟨opc, nibble⟩ | ⟨notNibble, notByte, rfl⟩
  · exact ⟨.absorbByte imm8, rfl, rfl, opc⟩
  · exact ⟨.absorbNibble imm8, beq_iff_eq.mpr nibble, rfl, opc⟩
  · cases i with
    | absorbByte _ => exact absurd rfl notByte
    | absorbNibble _ => exact absurd rfl notNibble
    | _ => exact ⟨_, rfl, rfl, rfl⟩

/-- Settles O3: both sides say of the three fields that they are those of a well-formed command. -/
theorem decoderAcceptsExactlyTheLegalWords : Obligations.DecoderAcceptsExactlyTheLegalWords := by
  intro w
  rw [← highNibble_immField]
  show _ ↔ zeroField w = 0#16 ∧ (opcodeField w).toNat ∈ everyCommand.map (·.opcode.toNat) ∧
    ImmAdmitted (opcodeField w) (immField w)
  simp only [mem_opcodes_iff, decode_eq_ok_iff, eq_encode_iff]
  constructor
  · rintro ⟨i, wf, zero, imm, opc⟩
    rw [imm, opc]
    exact ⟨zero, ⟨i, rfl⟩, immAdmitted_of_wf wf⟩
  · rintro ⟨zero, ⟨i, opc⟩, admitted⟩
    rw [← opc] at admitted ⊢
    obtain ⟨j, wf, fields⟩ := exists_wf_of_immAdmitted admitted
    exact ⟨j, wf, zero, fields⟩

/-! ### Words written out -/

/-- Settles O4 by running the decoder on the thirteen words. -/
theorem wordsWrittenOutDecodeToTheirCommands : Obligations.WordsWrittenOutDecodeToTheirCommands :=
  ⟨rfl, rfl, rfl, rfl, rfl, rfl, rfl, rfl, rfl, rfl, rfl, rfl, rfl⟩

end Sys2Proof
end

section
/-! PROOFS. What drives the sequencer (spec/40_sequencer.md): it is steered by the public part of the state alone, each
of its steps is the decoded command, and a CMD write is ignored or checked in the order of R81. -/

namespace Sys2Proof.Machine

variable {i : Instr} {s t : State} {rest : List Event} {w : Word}

/-! ### What steers the sequencer -/

theorem Same.withAgenda (h : Same s t) {a b : List Event} (k : a.map Event.public = b.map Event.public) :
    Same { s with agenda := a } { t with agenda := b } :=
  { h with agenda := k }

/-- Settles O43: agendas that agree on what is public give both steps an event of the same public part, and
`same_event` does the rest. -/
theorem secretsDoNotSteerTheSequencer : Obligations.SecretsDoNotSteerTheSequencer := by
  intro s t h
  have same := (same_iff s t).1 h
  have agenda := same.agenda
  cases hs : s.agenda with
  | nil =>
    rw [hs] at agenda
    have ht : t.agenda = [] := List.map_eq_nil_iff.1 agenda.symm
    rw [step_of_nil hs, step_of_nil ht]
    exact same_event rfl same
  | cons e rest =>
    rw [hs] at agenda
    obtain ⟨f, rest', ht, event, after⟩ := List.map_eq_cons_iff.1 agenda.symm
    rw [step_of_cons hs, step_of_cons ht]
    exact same_event event.symm (same.withAgenda after.symm)

/-! ### The step as the decoded command -/

theorem decode_of_decodeTableWord {nbits n : Nat} (h : decodeTableWord nbits n = some i) :
    decode (BitVec.ofNat 32 (n % 2 ^ nbits)) = .ok i := by
  unfold decodeTableWord at h
  split at h
  · cases d : decode (BitVec.ofNat 32 (n % 2 ^ nbits)) with
    | ok j =>
      rw [d] at h
      exact congrArg _ (Option.some.inj h)
    | error r =>
      rw [d] at h
      cases h
  · cases h

/-- Settles O7, event by event. -/
theorem stepRunsTheDecodedCommand : Obligations.StepRunsTheDecodedCommand := by
  have command : ∀ (s : State) (w : Word) (i : Instr) (rest : List Event), decode w = .ok i →
      step { s with agenda := .write 0x00 4 w :: rest } = exec i { s with agenda := rest, port := .cmd } :=
    fun _ _ _ _ d => writeCmd_ok d
  refine ⟨command, fun s i rest r => ?_, fun s i r nothing => ?_, fun s v i rest r => ?_, fun s nbits n i d => ?_⟩
  · exact runCurrent_running (s := { s with agenda := rest }) r
  · rw [step_of_nil nothing, takeEvent_engine, runCurrent_running r]
  · exact runCurrent_running (s := { s with agenda := rest }) r
  · exact command s _ i s.agenda (decode_of_decodeTableWord d)

/-! ### The CMD write (R80, R81) -/

/-- R80: while `BUSY = 1` a CMD write is ignored, whatever the word. -/
theorem writeCmd_busy (b : s.busy = true) (w : Word) : writeCmd w s = .next s.release := by
  cases d : decode w with
  | ok i => rw [writeCmd_ok d, exec_cmd_busy i (s := { s with port := .cmd }) rfl b]; rfl
  | error r => rw [writeCmd_error d, if_pos b]

/-- R67: while `BUSY = 0` a word that decodes to no command is rejected with ILLEGAL. -/
theorem writeCmd_illegal {r : DecodeError} (d : decode w = .error r) (b : s.busy = false) :
    writeCmd w s = .next { s.release with errCode := .illegal } := by
  rw [writeCmd_error d, b]; rfl

/-- R64: `legal(w)`, with the opcode read as a number. -/
def LegalWord (w : Word) : Prop :=
  zeroField w = 0#16 ∧
    (opcodeField w).toNat ∈ [0x01, 0x02, 0x03, 0x04, 0x05, 0x06, 0x10, 0x11, 0x12, 0x13, 0x18, 0x19,
      0x20, 0x21, 0x22, 0x23, 0x24, 0x3F] ∧
    ((opcodeField w).toNat = 0x11 ∨ ((opcodeField w).toNat = 0x10 ∧ w.extractLsb' 12 4 = 0#4) ∨
      ((opcodeField w).toNat ≠ 0x10 ∧ (opcodeField w).toNat ≠ 0x11 ∧ immField w = 0#8))

theorem legalWord_iff : LegalWord w ↔ ∃ i, decode w = .ok i := by
  have opcodeIs : ∀ b : Byte, (opcodeField w).toNat = b.toNat ↔ opcodeField w = b := fun _ => BitVec.toNat_inj
  have nibble := opcodeIs 0x10#8
  have byte := opcodeIs 0x11#8
  refine Iff.trans ?_ (decoderAcceptsExactlyTheLegalWords w).symm
  exact and_congr .rfl (and_congr .rfl (or_congr byte (or_congr (and_congr nibble .rfl)
    (and_congr (not_congr nibble) (and_congr (not_congr byte) .rfl)))))

/-- `NEEDS_LIVE` of R81, by opcode. -/
theorem needsLive_iff_opcode_mem : needsLive i = true ↔
    i.opcode.toNat ∈ [0x02, 0x03, 0x04, 0x05, 0x06, 0x10, 0x11, 0x12, 0x13, 0x18, 0x19] := by
  cases i <;> simp [needsLive, Instr.opcode]

/-- The commands whose `OUTLEN` R81 checks, by opcode. -/
theorem checksOutLen_iff_opcode_mem : checksOutLen i = true ↔ i.opcode.toNat ∈ [0x20, 0x24] := by
  cases i <;> simp [checksOutLen, Instr.opcode]

/-- R81 for a legal word: NOSTATE, then LEN, else acceptance. -/
theorem issue_of_wf (wf : i.wf = true) (s : State) : s.issue i =
    if needsLive i = true ∧ s.live = false then { s with errCode := .noState }
    else if checksOutLen i = true ∧ 255 < s.outLen.toNat then
      { s with errCode := .len, ps := PermState.erased, live := false }
    else s.accept i := by
  split
  next n => exact issue_noState wf n.1 n.2
  next n =>
    split
    next o => exact issue_len wf (needsLive_of_checksOutLen o.1) o.1 ((outLenMax_lt _).2 o.2)
    next o =>
      have live : needsLive i = true → s.live = true := fun k => by simpa [k] using n
      exact issue_accept wf live fun k l => o ⟨k, (outLenMax_lt _).1 l⟩

/-- Settles O8: while `BUSY = 0`, a word that decodes to no command first, then the checks of R81 in their order. -/
theorem cmdWriteIsIgnoredOrCheckedInOrder : Obligations.CmdWriteIsIgnoredOrCheckedInOrder := by
  intro s w rest port
  have released : State.release { s with agenda := rest } = { s with agenda := rest } := release_of_none port
  refine ⟨fun b => ?_, fun b => ?_⟩
  · rw [step_cons, takeEvent_cmd, writeCmd_busy (s := { s with agenda := rest }) b, released]
  rw [step_cons, takeEvent_cmd]
  cases d : decode w with
  | error r =>
    have illegal : ¬ LegalWord w := by rw [legalWord_iff, d]; rintro ⟨i, ⟨⟩⟩
    rw [writeCmd_illegal (s := { s with agenda := rest }) d b, released]
    exact (if_pos illegal).symm
  | ok i =>
    have legal : LegalWord w := legalWord_iff.2 ⟨i, d⟩
    obtain ⟨wf, encoded⟩ := eq_encode_of_decode d
    obtain ⟨-, (imm : w.extractLsb' 8 8 = i.imm8), (opc : w.extractLsb' 0 8 = i.opcode)⟩ := eq_encode_iff.1 encoded
    rw [writeCmd_idle (u := { s with agenda := rest }) d port b]
    refine Eq.trans ?_ (if_neg (not_not_intro legal)).symm
    simp only [opc, imm, ← needsLive_iff_opcode_mem, ← checksOutLen_iff_opcode_mem]
    rw [issue_of_wf wf]
    split_ifs <;> rfl

end Sys2Proof.Machine
end

section
/-! PROOFS. Where the engine holds (spec/40_sequencer.md R97): each turn that does not hold brings it nearer to a hold, so
the holds are the turns that change nothing, and from any state there is one within five turns. A turn that a DOUT read
does not enable does the same before the read as after it (R99). -/

namespace Sys2Proof.Machine

variable {i : Instr} {s t : State} {rest : List Event}

/-! ### How far the engine is from a hold -/

/-- A bound on the turns the engine can take from a phase before it holds: the phases still ahead of it (R100) and, in
SQUEEZE, the one byte that an empty DOUT has room for. -/
def turnsFrom (p : Phase) (doutFull : Bool) : Nat :=
  match p with
  | .exec => 5
  | .absKey => 4
  | .absMsg => 3
  | .absNonce => 2
  | .squeeze => if doutFull then 1 else 2
  | .cryptDrip => 1
  | .cryptXfer => 0
  | .idle => 0

/-- `turnsFrom` at a state. -/
def turnsToRest (s : State) : Nat := turnsFrom s.phase s.doutValid

theorem turnsFrom_le (p : Phase) (full : Bool) : turnsFrom p full ≤ 5 := by
  cases p <;> cases full <;> decide

theorem turnsToRest_lt_of_phases {p q : Phase} (hs : s.phase = p) (ht : t.phase = q)
    (nearer : ∀ full full', turnsFrom q full' < turnsFrom p full) : turnsToRest t < turnsToRest s := by
  unfold turnsToRest
  rw [hs, ht]
  exact nearer _ _

theorem turnsToRest_lt_of_startPhase {p : Phase} (e : startPhase i = some p) (h : s.phase = .exec) (ht : t.phase = p) :
    turnsToRest t < turnsToRest s := by
  refine turnsToRest_lt_of_phases h ht ?_
  cases i <;> cases e <;> decide

theorem turnsToRest_lt_of_mixStep {c : Word} {f : PermState → PermState} {p : Phase} (e : mixStep i s = some (c, f, p))
    (ht : t.phase = p) : turnsToRest t < turnsToRest s := by
  unfold mixStep at e
  split at e <;> simp only [Option.some.injEq, Prod.mk.injEq, reduceCtorEq] at e <;> obtain ⟨-, -, rfl⟩ := e <;>
    exact turnsToRest_lt_of_phases ‹_› ht (by decide)

/-- An internal step holds, or the engine is nearer to a hold after it. -/
theorem internal_holding_or_nearer (r : InternalStep i s t) : Holding i s ∨ turnsToRest t < turnsToRest s := by
  cases r with
  | held h => exact .inl h
  | start p e h => exact .inr (turnsToRest_lt_of_startPhase e h rfl)
  | mixed f p e => exact .inr (turnsToRest_lt_of_mixStep e rfl)
  | opened _ h => exact .inr (turnsToRest_lt_of_phases (q := .absMsg) h rfl (by decide))
  | nonceTaken _ h => exact .inr (turnsToRest_lt_of_phases (q := .cryptDrip) h rfl (by decide))
  | dripped _ h => exact .inr (turnsToRest_lt_of_phases (q := .cryptXfer) h rfl (by decide))
  | init _ h | mix _ _ h | emit _ _ h | erase _ h | cryptDone _ h | absorbDone _ h | squeezeDone _ h
  | outputDone _ h =>
    exact .inr (turnsToRest_lt_of_phases (q := .idle) h rfl (by decide))
  | squeezed e h c d =>
    right
    unfold turnsToRest
    rw [State.doutPut_phase, State.doutPut_doutValid, h, d]
    decide

/-! ### The engine's turn -/

/-- R98: while `BUSY = 1` the engine's turn is an internal step of the command in progress. -/
theorem turn_of_inv (h : s.Inv) (r : s.Running i) : ∃ t, takeEvent .engine s = .next t ∧ InternalStep i s t := by
  obtain ⟨path, hle, hln, -⟩ := r.inv h
  rw [takeEvent_engine, runCurrent_running r, port_eta' h.port]
  exact exec_internal h.port path hle hln

theorem turn_of_internal (h : s.Inv) (r : s.Running i) (st : InternalStep i s t) : takeEvent .engine s = .next t := by
  obtain ⟨path, -⟩ := r.inv h
  rw [takeEvent_engine, runCurrent_running r, port_eta' h.port]
  exact exec_of_internal h.port path st

/-- While `BUSY = 1` the engine's turn changes nothing exactly in a hold. -/
theorem held_iff_holding (h : s.Inv) (r : s.Running i) : s.Held ↔ Holding i s := by
  constructor
  · intro held
    obtain ⟨t, turn, st⟩ := turn_of_inv h r
    obtain rfl := next_inj (held.symm.trans turn)
    exact (internal_holding_or_nearer st).resolve_right (Nat.lt_irrefl _)
  · intro k
    exact turn_of_internal h r (.held k)

/-- A turn that does not hold is an internal step of a command in progress, and brings the engine nearer to a hold. -/
theorem turn_of_not_held (h : s.Inv) (nh : ¬ s.Held) : ∃ i t, s.Running i ∧ ¬ Holding i s ∧
    takeEvent .engine s = .next t ∧ InternalStep i s t ∧ turnsToRest t < turnsToRest s := by
  cases b : s.busy with
  | false => exact absurd (held_of_idle b h.port) nh
  | true =>
    obtain ⟨i, r, -⟩ := h.running b
    obtain ⟨t, turn, st⟩ := turn_of_inv h r
    have moving : ¬ Holding i s := mt (held_iff_holding h r).2 nh
    exact ⟨i, t, r, moving, turn, st, (internal_holding_or_nearer st).resolve_left moving⟩

/-! ### The table of holds (R97) -/

/-- The two commands of R86 that put a byte, by `OP`. -/
theorem rawEmit_iff_op (r : s.Running i) : (∃ f, rawEmit i = some f) ↔ s.op = 0x03#8 ∨ s.op = 0x18#8 := by
  rw [r.op_imm.1]
  cases i <;> simp [rawEmit, Instr.opcode]

theorem holding_iff (r : s.Running i) : Holding i s ↔
    (s.phase = .absKey ∧ s.cKey ≠ 0#32) ∨ (s.phase = .absNonce ∧ s.cNonce ≠ 0#32) ∨
    (s.phase = .absMsg ∧ s.cMsg ≠ 0#32) ∨ s.phase = .cryptXfer ∨
    (s.phase = .squeeze ∧ s.cOut ≠ 0#32 ∧ s.doutValid = true) ∨
    (s.phase = .exec ∧ (s.op = 0x03#8 ∨ s.op = 0x18#8) ∧ s.doutValid = true) := by
  rw [← rawEmit_iff_op r]
  constructor
  · intro h
    cases h with
    | key h c => exact .inl ⟨h, c⟩
    | nonce h c => exact .inr (.inl ⟨h, c⟩)
    | msg h c => exact .inr (.inr (.inl ⟨h, c⟩))
    | xfer h => exact .inr (.inr (.inr (.inl h)))
    | squeeze h c d => exact .inr (.inr (.inr (.inr (.inl ⟨h, c, d⟩))))
    | emit h f e d => exact .inr (.inr (.inr (.inr (.inr ⟨h, ⟨f, e⟩, d⟩))))
  · rintro (⟨h, c⟩ | ⟨h, c⟩ | ⟨h, c⟩ | h | ⟨h, c, d⟩ | ⟨h, ⟨f, e⟩, d⟩)
    · exact .key h c
    · exact .nonce h c
    · exact .msg h c
    · exact .xfer h
    · exact .squeeze h c d
    · exact .emit h f e d

/-- Settles O39: an idle engine waits; for a command in progress the table lists the constructors of `Holding`. -/
theorem holdsAreExactlyThoseOfTheTable : Obligations.HoldsAreExactlyThoseOfTheTable := by
  intro s h
  cases b : s.busy with
  | false => exact iff_of_true (held_of_idle b h.port) (.inl rfl)
  | true =>
    obtain ⟨i, r, -⟩ := h.running b
    rw [held_iff_holding h r, holding_iff r]
    exact (or_iff_right Bool.noConfusion).symm

/-! ### Rest within five turns -/

theorem exists_run_to_held (n : Nat) : ∀ {s : State}, s.Inv → s.agenda = [] → turnsToRest s ≤ n →
    ∃ k, k ≤ n ∧ ∃ t : State, Sys2Proof.core.run k s = .next t ∧ t.Held := by
  induction n with
  | zero =>
    intro s h _ near
    refine ⟨0, Nat.le_refl 0, s, run_zero s, ?_⟩
    by_contra nh
    obtain ⟨i, t, -, -, -, -, nearer⟩ := turn_of_not_held h nh
    omega
  | succ n ih =>
    intro s h nothing near
    by_cases held : s.Held
    · exact ⟨0, Nat.zero_le _, s, run_zero s, held⟩
    · obtain ⟨i, t, r, -, turn, st, nearer⟩ := turn_of_not_held h held
      obtain ⟨k, hk, u, run, rest⟩ :=
        ih (internal_inv h r st) ((internal_frame st).agenda.trans nothing) (by omega)
      refine ⟨k + 1, Nat.succ_le_succ hk, u, ?_, rest⟩
      rw [run_succ k ((step_of_nil nothing).trans turn), run]

/-- Settles O40: no phase is more than five turns from a hold. -/
theorem engineComesToRestWithinFiveSteps : Obligations.EngineComesToRestWithinFiveSteps :=
  fun s h nothing => exists_run_to_held 5 h nothing (turnsFrom_le s.phase s.doutValid)

/-! ### The DOUT read and the engine's turn (R99) -/

/-- What a read of a full DOUT makes of a state, with `rest` left on the agenda (R46). -/
def State.doutRead (rest : List Event) (s : State) : State :=
  { s with agenda := rest, reads := (0x1C, zext32 s.doutByte) :: s.reads, doutByte := 0#8, doutValid := false }

theorem step_doutRead (a : s.agenda = .read 0x1C 4 :: rest) (d : s.doutValid = true) :
    step s = .next (s.doutRead rest) := by
  rw [step_of_cons a, takeEvent_read (by decide), readReg_dout_full (s := { s with agenda := rest }) d]
  rfl

theorem inv_doutRead (h : s.Inv) (rest : List Event) : (s.doutRead rest).Inv :=
  inv_hostSide (inv_doutEmptied h) _ _ _ _ rest _

/-- A step that is not held while DOUT is full neither reads DOUT nor writes it. -/
theorem internal_doutRead (d : s.doutValid = true) (moving : ¬ Holding i s) (rest : List Event)
    (r : InternalStep i s t) : InternalStep i (s.doutRead rest) (t.doutRead rest) := by
  cases r with
  | held h => exact absurd h moving
  | emit _ _ _ d' | squeezed _ _ _ d' => exact absurd (d.symm.trans d') (by decide)
  | init e h => exact .init e h
  | mix f e h l => exact .mix f e h l
  | erase e h => exact .erase e h
  | start p e h => exact .start p e h
  | opened e h => exact .opened e h
  | mixed f p e l => exact .mixed f p e l
  | nonceTaken e h c => exact .nonceTaken e h c
  | dripped e h c l => exact .dripped e h c l
  | cryptDone e h c => exact .cryptDone e h c
  | absorbDone e h c => exact .absorbDone e h c
  | squeezeDone e h c => exact .squeezeDone e h c
  | outputDone e h c => exact .outputDone e h c

theorem holding_withAgenda (r : s.Running i) (a : List Event) : Holding i { s with agenda := a } ↔ Holding i s :=
  (holding_iff (s := { s with agenda := a }) r).trans (holding_iff r).symm

/-- Settles O41: the turn is the same internal step on either side of the read, and the read is the same on either side
of the turn, because the byte it returns is still there. -/
theorem doutReadCommutesWithEngineSteps : Obligations.DoutReadCommutesWithEngineSteps := by
  intro s rest h d nh
  obtain ⟨i, -, r, moving, -⟩ := turn_of_not_held h nh
  obtain ⟨t, turn, st⟩ :=
    turn_of_inv (s := { s with agenda := .read 0x1C 4 :: rest }) (inv_hostSide h _ _ _ _ _ _) r
  have frame := internal_frame st
  have moving : ¬ Holding i { s with agenda := .read 0x1C 4 :: rest } := mt (holding_withAgenda r _).1 moving
  have turnAfterRead : step (s.doutRead (.engine :: rest)) = .next (t.doutRead rest) :=
    turn_of_internal (s := s.doutRead rest) (inv_doutRead h rest) r
      (internal_doutRead (s := { s with agenda := .read 0x1C 4 :: rest }) d moving rest st)
  calc Sys2Proof.core.run 2 { s with agenda := .engine :: .read 0x1C 4 :: rest }
      = Sys2Proof.core.run 1 t := run_succ 1 turn
    _ = .next (t.doutRead rest) := run_succ 0 (step_doutRead frame.agenda (frame.unread d).1)
    _ = Sys2Proof.core.run 1 (s.doutRead (.engine :: rest)) := (run_succ 0 turnAfterRead).symm
    _ = Sys2Proof.core.run 2 { s with agenda := .read 0x1C 4 :: .engine :: rest } :=
      (run_succ 1 (step_doutRead (s := { s with agenda := .read 0x1C 4 :: .engine :: rest }) rfl d)).symm

end Sys2Proof.Machine
end

section
/-! PROOFS. The streaming commands phase by phase (spec/40_sequencer.md R87 to R95): one equation of whole states for
each transition that several commands share, and the obligation of each command assembled from them. -/

namespace Sys2Proof.Machine

variable {i : Instr} {s : State} {b : Byte}

/-! ### The start (R87) -/

theorem exec_mem_path (i : Instr) : .exec ∈ pathOf i := by
  cases i <;> exact List.mem_cons_self

theorem exec_start {q : Phase} (e : startPhase i = some q) (p : s.port = .none) (h : s.phase = .exec) :
    exec i s = .next { s with ps := PermState.initial, live := true, phase := q } :=
  exec_of_internal p (h ▸ exec_mem_path i) (.start q e h)

/-! ### The absorb phases (R90) -/

theorem exec_key_byte (m : .absKey ∈ pathOf i) (p : s.port = .din b) (busy : s.busy = true) (h : s.phase = .absKey)
    (c : s.cKey ≠ 0#32) (l : s.live = true) :
    exec i s = .next { s with port := .none, ps := s.ps.absorbByte b, cKey := s.cKey - 1#32 } :=
  exec_of_byte p (dinReq_of busy (.inl ⟨h, c⟩)) (h ▸ m) (.key h l)

theorem exec_nonce_byte (m : .absNonce ∈ pathOf i) (p : s.port = .din b) (busy : s.busy = true)
    (h : s.phase = .absNonce) (c : s.cNonce ≠ 0#32) (l : s.live = true) :
    exec i s = .next { s with port := .none, ps := s.ps.absorbByte b, cNonce := s.cNonce - 1#32 } :=
  exec_of_byte p (dinReq_of busy (.inr (.inl ⟨h, c⟩))) (h ▸ m) (.nonce h l)

theorem exec_msg_byte (m : .absMsg ∈ pathOf i) (p : s.port = .din b) (busy : s.busy = true) (h : s.phase = .absMsg)
    (c : s.cMsg ≠ 0#32) (l : s.live = true) :
    exec i s = .next { s with port := .none, ps := s.ps.absorbByte b, cMsg := s.cMsg - 1#32 } :=
  exec_of_byte p (dinReq_of busy (.inr (.inr (.inl ⟨h, c⟩)))) (h ▸ m) (.msg h l)

theorem exec_key_held (m : .absKey ∈ pathOf i) (p : s.port = .none) (h : s.phase = .absKey) (c : s.cKey ≠ 0#32) :
    exec i s = .next s :=
  exec_of_holding p (h ▸ m) (.key h c)

theorem exec_nonce_held (m : .absNonce ∈ pathOf i) (p : s.port = .none) (h : s.phase = .absNonce)
    (c : s.cNonce ≠ 0#32) : exec i s = .next s :=
  exec_of_holding p (h ▸ m) (.nonce h c)

theorem exec_msg_held (m : .absMsg ∈ pathOf i) (p : s.port = .none) (h : s.phase = .absMsg) (c : s.cMsg ≠ 0#32) :
    exec i s = .next s :=
  exec_of_holding p (h ▸ m) (.msg h c)

/-! ### The steps between two phases (R91, R93) -/

/-- The step that ends the key of STREAM and the EXEC step of SQUEEZE. -/
theorem exec_flush (m : s.phase ∈ pathOf i) (e : mixStep i s = some (0#32, PermState.flush, .squeeze))
    (p : s.port = .none) (l : s.live = true) :
    exec i s = .next { s with ps := if 0#8 < s.ps.A then s.ps.shuffle else s.ps, phase := .squeeze } := by
  rw [← PermState.flush_eq_ite]
  exact exec_of_internal p m (.mixed _ _ e l)

/-- The step that ends the key of ENCRYPT, DECRYPT and AUTH. -/
theorem exec_key_stop {q : Phase} (e : mixStep i s = some (0#32, PermState.absorbStop, q)) (m : .absKey ∈ pathOf i)
    (p : s.port = .none) (h : s.phase = .absKey) (l : s.live = true) :
    exec i s = .next { s with ps := s.ps.absorbStop, phase := q } :=
  exec_of_internal p (h ▸ m) (.mixed _ _ e l)

/-- The state that HASH and AUTH squeeze from: `absorb_stop`, the length byte and a flush. -/
theorem sealLength_eq_ite (len : Byte) (p : PermState) :
    sealLength len p = if 0#8 < (p.absorbStop.absorbByte len).A then (p.absorbStop.absorbByte len).shuffle
      else p.absorbStop.absorbByte len := by
  rw [sealLength, PermState.flush_eq_ite]

theorem exec_seal (e : i = .hash ∨ i = .auth) (p : s.port = .none) (h : s.phase = .absMsg) (c : s.cMsg = 0#32)
    (l : s.live = true) :
    exec i s =
      let q := s.ps.absorbStop.absorbByte (lowByte s.cOut)
      .next { s with ps := if 0#8 < q.A then q.shuffle else q, phase := .squeeze } := by
  have path : s.phase ∈ pathOf i := by rw [h]; rcases e with rfl | rfl <;> decide
  have seals : mixStep i s = some (0#32, sealLength (lowByte s.cOut), .squeeze) := by
    rcases e with rfl | rfl <;> simp only [mixStep, h, c]
  dsimp only
  rw [← sealLength_eq_ite]
  exact exec_of_internal p path (.mixed _ _ seals l)

/-! ### The squeeze phase (R95) -/

/-- R100: the commands that visit SQUEEZE. -/
theorem squeeze_mem_path (e : i = .squeeze ∨ i = .hash ∨ i = .stream ∨ i = .auth) : .squeeze ∈ pathOf i := by
  rcases e with rfl | rfl | rfl | rfl <;> decide

theorem exec_squeeze_held (e : i = .squeeze ∨ i = .hash ∨ i = .stream ∨ i = .auth) (p : s.port = .none)
    (h : s.phase = .squeeze) (c : s.cOut ≠ 0#32) (d : s.doutValid = true) : exec i s = .next s :=
  exec_of_holding p (h ▸ squeeze_mem_path e) (.squeeze h c d)

theorem exec_squeeze_byte (e : i = .squeeze ∨ i = .hash ∨ i = .stream ∨ i = .auth) (p : s.port = .none)
    (h : s.phase = .squeeze) (c : s.cOut ≠ 0#32) (d : s.doutValid = false) (l : s.live = true) :
    exec i s =
      .next { s with ps := s.ps.drip, cOut := s.cOut - 1#32, doutByte := s.ps.drip.Z, doutValid := true } :=
  exec_of_internal p (h ▸ squeeze_mem_path e) (.squeezed e h c d l)

theorem exec_squeeze_erases (e : i = .hash ∨ i = .stream ∨ i = .auth) (p : s.port = .none) (h : s.phase = .squeeze)
    (c : s.cOut = 0#32) : exec i s = .next s.completedErased :=
  exec_of_internal p (h ▸ squeeze_mem_path (.inr e)) (.outputDone e h c)

/-! ### The protocol commands -/

/-- Settles O24, by the four transitions of the command. -/
theorem absorbStepsThroughItsPhases : Obligations.AbsorbStepsThroughItsPhases := by
  intro s
  have msg : Phase.absMsg ∈ pathOf .absorb := by decide
  exact ⟨fun p h => exec_of_internal p (h ▸ exec_mem_path _) (.opened rfl h),
    fun p h c => exec_of_internal p (h ▸ msg) (.absorbDone rfl h c), exec_msg_held msg, fun _ => exec_msg_byte msg⟩

/-- Settles O26, by the four transitions of the command. -/
theorem squeezeStepsThroughItsPhases : Obligations.SqueezeStepsThroughItsPhases := by
  intro s p
  exact ⟨fun h l => exec_flush (h ▸ exec_mem_path _) (by simp only [mixStep, h]) p l,
    fun h c => exec_of_internal p (h ▸ squeeze_mem_path (.inl rfl)) (.squeezeDone rfl h c),
    exec_squeeze_held (.inl rfl) p, exec_squeeze_byte (.inl rfl) p⟩

/-! ### The high-level commands -/

/-- Settles O27, phase by phase. -/
theorem hashStepsThroughItsPhases : Obligations.HashStepsThroughItsPhases := by
  intro s
  have msg : Phase.absMsg ∈ pathOf .hash := by decide
  have output : Instr.hash = .hash ∨ Instr.hash = .stream ∨ Instr.hash = .auth := .inl rfl
  exact ⟨exec_start rfl, fun _ => exec_msg_byte msg, exec_msg_held msg, exec_seal (.inl rfl),
    exec_squeeze_erases output, exec_squeeze_held (.inr output), exec_squeeze_byte (.inr output)⟩

/-- Settles O28, phase by phase. -/
theorem streamStepsThroughItsPhases : Obligations.StreamStepsThroughItsPhases := by
  intro s
  have key : Phase.absKey ∈ pathOf .stream := by decide
  have output : Instr.stream = .hash ∨ Instr.stream = .stream ∨ Instr.stream = .auth := .inr (.inl rfl)
  exact ⟨exec_start rfl, fun _ => exec_key_byte key, exec_key_held key,
    fun p h c l => exec_flush (h ▸ key) (by simp only [mixStep, h, c]) p l,
    exec_squeeze_erases output, exec_squeeze_held (.inr output), exec_squeeze_byte (.inr output)⟩

/-- Settles O30, phase by phase. -/
theorem authStepsThroughItsPhases : Obligations.AuthStepsThroughItsPhases := by
  intro s
  have key : Phase.absKey ∈ pathOf .auth := by decide
  have msg : Phase.absMsg ∈ pathOf .auth := by decide
  have output : Instr.auth = .hash ∨ Instr.auth = .stream ∨ Instr.auth = .auth := .inr (.inr rfl)
  exact ⟨exec_start rfl, fun _ => exec_key_byte key, exec_key_held key,
    fun p h c l => exec_key_stop (by simp only [mixStep, h, c]) key p h l,
    fun _ => exec_msg_byte msg, exec_msg_held msg, exec_seal (.inr rfl),
    exec_squeeze_erases output, exec_squeeze_held (.inr output), exec_squeeze_byte (.inr output)⟩

/-! ### ENCRYPT and DECRYPT (R92, R94) -/

theorem crypt_path (e : i = .encrypt ∨ i = .decrypt) :
    pathOf i = [.exec, .absKey, .absNonce, .cryptDrip, .cryptXfer] := by
  rcases e with rfl | rfl <;> rfl

theorem crypt_startPhase (e : i = .encrypt ∨ i = .decrypt) : startPhase i = some .absKey := by
  rcases e with rfl | rfl <;> rfl

theorem crypt_keyStep (e : i = .encrypt ∨ i = .decrypt) (h : s.phase = .absKey) (c : s.cKey = 0#32) :
    mixStep i s = some (0#32, PermState.absorbStop, .absNonce) := by
  rcases e with rfl | rfl <;> simp only [mixStep, h, c]

/-- Settles O29, phase by phase; only the byte step of CRYPT_XFER asks which of the two it is. -/
theorem encryptAndDecryptStepThroughTheirPhases : Obligations.EncryptAndDecryptStepThroughTheirPhases := by
  intro i s e
  have path := crypt_path e
  have key : .absKey ∈ pathOf i := by rw [path]; decide
  have nonce : .absNonce ∈ pathOf i := by rw [path]; decide
  have drip : .cryptDrip ∈ pathOf i := by rw [path]; decide
  have xfer : .cryptXfer ∈ pathOf i := by rw [path]; decide
  refine ⟨exec_start (crypt_startPhase e), fun _ => exec_key_byte key, exec_key_held key,
    fun p h c l => exec_key_stop (crypt_keyStep e h c) key p h l, fun _ => exec_nonce_byte nonce,
    exec_nonce_held nonce,
    fun p h c => exec_of_internal p (h ▸ nonce) (.nonceTaken e h c),
    fun p h c => exec_of_internal p (h ▸ drip) (.cryptDone e h c),
    fun p h c l => exec_of_internal p (h ▸ drip) (.dripped e h c l),
    fun p h => exec_of_holding p (h ▸ xfer) (.xfer h), ?_⟩
  intro m p busy h d l
  have asks : dinReq s = true := dinReq_of busy (.inr (.inr (.inr ⟨h, d⟩)))
  exact ⟨exec_of_byte p asks (h ▸ by decide) (.encrypted rfl h l),
    exec_of_byte p asks (h ▸ by decide) (.decrypted rfl h l)⟩

end Sys2Proof.Machine
end

section
/-! PROOFS. The primitive commands (spec/41_primitive_ops.md): what an EXEC step of R86 answers, then
the parts of each operation that its rule names and the obligation of each command, and last the laws of R116. -/

namespace Sys2Proof.Machine

variable {i : Instr} {s t : State} {f : PermState → PermState}

/-! ### The CMD write and the EXEC step of a raw command (R83, R86) -/

/-- R83: a command that needs a live state is rejected without one, and only `ERRCODE` says so. -/
theorem exec_noState (wf : i.wf = true) (n : needsLive i = true) (p : s.port = .cmd) (b : s.busy = false)
    (l : s.live = false) : exec i s = .next { s with port := .none, errCode := .noState } := by
  rw [exec_cmd_idle i p b, issue_noState wf n (s.release_live.trans l)]
  rfl

theorem exec_eq_mixAndFinish (e : rawMix i = some f) (p : s.port = .none) :
    exec i s = atExec (mixAndFinish f) s := by
  cases i <;> cases e <;> exact transition_internal p

theorem exec_eq_emitAndFinish (e : rawEmit i = some f) (p : s.port = .none) :
    exec i s = atExec (emitAndFinish f) s := by
  cases i <;> cases e <;> exact transition_internal p

theorem exec_mix (e : rawMix i = some f) (p : s.port = .none) (h : s.phase = .exec) (l : s.live = true) :
    exec i s = .next (s.completed (f s.ps)) := by
  rw [exec_eq_mixAndFinish e p, atExec_of_exec h, mixAndFinish_of_live l]

theorem exec_emit_full (e : rawEmit i = some f) (p : s.port = .none) (h : s.phase = .exec) (d : s.doutValid = true) :
    exec i s = .next s := by
  rw [exec_eq_emitAndFinish e p, atExec_of_exec h, emitAndFinish_of_full d]

theorem exec_emit_empty (e : rawEmit i = some f) (p : s.port = .none) (h : s.phase = .exec) (l : s.live = true)
    (d : s.doutValid = false) : exec i s = .next ((s.completed (f s.ps)).doutPut (f s.ps).Z) := by
  rw [exec_eq_emitAndFinish e p, atExec_of_exec h, emitAndFinish_of_empty d l]

/-! ### INIT (R110) -/

/-- Settles O14: `issue` finds nothing to reject INIT for, and its EXEC step installs `PermState.initial`. -/
theorem initGivesTheInitialState : Obligations.InitGivesTheInitialState := by
  refine ⟨rfl, fun s p b => ?_, fun s p h => ?_⟩
  · have accepted : s.release.issue .init = s.release.accept .init := issue_accept rfl nofun nofun
    exact ⟨s.release.accept .init, by rw [exec_cmd_idle .init p b, accepted], rfl, rfl⟩
  · exact ⟨PermState.initial, exec_of_internal p (h ▸ exec_mem_path _) (.init rfl h), tableRead_initial,
      rfl, rfl, rfl, rfl, rfl, rfl⟩

/-! ### UPDATE (R111) -/

theorem PermState.update_J (p : PermState) :
    p.update.J = p.K + tableRead p.S (p.J + tableRead p.S p.update.I) := rfl

theorem PermState.update_K (p : PermState) : p.update.K = p.update.I + p.K + tableRead p.S p.update.J := rfl

theorem PermState.update_S (p : PermState) : p.update.S = tableSwap p.S p.update.I p.update.J := rfl

/-- Settles O15: the state after the step is `update` of the one before, line by line. -/
theorem updateFollowsItsFiveLines : Obligations.UpdateFollowsItsFiveLines := by
  refine ⟨rfl, fun s => exec_noState rfl rfl, fun s p h l => ⟨s.ps.update, exec_mix rfl p h l, s.ps.update_I,
    s.ps.update_J, s.ps.update_K, fun n => ?_, s.ps.update_Z, s.ps.update_A, s.ps.update_W⟩⟩
  rw [PermState.update_S, tableRead_tableSwap, apply_ite (tableRead s.ps.S), apply_ite (tableRead s.ps.S)]

/-! ### OUTPUT (R112) -/

theorem PermState.output_eq (p : PermState) : p.output = { p with
    Z := tableRead p.S (p.J + tableRead p.S (p.I + tableRead p.S (p.Z + p.K))) } := rfl

/-- Settles O16: the step that puts a byte, while DOUT is full and while it is empty. -/
theorem outputReadsThroughTheTable : Obligations.OutputReadsThroughTheTable := by
  refine ⟨rfl, fun s => exec_noState rfl rfl, fun s => exec_emit_full rfl, fun s p h l d => ?_⟩
  dsimp only
  rw [exec_emit_empty (f := PermState.output) rfl p h l d, PermState.output_eq]
  rfl

/-! ### CRUSH (R113) -/

/-- The two entries that one turn of the loop of `crush` compares. -/
def tablePair (t : Table) (v : Byte) : Byte × Byte := (tableRead t v, tableRead t (255#8 - v))

/-- A pair put in order, by an unsigned comparison. -/
def orderPair (q : Byte × Byte) : Byte × Byte := if q.2 < q.1 then q.swap else q

theorem tablePair_crushPair_same (t : Table) (v : Byte) :
    tablePair (crushPair v.toNat t) v = orderPair (tablePair t v) := by
  unfold orderPair tablePair crushPair
  rw [BitVec.ofNat_toNat, BitVec.setWidth_eq]
  dsimp only
  split
  · have mirror : (if 255#8 - v = v then 255#8 - v else v) = v := by split <;> simp_all
    simp [mirror]
  · rfl

/-- The pairs of two turns of the loop have no entry in common. -/
theorem tablePair_crushPair_other {k : Nat} {v : Byte} (hk : k < 128) (hv : v.toNat < 128) (ne : v.toNat ≠ k)
    (t : Table) : tablePair (crushPair k t) v = tablePair t v := by
  have apart : v ≠ BitVec.ofNat 8 k ∧ v ≠ 255#8 - BitVec.ofNat 8 k ∧ 255#8 - v ≠ BitVec.ofNat 8 k ∧
      255#8 - v ≠ 255#8 - BitVec.ofNat 8 k := by
    refine ⟨?_, ?_, ?_, ?_⟩ <;> bv_omega
  obtain ⟨h1, h2, h3, h4⟩ := apart
  unfold tablePair crushPair
  dsimp only
  split
  · simp only [tableRead_tableSwap, h1, h2, h3, h4, if_false]
  · rfl

/-- After `n` turns of the loop the first `n` pairs are in order and the others are as they were. -/
theorem tablePair_crushPairs {n : Nat} {v : Byte} (hn : n ≤ 128) (hv : v.toNat < 128) (t : Table) :
    tablePair (crushPairs n t) v = if v.toNat < n then orderPair (tablePair t v) else tablePair t v := by
  induction n with
  | zero => rw [crushPairs_zero, if_neg (Nat.not_lt_zero _)]
  | succ n ih =>
    have ih := ih (Nat.le_of_succ_le hn)
    rw [crushPairs_succ]
    by_cases same : v.toNat = n
    · subst same
      rw [tablePair_crushPair_same, ih, if_neg (Nat.lt_irrefl _), if_pos (Nat.lt_succ_self _)]
    · have turn : v.toNat < n + 1 ↔ v.toNat < n := by omega
      rw [tablePair_crushPair_other hn hv same, ih]
      simp only [turn]

theorem tablePair_crush {v : Byte} (hv : v.toNat < 128) (p : PermState) :
    tablePair p.crush.S v = orderPair (tablePair p.S v) := by
  have count : Config.crushPairs = 128 := by rw [Config.crushPairs]
  rw [PermState.crush_S, count, tablePair_crushPairs (Nat.le_refl _) hv, if_pos hv]

/-- Settles O17, pair by pair: each is the ordered pair of what it held. -/
theorem crushOrdersEveryPair : Obligations.CrushOrdersEveryPair := by
  refine ⟨rfl, fun s => exec_noState rfl rfl, fun s p h l => ⟨s.ps.crush.S, ?_, fun v hv => ?_⟩⟩
  · rw [exec_mix (f := PermState.crush) rfl p h l, PermState.crush_S, PermState.crush_eq]
  · have pair := tablePair_crush hv s.ps
    unfold orderPair at pair
    refine ⟨fun lt => ?_, fun ge => ?_⟩
    · exact Prod.mk.inj (pair.trans (if_pos lt))
    · exact Prod.mk.inj (pair.trans (if_neg ge))

/-! ### WHIP (R114) -/

theorem PermState.whip_eq_iterate (p : PermState) :
    p.whip = { PermState.update^[512] p with W := p.W + 2#8 } := by
  have rounds : Config.whipRounds = 512 := by rw [Config.whipRounds]
  rw [whip_eq, updates_W, updates_eq_iterate, rounds]

/-- Settles O18: the step is `whip`, and `I` comes back because 512 strides are 0 modulo 256. -/
theorem whipUpdates512TimesAndStepsTheStride : Obligations.WhipUpdates512TimesAndStepsTheStride :=
  ⟨rfl, fun _ => exec_noState rfl rfl, fun s p h l => ⟨s.ps.whip, exec_mix rfl p h l, s.ps.whip_eq_iterate,
    s.ps.whip_I, s.ps.whip_Z, s.ps.whip_A⟩⟩

/-! ### SHUFFLE (R115) -/

theorem PermState.shuffle_setA (p : PermState) (a : Byte) : PermState.shuffle { p with A := a } = p.shuffle := by
  rw [shuffle_eq, shuffle_eq, stages_setA]

/-- Settles O19: the step is `shuffle`; its five stages carry `A` along and its last line overwrites it. -/
theorem shuffleIsTheFiveStageSequence : Obligations.ShuffleIsTheFiveStageSequence :=
  ⟨rfl, fun _ => exec_noState rfl rfl, fun s p h l => ⟨s.ps.shuffle, exec_mix rfl p h l, s.ps.shuffle_eq,
    s.ps.shuffle_I, s.ps.shuffle_Z, s.ps.shuffle_W⟩, PermState.shuffle_setA⟩

/-! ### The laws of the primitives (R116) -/

theorem PermState.output_eq_withZ (p : PermState) : p.output = { p with Z := p.output.Z } := rfl

theorem PermState.update_setZA (p : PermState) (z a : Byte) :
    PermState.update { p with Z := z, A := a } = { p.update with Z := z, A := a } := rfl

theorem PermState.crush_setRegisters (p : PermState) (i j k z a w : Byte) :
    PermState.crush { S := p.S, I := i, J := j, K := k, Z := z, A := a, W := w } =
      { S := p.crush.S, I := i, J := j, K := k, Z := z, A := a, W := w } := by
  rw [crush_eq, crush_S]

theorem exec_mix_next (e : rawMix i = some f) (p : s.port = .none) (st : exec i s = .next t) :
    s.phase = .exec ∧ s.live = true ∧ t = s.completed (f s.ps) := by
  rw [exec_eq_mixAndFinish e p] at st
  obtain ⟨h, st⟩ := atExec_next st
  exact ⟨h, mixAndFinish_next st⟩

theorem exec_emit_next (e : rawEmit i = some f) (p : s.port = .none) (st : exec i s = .next t) :
    s.phase = .exec ∧ ((s.doutValid = true ∧ t = s) ∨
      (s.doutValid = false ∧ s.live = true ∧ t = (s.completed (f s.ps)).doutPut (f s.ps).Z)) := by
  rw [exec_eq_emitAndFinish e p] at st
  obtain ⟨h, st⟩ := atExec_next st
  exact ⟨h, emitAndFinish_next st⟩

/-- Values of the length registers (R23) and of the counters (R22). -/
structure Counts where
  (keyLen nonceLen msgLen outLen cKey cNonce cMsg cOut : Word)

/-- The state with other values in the length registers and in the counters. -/
def State.withCounts (c : Counts) (s : State) : State :=
  { s with
    keyLen := c.keyLen, nonceLen := c.nonceLen, msgLen := c.msgLen, outLen := c.outLen
    cKey := c.cKey, cNonce := c.cNonce, cMsg := c.cMsg, cOut := c.cOut }

/-- The same permutation state and the same DOUT. -/
def SameYield (u t : State) : Prop :=
  u.ps = t.ps ∧ u.doutByte = t.doutByte ∧ u.doutValid = t.doutValid

theorem rawMix_or_rawEmit_of_mem (m : i ∈ [Instr.update, .output, .crush, .whip, .shuffle]) :
    (∃ f, rawMix i = some f) ∨ (∃ f, rawEmit i = some f) := by
  simp only [List.mem_cons, List.not_mem_nil, or_false] at m
  rcases m with rfl | rfl | rfl | rfl | rfl
  · exact .inl ⟨_, rfl⟩
  · exact .inr ⟨_, rfl⟩
  all_goals exact .inl ⟨_, rfl⟩

/-- R116 (e), for a command that puts no byte. -/
theorem exec_mix_withCounts (c : Counts) (e : rawMix i = some f) (p : s.port = .none) (st : exec i s = .next t) :
    ∃ u, exec i (s.withCounts c) = .next u ∧ SameYield u t := by
  obtain ⟨h, l, rfl⟩ := exec_mix_next e p st
  exact ⟨_, exec_mix (s := s.withCounts c) e p h l, rfl, rfl, rfl⟩

/-- R116 (e), for a command that puts a byte: it is held in both states or in neither. -/
theorem exec_emit_withCounts (c : Counts) (e : rawEmit i = some f) (p : s.port = .none) (st : exec i s = .next t) :
    ∃ u, exec i (s.withCounts c) = .next u ∧ SameYield u t := by
  obtain ⟨h, ⟨full, held⟩ | ⟨empty, l, rfl⟩⟩ := exec_emit_next e p st
  · rw [held]
    exact ⟨_, exec_emit_full (s := s.withCounts c) e p h full, rfl, rfl, rfl⟩
  · exact ⟨_, exec_emit_empty (s := s.withCounts c) e p h l empty, rfl, rfl, rfl⟩

/-- R116 (e). -/
theorem exec_primitive_withCounts (c : Counts) (m : i ∈ [Instr.update, .output, .crush, .whip, .shuffle])
    (p : s.port = .none) (st : exec i s = .next t) : ∃ u, exec i (s.withCounts c) = .next u ∧ SameYield u t := by
  rcases rawMix_or_rawEmit_of_mem m with ⟨f, e⟩ | ⟨f, e⟩
  · exact exec_mix_withCounts c e p st
  · exact exec_emit_withCounts c e p st

/-- Settles O44, law by law. -/
theorem lawsOfThePrimitives : Obligations.LawsOfThePrimitives := by
  refine ⟨fun p h => ⟨h.update, h.crush, h.whip, h.shuffle⟩, fun p odd => ⟨?whip, ?shuffle⟩,
    PermState.output_eq_withZ, PermState.update_setZA, PermState.crush_setRegisters,
    fun _ _ _ a b c d e f g h => exec_primitive_withCounts ⟨a, b, c, d, e, f, g, h⟩⟩
  case whip => rw [PermState.whip_W]; exact byte_odd_add_two odd
  case shuffle => rw [PermState.shuffle_W]; exact byte_odd_add_six odd

end Sys2Proof.Machine
end

section
/-! PROOFS. Absorption (spec/42_absorb_protocol.md): the two command words that carry an operand, what each operation
does with room in the table and without, the obligation of each command, the laws of R134, how often `absorb` shuffles,
and the run of ABSORB. -/

namespace Sys2Proof.Machine

variable {i : Instr} {s t : State} {es : List Event} {w : Word}

/-! ### The operand of a command word (R61) -/

theorem highNibble_zeroExtend (x : Nibble) : highNibble (x.zeroExtend 8) = 0#4 := by
  apply BitVec.eq_of_getLsbD_eq
  intro j hj
  simp [highNibble]

theorem lowNibble_zeroExtend (x : Nibble) : lowNibble (x.zeroExtend 8) = x := by
  apply BitVec.eq_of_getLsbD_eq
  intro j hj
  simp [lowNibble, hj]
  omega

theorem wf_absorbNibble_iff {b : Byte} : (Instr.absorbNibble b).wf = true ↔ highNibble b = 0#4 := beq_iff_eq

theorem encode_absorbNibble (x : Nibble) :
    encode (.absorbNibble (x.zeroExtend 8)) = ((x.zeroExtend 32) <<< 8) ||| 0x10#32 := by
  have widened : (x.zeroExtend 8).zeroExtend 32 = x.zeroExtend 32 := BitVec.setWidth_setWidth (by decide)
  show ((x.zeroExtend 8).zeroExtend 32 <<< 8) ||| 0x10#32 = _
  rw [widened]

theorem decode_absorbNibble (x : Nibble) :
    decode (((x.zeroExtend 32) <<< 8) ||| 0x10#32) = .ok (.absorbNibble (x.zeroExtend 8)) :=
  decode_eq_ok_iff.2 ⟨wf_absorbNibble_iff.2 (highNibble_zeroExtend x), (encode_absorbNibble x).symm⟩

theorem decode_absorbByte (b : Byte) : decode (((b.zeroExtend 32) <<< 8) ||| 0x11#32) = .ok (.absorbByte b) :=
  decode_eq_ok_iff.2 ⟨rfl, rfl⟩

/-- R67: a command that is not well formed is rejected with ILLEGAL, and only `ERRCODE` says so. -/
theorem exec_illegal (wf : i.wf = false) (p : s.port = .cmd) (b : s.busy = false) :
    exec i s = .next { s with port := .none, errCode := .illegal } := by
  rw [exec_cmd_idle i p b, issue_illegal wf]
  rfl

/-! ### With room in the table and without -/

namespace PermState

variable {p : PermState}

theorem A_ne_half (h : p.A.toNat < 128) : p.A ≠ Config.half := by
  intro e
  rw [e] at h
  exact absurd h (by decide)

/-- Where no shuffle fires a nibble is one exchange and one count. -/
theorem absorbNibble_of_ne (h : p.A ≠ Config.half) (x : Nibble) :
    p.absorbNibble x = { p with S := tableSwap p.S p.A (nibbleIndex x), A := p.A + 1#8 } := by
  rw [absorbNibble_eq, makeRoom_of_ne h]

theorem absorbStop_of_ne (h : p.A ≠ Config.half) : p.absorbStop = { p with A := p.A + 1#8 } := by
  rw [absorbStop_eq, makeRoom_of_ne h]

theorem absorbStop_of_eq (h : p.A = Config.half) : p.absorbStop = { p.shuffle with A := 1#8 } := by
  rw [absorbStop_eq, makeRoom_of_eq h, shuffle_A]
  rfl

theorem half_le_nibbleIndex (x : Nibble) : 128 ≤ (nibbleIndex x).toNat := by
  have := x.isLt
  simp [nibbleIndex, Config.half]
  omega

/-- The two entries a nibble exchanges are different (R134 (c)). -/
theorem A_ne_nibbleIndex (h : p.A.toNat < 128) (x : Nibble) : p.A ≠ nibbleIndex x := by
  intro e
  rw [e] at h
  exact absurd h (Nat.not_lt.2 (half_le_nibbleIndex x))

/-- Whether a shuffle fired shows in the stride, and depends on `A` only (R134 (d)). -/
theorem makeRoom_W_sub (p : PermState) : p.makeRoom.W - p.W = if p.A = Config.half then 6#8 else 0#8 := by
  rw [makeRoom_W]
  split
  · rw [BitVec.add_comm, BitVec.add_sub_cancel]
  · exact BitVec.sub_self _

end PermState

/-! ### ABSORB_NIBBLE, ABSORB_BYTE and ABSORB_STOP (R130, R131, R133) -/

/-- Settles O21: the step is `absorb_nibble`, whose table is the one after the possible shuffle with one exchange. -/
theorem absorbNibbleSwapsAtTheCounter : Obligations.AbsorbNibbleSwapsAtTheCounter := by
  refine ⟨decode_absorbNibble, fun s b p idle high => ?_, fun s b p idle low => ?_, fun s x p h l => ?_⟩
  · exact exec_illegal (Bool.eq_false_iff.2 fun wf => high (wf_absorbNibble_iff.1 wf)) p idle
  · exact exec_noState (wf_absorbNibble_iff.2 low) rfl p idle
  · show ∃ u : Table, exec (.absorbNibble (x.zeroExtend 8)) s =
        .next (s.completed { s.ps.makeRoom with S := u, A := s.ps.makeRoom.A + 1#8 }) ∧
      ∀ n : Byte, tableRead u n =
        if n = s.ps.makeRoom.A then tableRead s.ps.makeRoom.S (nibbleIndex x)
        else if n = nibbleIndex x then tableRead s.ps.makeRoom.S s.ps.makeRoom.A
        else tableRead s.ps.makeRoom.S n
    refine ⟨tableSwap s.ps.makeRoom.S s.ps.makeRoom.A (nibbleIndex x), ?_, fun n => ?_⟩
    · rw [exec_mix (i := .absorbNibble (x.zeroExtend 8)) rfl p h l, lowNibble_zeroExtend, PermState.absorbNibble_eq]
    · rw [tableRead_tableSwap, apply_ite (tableRead _), apply_ite (tableRead _)]

/-- Settles O22: the step is `absorb_byte`, the two nibbles one after the other. -/
theorem absorbByteIsLowNibbleThenHighNibble : Obligations.AbsorbByteIsLowNibbleThenHighNibble := by
  refine ⟨decode_absorbByte, fun s b => exec_noState rfl rfl, fun s b p h l => ?_⟩
  rw [exec_mix (i := .absorbByte b) rfl p h l, PermState.absorbByte_eq]
  rfl

/-- Settles O23: the step is `absorb_stop`, with the table full and with room in it. -/
theorem absorbStopOnlyCounts : Obligations.AbsorbStopOnlyCounts := by
  refine ⟨rfl, fun s => exec_noState rfl rfl, fun s p h l => ?_⟩
  rw [exec_mix (i := .absorbStop) rfl p h l]
  refine ⟨fun full => ?_, fun room => ?_⟩
  · rw [PermState.absorbStop_of_eq full]
  · rw [PermState.absorbStop_of_ne room]

/-! ### The laws of absorption (R134) -/

/-- Settles O45, law by law. -/
theorem lawsOfAbsorption : Obligations.LawsOfAbsorption := by
  refine ⟨fun p x b data h => ⟨h.absorbNibble x, h.absorbByte b, h.absorb data, h.absorbStop⟩,
    fun p x b data => ⟨p.absorbNibble_Z x, p.absorbByte_Z b, absorb_Z data p, p.absorbStop_Z⟩,
    fun p x h => ⟨PermState.absorbNibble_of_ne (PermState.A_ne_half h) x, PermState.A_ne_nibbleIndex h x⟩,
    fun p h => PermState.absorbStop_of_ne (PermState.A_ne_half h),
    fun p q x y h => ⟨nibble_A x y p q h, sameA_stop p q h, ?nibbleW, ?stopW⟩⟩
  case nibbleW => rw [PermState.absorbNibble_W, PermState.absorbNibble_W, PermState.makeRoom_W_sub,
    PermState.makeRoom_W_sub, h]
  case stopW => rw [PermState.absorbStop_W, PermState.absorbStop_W, PermState.makeRoom_W_sub,
    PermState.makeRoom_W_sub, h]

/-! ### How often `absorb` shuffles (R132) -/

/-- The shuffles of `n` bytes absorbed from `A = 0`: `ceil(2n / 128) - 1`, and none for `n = 0`. -/
def shufflesOf (n : Nat) : Nat := (2 * n + 127) / 128 - 1

/-- The nibbles absorbed since the last shuffle: at most the 128 there is room for. -/
theorem shufflesOf_bounds (n : Nat) : 128 * shufflesOf n ≤ 2 * n ∧ 2 * n ≤ 128 * shufflesOf n + 128 := by
  unfold shufflesOf
  omega

theorem shufflesOf_succ_of_lt {n : Nat} (h : n - 64 * shufflesOf n < 64) : shufflesOf (n + 1) = shufflesOf n := by
  unfold shufflesOf at *
  omega

theorem shufflesOf_succ_of_eq {n : Nat} (h : n - 64 * shufflesOf n = 64) : shufflesOf (n + 1) = shufflesOf n + 1 := by
  unfold shufflesOf at *
  omega

/-- Byte by byte: each finds room for both its nibbles, or shuffles once before the first. -/
theorem absorb_from_zero {p : PermState} (h : p.A = 0#8) (data : List Byte) :
    (p.absorb data).W = p.W + BitVec.ofNat 8 (6 * shufflesOf data.length) ∧
    (p.absorb data).A.toNat = 2 * data.length - 128 * shufflesOf data.length := by
  induction data using List.reverseRecOn with
  | nil => exact ⟨(BitVec.add_zero _).symm, congrArg BitVec.toNat h⟩
  | append_singleton data b ih =>
    obtain ⟨stride, count⟩ := ih
    rw [absorb_snoc, List.length_append, List.length_singleton]
    generalize p.absorb data = q at *
    generalize data.length = n at *
    obtain ⟨below, above⟩ := shufflesOf_bounds n
    have even : q.A.toNat = 2 * (n - 64 * shufflesOf n) := by omega
    obtain ⟨room, full⟩ := absorbByte_even q b (n - 64 * shufflesOf n) even (by omega)
    rcases (show n - 64 * shufflesOf n < 64 ∨ n - 64 * shufflesOf n = 64 by omega) with lt | eq
    · obtain ⟨counted, kept⟩ := room lt
      rw [shufflesOf_succ_of_lt lt]
      exact ⟨kept.trans stride, by omega⟩
    · obtain ⟨counted, stepped⟩ := full eq
      rw [shufflesOf_succ_of_eq eq, Nat.mul_add, BitVec.ofNat_add, ← BitVec.add_assoc, ← stride]
      exact ⟨stepped, by omega⟩

/-- Settles O46; the count is right for no bytes too, because `127 / 128 - 1` is 0. -/
theorem absorbShufflesOncePer128Nibbles : Obligations.AbsorbShufflesOncePer128Nibbles :=
  fun _ data zero _ => absorb_from_zero zero data

/-! ### The run of ABSORB (R132, R99) -/

theorem CompleteRun.drainedRun (r : CompleteRun w es s t) : DrainedRun w es s t :=
  ⟨r.inv, r.idle, r.agenda, r.oneCommand, r.duties, r.runs, r.complete, r.drained⟩

/-- Settles O50: the drained run of ABSORB, with nothing pending in DOUT at its start. -/
theorem absorbRunAbsorbsTheData : Obligations.AbsorbRunAbsorbsTheData := by
  intro es s t r l
  simpa only [pending_nil r.empty] using r.drainedRun.absorb_ends l

end Sys2Proof.Machine
end

section
/-! PROOFS. Extraction (spec/43_extract_protocol.md): how squeezes in parts and of shorter lengths compare (R142), the
run of SQUEEZE (R141), and the step of DRIP (R140). -/

namespace Sys2Proof.Machine

/-! ### Squeezing in parts (R142) -/

/-- R142 (b): the flush of the second squeeze finds `A = 0`, so the drips of the two are one sequence. -/
theorem squeezeBytes_add (n m : Nat) (p : PermState) :
    squeezeBytes (n + m) p = squeezeBytes n p ++ squeezeBytes m (drips n p.flush) := by
  have flushed : (drips n p.flush).A = 0#8 := drips_A n p.flush (PermState.flush_A p)
  rw [squeezeBytes, squeezeBytes, squeezeBytes, PermState.flush_of_zero flushed, dripBytes_add]

/-- R142 (c): a shorter squeeze returns a prefix of a longer one. -/
theorem take_squeezeBytes {n m : Nat} (h : n ≤ m) (p : PermState) : (squeezeBytes m p).take n = squeezeBytes n p := by
  obtain ⟨k, rfl⟩ := Nat.exists_eq_add_of_le h
  have len : (squeezeBytes n p).length = n := dripBytes_length n p.flush
  rw [squeezeBytes_add, List.take_left' len]

/-- Settles O47: STREAM is one squeeze, from a state its length does not enter. -/
theorem squeezingInPartsGivesTheSameBytes : Obligations.SqueezingInPartsGivesTheSameBytes :=
  ⟨fun p n m => squeezeBytes_add n m p, fun key _ _ h => take_squeezeBytes h (PermState.initial.absorb key)⟩

/-! ### The run of SQUEEZE (R141, R99) -/

/-- Settles O51: the drained run of SQUEEZE, with nothing pending in DOUT at its start. -/
theorem squeezeRunDeliversTheSqueeze : Obligations.SqueezeRunDeliversTheSqueeze := by
  intro es s t r l
  simpa only [pending_nil r.empty, List.nil_append] using r.drainedRun.squeeze_ends l

/-! ### DRIP (R140) -/

/-- Settles O25: the step is `drip`, whose flush shuffles just when `A > 0`; held whole while DOUT is full. -/
theorem dripFlushesUpdatesAndOutputs : Obligations.DripFlushesUpdatesAndOutputs := by
  refine ⟨rfl, fun s => exec_noState rfl rfl, fun s => exec_emit_full rfl, fun s p h l d => ?_⟩
  dsimp only
  rw [← PermState.flush_eq_ite, ← PermState.drip_eq]
  exact ⟨exec_emit_empty (f := PermState.drip) rfl p h l d, s.ps.drip_A⟩

end Sys2Proof.Machine
end

section
/-! PROOFS. The high-level commands (spec/44_highlevel_ops.md): that each starts from `initialize` and ends erased
(R155), what ENCRYPT, DECRYPT and STREAM have to do with one another (R156, R157), and the complete run of each, from
DOUT empty (R150 to R154, R99). -/

namespace Sys2Proof.Machine

variable {i : Instr} {s t : State}

/-! ### From `initialize` to the erase (R155) -/

theorem exists_startPhase_of_highLevel (h : highLevel i = true) : ∃ q, startPhase i = some q := by
  cases i <;> simp [startPhase, highLevel] at h ⊢

theorem streaming_of_highLevel (h : highLevel i = true) : streaming i = true := by
  cases i <;> simp [streaming, highLevel] at h ⊢

theorem leaves_of_highLevel (h : highLevel i = true) (s : State) (d : List Byte) : leaves i s d = PermState.erased := by
  cases i <;> simp [leaves, highLevel] at h ⊢

/-- With no access at a port a transition is an internal step. -/
theorem internalStep_of_exec (p : s.port = .none) (st : exec i s = .next t) : InternalStep i s t := by
  cases exec_next st with
  | internal _ _ r => exact r
  | ignored q | issued q | lost _ q | taken _ q =>
    rw [p] at q
    cases q

/-- Settles O38: the last internal step of a high-level command leaves what `leaves` promises, the erased state; LEN is
the one rejection that erases; and the EXEC step writes over `PS` and `LIVE` without reading them. -/
theorem highLevelCommandsEndErasedAndStartFresh : Obligations.HighLevelCommandsEndErasedAndStartFresh := by
  refine ⟨fun i s t inv r high st done => ?ends, fun i s t p st b err => ?rejected,
    fun i s p l high port h => ?starts⟩
  case ends =>
    obtain ⟨-, -, -, ps, live⟩ :=
      conserve_end (streaming_of_highLevel high) (internalStep_of_exec inv.port st) r.1 done
    rw [if_pos high] at live
    exact ⟨live, ps.trans (leaves_of_highLevel high s [])⟩
  case rejected =>
    rw [exec_cmd_idle i p b] at st
    obtain rfl := next_inj st
    have outcome := issue_cases i s.release
    generalize s.release.issue i = u at outcome err
    cases outcome with
    | len => exact ⟨State.reject_live _ _, State.reject_ps _ _⟩
    | illegal | noState | accepted => cases err
  case starts =>
    obtain ⟨q, e⟩ := exists_startPhase_of_highLevel high
    rw [exec_start e port h, exec_start e (s := { s with ps := p, live := l }) port h]

/-! ### The round trip (R156) -/

/-- Both scripts drip the same keystream, and subtracting a keystream byte undoes adding it. -/
theorem combineBytes_sub_add (msg : List Byte) (p : PermState) :
    combineBytes (fun c z => c - z) (combineBytes (fun m z => m + z) msg p) p = msg := by
  induction msg generalizing p with
  | nil => rfl
  | cons b rest ih => rw [combineBytes, combineBytes, BitVec.add_sub_cancel, ih]

/-- Settles O48: the two scripts combine with the drips of one and the same setup. -/
theorem decryptUndoesEncrypt : Obligations.DecryptUndoesEncrypt :=
  fun key nonce msg => combineBytes_sub_add msg (cryptSetup key nonce)

/-! ### The keystream (R157) -/

theorem combineBytes_add_zeros (n : Nat) (p : PermState) :
    combineBytes (fun m z => m + z) (List.replicate n 0#8) p = dripBytes n p := by
  induction n generalizing p with
  | zero => rfl
  | succ n ih => rw [List.replicate_succ, combineBytes, dripBytes, BitVec.zero_add, ih]

/-- The first drip flushes for itself, so a squeeze is its drips alone. -/
theorem squeezeBytes_eq_dripBytes (n : Nat) (p : PermState) : squeezeBytes n p = dripBytes n p := by
  cases n with
  | zero => rfl
  | succ n => rw [squeezeBytes, dripBytes, dripBytes, PermState.drip_flush]

/-- Between two shuffles a stop leaves no trace: it only counts, and the shuffle that follows does not read `A`. -/
theorem PermState.flush_absorbStop {p : PermState} (pos : 0 < p.A.toNat) (room : p.A.toNat < 128) :
    p.absorbStop.flush = p.flush := by
  have counted : p.A ≠ 0#8 := by
    intro e
    simp [e] at pos
  have stopped : p.A + 1#8 ≠ 0#8 := by bv_omega
  rw [absorbStop_of_ne (A_ne_half room), flush_of_ne (p := { p with A := p.A + 1#8 }) stopped, shuffle_setA,
    flush_of_ne counted]

/-- Such a key leaves nibbles to flush and room for the stop (R132, R157). -/
theorem absorb_A_of_length (key : List Byte) (h : key.length % 64 ≠ 0) :
    0 < (PermState.initial.absorb key).A.toNat ∧ (PermState.initial.absorb key).A.toNat < 128 := by
  have count := (absorb_from_zero (p := PermState.initial) rfl key).2
  obtain ⟨below, above⟩ := shufflesOf_bounds key.length
  omega

/-- Settles O49: the drips after the setup are a squeeze, and with an empty nonce the setup differs from STREAM's by a
stop that leaves no trace. -/
theorem encryptOfZerosIsTheKeystream : Obligations.EncryptOfZerosIsTheKeystream := by
  refine ⟨fun key nonce n => combineBytes_add_zeros n _, fun key n h => ?_⟩
  obtain ⟨pos, room⟩ := absorb_A_of_length key h
  calc encryptScript (List.replicate n.toNat 0#8) [] key
      = dripBytes n.toNat (PermState.initial.absorb key).absorbStop := combineBytes_add_zeros n.toNat _
    _ = squeezeBytes n.toNat (PermState.initial.absorb key).absorbStop := (squeezeBytes_eq_dripBytes _ _).symm
    _ = streamScript key n := by rw [squeezeBytes, PermState.flush_absorbStop pos room, streamScript, squeezeBytes]

/-! ### The complete runs (R150 to R154, R99) -/

/-- Settles O52: the drained run of HASH, rejected or accepted, with nothing pending in DOUT at its start. -/
theorem hashRunDeliversTheHash : Obligations.HashRunDeliversTheHash := by
  intro es s t r
  have nothing := pending_nil r.empty
  rcases r.drainedRun.hash_ends with ⟨o, j⟩ | ⟨o, live, ps, taken, out, err⟩
  · rw [hashScript_of_lt o]
    exact ⟨j.live, j.ps, j.taken, nothing ▸ j.out, j.err⟩
  · rw [hashScript_of_le o]
    rw [nothing, List.nil_append] at out
    exact ⟨live, ps, taken, out, err⟩

/-- Settles O53: the drained run of STREAM, with nothing pending in DOUT at its start. -/
theorem streamRunDeliversTheKeystream : Obligations.StreamRunDeliversTheKeystream := by
  intro es s t r
  simpa only [pending_nil r.empty, List.nil_append] using r.drainedRun.stream_ends

/-- Settles O54: the drained run of ENCRYPT, with nothing pending in DOUT at its start. -/
theorem encryptRunDeliversTheCiphertext : Obligations.EncryptRunDeliversTheCiphertext := by
  intro es s t r
  simpa only [pending_nil r.empty, List.nil_append] using r.drainedRun.encrypt_ends

/-- Settles O55: the drained run of DECRYPT, with nothing pending in DOUT at its start. -/
theorem decryptRunDeliversThePlaintext : Obligations.DecryptRunDeliversThePlaintext := by
  intro es s t r
  simpa only [pending_nil r.empty, List.nil_append] using r.drainedRun.decrypt_ends

/-- Settles O56: the drained run of AUTH, rejected or accepted, with nothing pending in DOUT at its start. -/
theorem authRunDeliversTheTag : Obligations.AuthRunDeliversTheTag := by
  intro es s t r
  have nothing := pending_nil r.empty
  rcases r.drainedRun.auth_ends with ⟨o, j⟩ | accepted
  · exact ⟨j.live, j.ps, .inl ⟨o, j.taken, nothing ▸ j.out, j.err⟩⟩
  · simp only [nothing, List.nil_append] at accepted
    obtain ⟨live, ps, delivered⟩ := accepted
    exact ⟨live, ps, .inr delivered⟩

end Sys2Proof.Machine
end

section
/-! PROOFS. Secure erase (spec/45_secure_erase.md): ERASE is never rejected, and its EXEC step leaves the erased state
(R170, R171). -/

namespace Sys2Proof.Machine

variable {i : Instr} {s : State}

/-- R81, R85: a well-formed command with neither a live state nor an output length to check is always accepted by an idle
engine, whatever `LIVE` and the length registers hold. -/
theorem exec_accept (wf : i.wf = true) (n : needsLive i = false) (c : checksOutLen i = false) (p : s.port = .cmd)
    (b : s.busy = false) : exec i s = .next (s.release.accept i) := by
  rw [exec_cmd_idle i p b, issue_accept wf (by simp [n]) (by simp [c])]

/-- R171: the EXEC step of ERASE is `finish(true)`, and `LIVE` is no guard of it. -/
theorem exec_erase (p : s.port = .none) (h : s.phase = .exec) : exec .erase s = .next s.completedErased :=
  exec_of_internal p (h ▸ exec_mem_path _) (.erase rfl h)

/-- Settles O20: an idle engine accepts ERASE, and the state its EXEC step leaves holds `PermState.erased`. -/
theorem eraseZeroesThePermutationState : Obligations.EraseZeroesThePermutationState := by
  refine ⟨rfl, fun s p b => ?accepted, fun s p h => ?erases⟩
  case accepted =>
    exact ⟨s.release.accept .erase, exec_accept rfl rfl rfl p b, State.accept_errCode _ _, State.accept_busy _ _⟩
  case erases =>
    exact ⟨PermState.erased, exec_erase p h, tableRead_erased, rfl, rfl, rfl, rfl, rfl, rfl⟩

end Sys2Proof.Machine
end

section
/-! PROOFS. Exceptions (spec/60_exceptions.md): from a state of the invariant no operation faults (R184), and the model
refuses only a host access that R42 leaves outside the interface (log entry 7). -/

namespace Sys2Proof.Machine

variable {s : State}

/-- The command in progress is at a phase of its path and live where it must be, whichever port it serves. -/
theorem runCurrent_total (h : s.Inv) (p : Port) : ∃ t, runCurrent p s = .next t := by
  cases b : s.busy with
  | false => exact ⟨_, runCurrent_idle b⟩
  | true =>
    obtain ⟨i, r, path, liveAtExec, liveAfter, -⟩ := h.running b
    rw [runCurrent_running r]
    exact exec_total (s := { s with port := p }) path liveAtExec liveAfter

/-- A rejected or ignored CMD write is an answer too (R80, R180), in any state. -/
theorem writeCmd_total (w : Word) (s : State) : ∃ t, writeCmd w s = .next t := by
  cases d : decode w with
  | ok i =>
    rw [writeCmd_ok d]
    exact exec_cmd_total i { s with port := .cmd } rfl
  | error r => exact ⟨_, writeCmd_error d⟩

theorem writeReg_total (h : s.Inv) (r : Option HostReg) (v : Word) : ∃ t, writeReg r v s = .next t := by
  cases r with
  | none => exact ⟨_, rfl⟩
  | some r =>
    cases r with
    | cmd => exact writeCmd_total v s
    | din => exact runCurrent_total h _
    | keyLen | nonceLen | msgLen | outLen | status | dout => exact ⟨_, rfl⟩

/-- A host access that is not a whole 32-bit register at an aligned offset (R42). -/
def Event.Misshapen (e : Event) : Prop :=
  (∃ o n v, e = .write o n v ∧ (n ≠ 4 ∨ o % 4 ≠ 0)) ∨ (∃ o n, e = .read o n ∧ (n ≠ 4 ∨ o % 4 ≠ 0))

theorem not_accessOk_iff {o n : Nat} : ¬ accessOk o n = true ↔ n ≠ 4 ∨ o % 4 ≠ 0 := by
  rw [accessOk_iff, not_and_or]

/-- Of the four kinds of event only a host access can be refused, and only for its shape. -/
theorem takeEvent_next_or_refused (h : s.Inv) (e : Event) :
    (∃ t, takeEvent e s = .next t) ∨ (takeEvent e s = .refused .accessShape ∧ e.Misshapen) := by
  cases e with
  | engine => exact .inl (runCurrent_total h .none)
  | reset => exact .inl ⟨_, rfl⟩
  | write o n v =>
    by_cases ok : accessOk o n = true
    · rw [takeEvent_write ok]
      exact .inl (writeReg_total h _ v)
    · exact .inr ⟨takeEvent_write_refused ok s, .inl ⟨o, n, v, rfl, not_accessOk_iff.1 ok⟩⟩
  | read o n =>
    by_cases ok : accessOk o n = true
    · exact .inl ⟨_, takeEvent_read ok s⟩
    · exact .inr ⟨takeEvent_read_refused ok s, .inr ⟨o, n, rfl, not_accessOk_iff.1 ok⟩⟩

/-- Settles O33, by the event the step takes; with nothing on the agenda that is the engine's turn, which always
answers. -/
theorem noStepFaultsUnderTheInvariant : Obligations.NoStepFaultsUnderTheInvariant := by
  intro s h
  cases a : s.agenda with
  | nil =>
    rw [step_of_nil a]
    exact .inl (runCurrent_total h .none)
  | cons e rest =>
    rw [step_of_cons a]
    obtain answers | ⟨refused, shape⟩ := takeEvent_next_or_refused (inv_hostSide h _ _ _ _ rest _) e
    · exact .inl answers
    · exact .inr ⟨refused, e, rest, rfl, shape⟩

end Sys2Proof.Machine
end

section
/-! PROOFS. Reset (spec/70_reset_and_hazards.md): a reset event is one step from any state, and the state it leaves is that
of the reset table (R200, R201). -/

namespace Sys2Proof.Machine

/-- R201: whatever the engine was doing, a reset event at the head of the agenda is taken at once, and what is left on the
agenda is untouched. -/
theorem step_reset (s : State) (rest : List Event) :
    step { s with agenda := .reset :: rest } = .next (State.applyReset { s with agenda := rest }) :=
  step_of_cons (s := { s with agenda := .reset :: rest }) rfl

/-- R200: the engine waits in IDLE after reset. -/
theorem held_applyReset (s : State) : s.applyReset.Held := held_of_idle rfl rfl

/-- R200: STATUS shows nothing of the host's side, so after reset it reads as `State.reset` does. -/
theorem statusWord_applyReset (s : State) : statusWord s.applyReset = 0x00000000#32 :=
  calc statusWord s.applyReset
    _ = statusWord State.reset := rfl
    _ = 0x00000000#32 := rfl

/-- Settles O6: the step leaves `State.applyReset`, whose fields are those of `State.reset` but for the host's agenda and
reads. -/
theorem resetMayArriveAtAnyPoint : Obligations.ResetMayArriveAtAnyPoint :=
  fun s rest => ⟨State.applyReset { s with agenda := rest }, step_reset s rest, tableRead_erased, rfl, rfl, rfl, rfl, rfl,
    rfl, rfl, rfl, rfl, rfl, rfl, rfl, rfl, rfl, rfl, rfl, rfl, rfl, rfl, rfl, rfl, rfl, statusWord_applyReset _,
    held_applyReset _, rfl, rfl⟩

end Sys2Proof.Machine
end
